-- ==== Sys2Proof/Word.lean ====
section
/-! DEFINITION. The word of the bus and of the control registers, and field register numbers. The value of an element
register (P, F, C, SVAL) is a Nat: R12 and R89 say that every value the engine handles is a non-negative integer and that
no intermediate is truncated. That a register holds less than 2^W is an invariant of State (Safety.lean), which every
step keeps. (log 2) -/

namespace Sys2Proof

/-- A 32-bit word: a host bus access, a command word, a share index (R10). -/
abbrev Word := BitVec 32

/-- A field register number, F0 to F15 (R10, R69). -/
abbrev FReg := Fin 16

end Sys2Proof
end

