-- ==== Sys2Proof/Syntax.lean ====
section
/-! DEFINITION. The thirteen commands (30_encoding.md R70), one constructor each, operands in the order of the assembler
syntax (R76). -/

namespace Sys2Proof

/-- A command. Register operands are register numbers; T, N, K and IMM are plain counts, slot numbers and an
immediate, whose field widths `Instr.wf` checks. -/
inductive Instr where
  /-- R80 -/
  | nop
  /-- R81 -/
  | madd (rd ra rb : FReg)
  /-- R82 -/
  | msub (rd ra rb : FReg)
  /-- R83 -/
  | mmul (rd ra rb : FReg)
  /-- R84 -/
  | mneg (rd ra : FReg)
  /-- R85 -/
  | minv (rd ra : FReg)
  /-- R86 -/
  | mexp (rd ra rb : FReg)
  /-- R87 -/
  | mmov (rd ra : FReg)
  /-- R88 -/
  | mldi (rd : FReg) (imm : Nat)
  /-- R92 -/
  | peval (rd ra : FReg) (t : Nat)
  /-- R93 -/
  | split (n t : Nat)
  /-- R100 -/
  | combine (rd : FReg) (n : Nat)
  /-- R101 -/
  | lbasis (rd : FReg) (k n : Nat)
  deriving DecidableEq, Repr

/-- The pseudo-instructions of R77. -/
inductive Pseudo where
  | mclr (rd : FReg)
  | mone (rd : FReg)
  | msqr (rd ra : FReg)
  | mdiv (rd ra rb : FReg)
  deriving DecidableEq, Repr

end Sys2Proof
end

