-- ==== Sys2Proof/WellFormed.lean ====
section
/-! DEFINITION. Which commands have an encoding: each operand fits its field (30_encoding.md R64 to R68, R76). A value
that fits its field but is out of the command's legal range is well-formed: it raises INVALID_ARGUMENT when it runs. -/

namespace Sys2Proof

/-- Every operand fits its field. Register numbers fit by their type. -/
def Instr.wf : Instr → Bool
  | .nop => true
  | .madd _ _ _ => true
  | .msub _ _ _ => true
  | .mmul _ _ _ => true
  | .mneg _ _ => true
  | .minv _ _ => true
  | .mexp _ _ _ => true
  | .mmov _ _ => true
  | .mldi _ imm => decide (imm < 2 ^ 16)
  | .peval _ _ t => decide (t < 2 ^ 7)
  | .split n t => decide (n < 2 ^ 9) && decide (t < 2 ^ 7)
  | .combine _ n => decide (n < 2 ^ 9)
  | .lbasis _ k n => decide (k < 2 ^ 8) && decide (n < 2 ^ 9)

end Sys2Proof
end

