-- ==== Sys2Proof/Decode.lean ====
section
/-! DEFINITION. The decode function, total on all 2^32 words (30_encoding.md R75), the opcode map it reads (R70), the
encoder written from the same formats (R61 to R68), and the assembler's view of a command (R76, R77). -/

namespace Sys2Proof

/-- Why a word is no command (R71, R72), with its OP field. -/
inductive DecodeError where
  /-- OP is not in the opcode map. -/
  | badOpcode (op : BitVec 6)
  /-- A bit that its format marks 'reserved, must be 0' is 1. -/
  | reservedBits (op : BitVec 6)
  deriving DecidableEq, Repr

/-- The rows of the opcode map. -/
inductive OpRow where
  | nop | madd | msub | mmul | mneg | minv | mexp | mmov | mldi | peval | split | combine | lbasis
  deriving DecidableEq, Repr

/-- The row with a given OP value, R70; every other value is reserved (R71). -/
def OpRow.ofOp (op : BitVec 6) : Option OpRow :=
  match op.toNat with
  | 0x01 => some .madd
  | 0x02 => some .msub
  | 0x03 => some .mmul
  | 0x04 => some .mneg
  | 0x05 => some .minv
  | 0x06 => some .mexp
  | 0x07 => some .mmov
  | 0x08 => some .mldi
  | 0x10 => some .peval
  | 0x18 => some .split
  | 0x19 => some .combine
  | 0x1A => some .lbasis
  | 0x3F => some .nop
  | _ => none

/-- The row's 'match' of R70. -/
def OpRow.pattern : OpRow → Word
  | .madd => 0x00000001
  | .msub => 0x00000002
  | .mmul => 0x00000003
  | .mneg => 0x00000004
  | .minv => 0x00000005
  | .mexp => 0x00000006
  | .mmov => 0x00000007
  | .mldi => 0x00000008
  | .peval => 0x00000010
  | .split => 0x00000018
  | .combine => 0x00000019
  | .lbasis => 0x0000001A
  | .nop => 0x0000003F

/-- The row's 'mask' of R70: the opcode and the reserved bits. -/
def OpRow.mask : OpRow → Word
  | .madd => 0xFFFC003F
  | .msub => 0xFFFC003F
  | .mmul => 0xFFFC003F
  | .mneg => 0xFFFFC03F
  | .minv => 0xFFFFC03F
  | .mexp => 0xFFFC003F
  | .mmov => 0xFFFFC03F
  | .mldi => 0x0000FC3F
  | .peval => 0xFFE0003F
  | .split => 0xFFC0003F
  | .combine => 0xFFF8003F
  | .lbasis => 0xF800003F
  | .nop => 0xFFFFFFFF

/-- `v[hi:lo]` of R11, as bits. -/
def field (v : Word) (hi lo : Nat) : BitVec (hi - lo + 1) := v.extractLsb hi lo

/-- OP = v[5:0] (R60). -/
def opField (v : Word) : BitVec 6 := field v 5 0

/-- RD = v[9:6], in every format that has it (R62 to R65, R67, R68). -/
def rdField (v : Word) : FReg := (field v 9 6).toFin

/-- RA = v[13:10] (R62, R63, R65). -/
def raField (v : Word) : FReg := (field v 13 10).toFin

/-- RB = v[17:14] (R62). -/
def rbField (v : Word) : FReg := (field v 17 14).toFin

/-- The command of a row with its operands taken from the fields of the row's format (R61 to R69). -/
def OpRow.extract (row : OpRow) (v : Word) : Instr :=
  match row with
  | .nop => .nop
  | .madd => .madd (rdField v) (raField v) (rbField v)
  | .msub => .msub (rdField v) (raField v) (rbField v)
  | .mmul => .mmul (rdField v) (raField v) (rbField v)
  | .mneg => .mneg (rdField v) (raField v)
  | .minv => .minv (rdField v) (raField v)
  | .mexp => .mexp (rdField v) (raField v) (rbField v)
  | .mmov => .mmov (rdField v) (raField v)
  | .mldi => .mldi (rdField v) (field v 31 16).toNat
  | .peval => .peval (rdField v) (raField v) (field v 20 14).toNat
  | .split => .split (field v 14 6).toNat (field v 21 15).toNat
  | .combine => .combine (rdField v) (field v 18 10).toNat
  | .lbasis => .lbasis (rdField v) (field v 17 10).toNat (field v 26 18).toNat

/-- The decode function, R75: the opcode is tested first, then the reserved bits. -/
def decode (v : Word) : Except DecodeError Instr :=
  match OpRow.ofOp (opField v) with
  | none => .error (.badOpcode (opField v))
  | some row =>
    if v &&& row.mask = row.pattern then .ok (row.extract v) else .error (.reservedBits (opField v))

/-- The row of a command. -/
def Instr.row : Instr → OpRow
  | .nop => .nop
  | .madd _ _ _ => .madd
  | .msub _ _ _ => .msub
  | .mmul _ _ _ => .mmul
  | .mneg _ _ => .mneg
  | .minv _ _ => .minv
  | .mexp _ _ _ => .mexp
  | .mmov _ _ => .mmov
  | .mldi _ _ => .mldi
  | .peval _ _ _ => .peval
  | .split _ _ => .split
  | .combine _ _ => .combine
  | .lbasis _ _ _ => .lbasis

/-- A field value at its place in the word: `x << lo`. -/
def place (x lo : Nat) : Word := BitVec.ofNat 32 x <<< lo

/-- Format R, R62: RB<<14 | RA<<10 | RD<<6 | OP. -/
def encodeR (op : Nat) (rd ra rb : FReg) : Word :=
  place rb.val 14 ||| place ra.val 10 ||| place rd.val 6 ||| place op 0

/-- Format R2, R63: RA<<10 | RD<<6 | OP. -/
def encodeR2 (op : Nat) (rd ra : FReg) : Word := place ra.val 10 ||| place rd.val 6 ||| place op 0

/-- Format I, R64: IMM<<16 | RD<<6 | OP. -/
def encodeI (op : Nat) (rd : FReg) (imm : Nat) : Word := place imm 16 ||| place rd.val 6 ||| place op 0

/-- Format P, R65: T<<14 | RA<<10 | RD<<6 | OP. -/
def encodeP (op : Nat) (rd ra : FReg) (t : Nat) : Word :=
  place t 14 ||| place ra.val 10 ||| place rd.val 6 ||| place op 0

/-- Format S, R66: T<<15 | N<<6 | OP. -/
def encodeS (op n t : Nat) : Word := place t 15 ||| place n 6 ||| place op 0

/-- Format C, R67: N<<10 | RD<<6 | OP. -/
def encodeC (op : Nat) (rd : FReg) (n : Nat) : Word := place n 10 ||| place rd.val 6 ||| place op 0

/-- Format L, R68: N<<18 | K<<10 | RD<<6 | OP. -/
def encodeL (op : Nat) (rd : FReg) (k n : Nat) : Word :=
  place n 18 ||| place k 10 ||| place rd.val 6 ||| place op 0

/-- The command word of a command, by its format (R61 to R68) and opcode (R70). -/
def encode : Instr → Word
  | .nop => 0x0000003F
  | .madd rd ra rb => encodeR 0x01 rd ra rb
  | .msub rd ra rb => encodeR 0x02 rd ra rb
  | .mmul rd ra rb => encodeR 0x03 rd ra rb
  | .mneg rd ra => encodeR2 0x04 rd ra
  | .minv rd ra => encodeR2 0x05 rd ra
  | .mexp rd ra rb => encodeR 0x06 rd ra rb
  | .mmov rd ra => encodeR2 0x07 rd ra
  | .mldi rd imm => encodeI 0x08 rd imm
  | .peval rd ra t => encodeP 0x10 rd ra t
  | .split n t => encodeS 0x18 n t
  | .combine rd n => encodeC 0x19 rd n
  | .lbasis rd k n => encodeL 0x1A rd k n

/-- What the decoder reads from a word numbered as spec/opcode_table.json numbers it. A command is one 32-bit word
(R60), and the bus carries it as a number (R45). -/
def decodeTableWord (nbits w : Nat) : Option Instr :=
  match decode (BitVec.ofNat 32 (w % 2 ^ nbits)) with
  | .ok i => some i
  | .error _ => none

/-- The assembler of R76: it refuses an operand that does not fit its field, and nothing else. -/
def assemble (i : Instr) : Option Word :=
  if i.wf then some (encode i) else none

/-- The expansion of a pseudo-instruction, R77. MDIV needs Fd ≠ Fa. -/
def Pseudo.expand : Pseudo → Option (List Instr)
  | .mclr rd => some [.mldi rd 0]
  | .mone rd => some [.mldi rd 1]
  | .msqr rd ra => some [.mmul rd ra ra]
  | .mdiv rd ra rb => if rd = ra then none else some [.minv rd rb, .mmul rd ra rd]

/-- A register operand is written F0 to F15 (R76). -/
def regText (r : FReg) : String := "F" ++ toString r.val

/-- The assembler spelling of a command with decimal operands, R76. -/
def Instr.text : Instr → String
  | .nop => "NOP"
  | .madd rd ra rb => "MADD " ++ regText rd ++ ", " ++ regText ra ++ ", " ++ regText rb
  | .msub rd ra rb => "MSUB " ++ regText rd ++ ", " ++ regText ra ++ ", " ++ regText rb
  | .mmul rd ra rb => "MMUL " ++ regText rd ++ ", " ++ regText ra ++ ", " ++ regText rb
  | .mneg rd ra => "MNEG " ++ regText rd ++ ", " ++ regText ra
  | .minv rd ra => "MINV " ++ regText rd ++ ", " ++ regText ra
  | .mexp rd ra rb => "MEXP " ++ regText rd ++ ", " ++ regText ra ++ ", " ++ regText rb
  | .mmov rd ra => "MMOV " ++ regText rd ++ ", " ++ regText ra
  | .mldi rd imm => "MLDI " ++ regText rd ++ ", " ++ toString imm
  | .peval rd ra t => "PEVAL " ++ regText rd ++ ", " ++ regText ra ++ ", " ++ toString t
  | .split n t => "SPLIT " ++ toString n ++ ", " ++ toString t
  | .combine rd n => "COMBINE " ++ regText rd ++ ", " ++ toString n
  | .lbasis rd k n => "LBASIS " ++ regText rd ++ ", " ++ toString k ++ ", " ++ toString n

end Sys2Proof
end

