-- ==== Sys2Proof/Config.lean ====
section
/-! DEFINITION. What an implementation fixes (the parameters of 00_scope.md R7 to R9) and the one value the spec leaves
free (20_memory.md R47). -/

namespace Sys2Proof

/-- The implementation parameters. They are data of the state, so that every statement is about every choice. -/
structure Params where
  /-- Width in bits of P, F, C and SVAL (R7). -/
  W : Nat
  /-- Number of coefficient slots (R8). -/
  NCOEF : Nat
  /-- Number of share slots (R8). -/
  NSHARE : Nat
  /-- Bus address at which the register window starts (R9). -/
  BASE : Nat
  deriving DecidableEq, Repr

/-- The ranges R7, R8 and R9 give the parameters. -/
abbrev Params.Legal (p : Params) : Prop :=
  p.W % 32 = 0 ∧ 32 ≤ p.W ∧ p.W ≤ 4096 ∧ 1 ≤ p.NCOEF ∧ p.NCOEF ≤ 64 ∧ 1 ≤ p.NSHARE ∧ p.NSHARE ≤ 256 ∧
    p.BASE % 0x40000 = 0

/-- The parameters of `State.reset`: the conventions of 95_test_vectors.md. DESIGN CHOICE (log 1): the spec leaves
all four open; no statement rests on them. -/
def Params.standard : Params := ⟨32, 64, 256, 0⟩

/-- The unspecified 32-bit value a data-region read returns while BUSY = 1 (R47), one for each draw. It has no body:
nothing can be proved about its value. (log 4) -/
opaque Config.freeWord : Nat → Word

end Sys2Proof
end

