-- ==== Sys2Proof/Machine/State.lean ====
section
/-! DEFINITION. The state of the block (10_state.md R16) with the agents' pending moves, the machine after reset (R35),
the error classes of a command (60_exceptions.md R105 to R108) and the reasons a step can stop. -/

namespace Sys2Proof.Machine

/-- The fields of CTRL (R19). Bits [30:2] read 0 and SRST is write-only and reads 0, so they have no storage.
(log 8) -/
structure Ctrl where
  /-- Bit 0: interrupt enable. -/
  ie : Bool
  /-- Bit 1: a successful SPLIT clears C[1..T-1]. -/
  zeroize : Bool
  deriving DecidableEq, Repr

/-- The fields of STATUS (R21). Bits [7:4] and [31:12] are never set, so they have no storage. (log 8) -/
structure Status where
  /-- Bit 0 -/
  busy : Bool
  /-- Bit 1 -/
  done : Bool
  /-- Bit 2 -/
  err : Bool
  /-- Bit 3: the sticky flag of R22. -/
  werr : Bool
  /-- Bits [11:8] (R23). -/
  errcode : BitVec 4
  deriving DecidableEq, Repr

/-- The fields of ERRINFO (R25). Bits [31:16] read 0, so they have no storage. (log 8) -/
structure ErrInfo where
  /-- Bits [7:0] -/
  reason : BitVec 8
  /-- Bits [15:8] -/
  which : BitVec 8
  deriving DecidableEq, Repr

/-- The architectural state of the block, exactly R16. ID and IRQ need no storage (R17, R34); PARAM is computed from
the parameters (R18). -/
structure Block where
  /-- The implementation parameters (R7 to R9), which PARAM shows (R18). No step changes them. -/
  params : Params
  /-- R19 -/
  ctrl : Ctrl
  /-- R21 -/
  status : Status
  /-- R24: the last accepted command word; the command in flight while BUSY = 1 (R30). -/
  cmd : Word
  /-- R25 -/
  errinfo : ErrInfo
  /-- The modulus register (R26). -/
  P : Nat
  /-- The field registers (R27). -/
  F : Vector Nat 16
  /-- The coefficient slots, NCOEF of them (R28). -/
  C : List Nat
  /-- The share indices, NSHARE of them (R29). -/
  SIDX : List Word
  /-- The share values, NSHARE of them (R29). -/
  SVAL : List Nat
  /-- CTRL.ZEROIZE as sampled at the issue of the command in flight (R30). -/
  zlatch : Bool
  deriving DecidableEq, Repr

/-- Read or write (R36); a write carries wdata. -/
inductive AccessKind where
  | read
  | write (wdata : Word)
  deriving DecidableEq, Repr

/-- A host bus access (R36). `addr` is the bus address; its offset in the window is addr - BASE. (log 7) -/
structure Access where
  addr : Nat
  kind : AccessKind
  byteEnables : BitVec 4
  deriving DecidableEq, Repr

/-- One move of one agent. A list of events is one interleaving of R53. (log 3) -/
inductive Event where
  /-- The host performs a bus access (R36). -/
  | access (a : Access)
  /-- The engine takes its turn: it completes the command in flight, if there is one (R50, R52). -/
  | engine
  /-- RST_N goes low (R127). -/
  | assertReset
  /-- RST_N goes high (R127). -/
  | releaseReset
  deriving DecidableEq, Repr

/-- The state of the model: the block, and the model's own four fields, which are no state of the block. -/
structure State extends Block where
  /-- RST_N is low (R127). (log 6) -/
  rstAsserted : Bool
  /-- The coming moves of the host, the engine and RST_N, the next one first (R53). (log 3) -/
  events : List Event
  /-- The rdata the host's last bus access returned (R36), none if it was a write or went outside the window.
  (log 5) -/
  rdata : Option Word
  /-- How many free values have been drawn (R47). (log 4) -/
  draws : Nat
  deriving DecidableEq, Repr

/-- The sub-checks of COUNT_RANGE, in the order of their WHICH values 1 to 7 (R106). -/
inductive CountRange where
  | tBelowOne
  | nBelowOne
  | tAboveN
  | tAboveNcoef
  | nAboveNshare
  | kNotBelowN
  | nNotBelowP
  deriving DecidableEq, Repr

/-- The errors a command can end with (R105 to R108). None of them stops the machine (R109). -/
inductive CmdError where
  /-- P < 2 -/
  | modulusTooSmall
  /-- F[r] ≥ P for a source register read as a field element -/
  | operandRange (r : FReg)
  /-- a count or slot number out of its range -/
  | countRange (c : CountRange)
  /-- C[j] ≥ P -/
  | coefRange (j : Nat)
  /-- SVAL[k] ≥ P -/
  | shareRange (k : Nat)
  /-- MINV: gcd(F[r], P) ≠ 1 -/
  | invNonunit (r : FReg)
  /-- COMBINE, LBASIS: den(k) is not a unit -/
  | denNonunit (k : Nat)
  /-- OP is not in the opcode map -/
  | badOpcode (op : BitVec 6)
  /-- a reserved bit of the format is 1 -/
  | reservedBits (op : BitVec 6)
  deriving DecidableEq, Repr

/-- The faults that stop the machine: the spec names none. Every error leaves the block idle and ready for the next
command, and no bus access ends in an error response (R36, R109). No step raises a fault. -/
inductive Fault
  deriving DecidableEq, Repr

/-- The reasons a step has no meaning. -/
inductive Refusal where
  /-- Raised by an arm of `exec` whose command has no meaning yet; no arm raises it in this model. Safe. -/
  | notModelled (mnemonic : String)
  /-- Raised by the step of a host access into the window while RST_N is asserted: the host has no move then
  (R127; 93_implementation_defined.md item 7: 'refuse'). Safe. (log 6) -/
  | accessDuringReset
  deriving DecidableEq, Repr

/-- The block after a reset (R35), for given parameters. -/
def Block.reset (p : Params) : Block where
  params := p
  ctrl := ⟨false, true⟩
  status := ⟨false, false, false, false, 0⟩
  cmd := 0
  errinfo := ⟨0, 0⟩
  P := 0
  F := Vector.replicate 16 0
  C := List.replicate p.NCOEF 0
  SIDX := List.replicate p.NSHARE 0
  SVAL := List.replicate p.NSHARE 0
  zlatch := false

/-- The machine right after reset, for given parameters: RST_N just released, no move pending. -/
def State.resetWith (p : Params) : State where
  toBlock := Block.reset p
  rstAsserted := false
  events := []
  rdata := none
  draws := 0

/-- The machine right after reset (R35), with the parameters of 95_test_vectors.md. (log 1) -/
def State.reset : State := State.resetWith Params.standard

end Sys2Proof.Machine
end

