-- ==== Sys2Proof/Machine/Arith.lean ====
section
/-! DEFINITION. The integer arithmetic of the engine: residues (R12), greatest common divisor and inverse (R14), powers
(R86), sums and products over a list. All of it is exact; nothing here knows W. -/

namespace Sys2Proof.Machine

/-- `a mod m` of R12: the non-negative residue, also of a negative a. -/
def modInt (a : Int) (m : Nat) : Nat := (a % (m : Int)).toNat

/-- The sum of `f` over a list. -/
def sumOver (xs : List Nat) (f : Nat → Nat) : Nat := (xs.map f).foldr (· + ·) 0

/-- The product of `f` over a list; an empty product is 1 (R99). -/
def prodOver (xs : List Nat) (f : Nat → Nat) : Nat := (xs.map f).foldr (· * ·) 1

/-- Square and multiply: `acc * b ^ e` modulo m, for a fuel of at least e. -/
def modPowAux : Nat → Nat → Nat → Nat → Nat → Nat
  | 0, _, _, _, acc => acc
  | fuel + 1, b, e, m, acc =>
    if e = 0 then acc
    else modPowAux fuel (b * b % m) (e / 2) m (if e % 2 = 1 then acc * b % m else acc)

/-- `(b ^ e) mod m` (R86). Laws/Arith.lean proves it equal to that. (log 10) -/
def modPow (b e m : Nat) : Nat := modPowAux e (b % m) e m (1 % m)

/-- isUnit(a) of R14, for the modulus m: gcd(a mod m, m) = 1. -/
def isUnit (a m : Nat) : Bool := Nat.gcd (a % m) m == 1

/-- The remainders r0, r1 of Euclid's algorithm on m and a, with t0 * a ≡ r0 and t1 * a ≡ r1 modulo m; a fuel of at
least r1 reaches the last one. -/
def modInvAux : Nat → Nat → Nat → Nat → Nat → Nat → Nat
  | 0, _, _, _, t0, _ => t0
  | fuel + 1, m, r0, r1, t0, t1 =>
    if r1 = 0 then t0
    else modInvAux fuel m r1 (r0 % r1) t1 ((t0 + (m - r0 / r1 * t1 % m)) % m)

/-- inv(a) of R14, by the extended Euclidean algorithm (D13): for a unit a, the unique y < m with (a * y) mod m = 1.
Laws/Arith.lean proves it so. (log 10) -/
def modInv (a m : Nat) : Nat := modInvAux (a % m) m m (a % m) 0 (1 % m)

end Sys2Proof.Machine
end

