-- ==== Sys2Proof/Machine/Flags.lean ====
section
/-! DEFINITION. The control registers as words (R17 to R25), the flags of STATUS and what sets and clears them (R21, R22,
R49, R52), the error codes (R105 to R108) and the interrupt output (R34). -/

namespace Sys2Proof.Machine

/-- ID, R17. -/
def idWord : Word := 0x47465045

/-- PARAM, R18: REV = 1, three zero bits, NSHARE, NCOEF, W / 32. -/
def paramWord (p : Params) : Word :=
  1#4 ++ 0#3 ++ BitVec.ofNat 9 p.NSHARE ++ BitVec.ofNat 8 p.NCOEF ++ BitVec.ofNat 8 (p.W / 32)

/-- CTRL as it reads, R19. -/
def ctrlWord (c : Ctrl) : Word := 0#30 ++ BitVec.ofBool c.zeroize ++ BitVec.ofBool c.ie

/-- STATUS as it reads, R21. -/
def statusWord (st : Status) : Word :=
  0#20 ++ st.errcode ++ 0#4 ++ BitVec.ofBool st.werr ++ BitVec.ofBool st.err ++ BitVec.ofBool st.done ++
    BitVec.ofBool st.busy

/-- ERRINFO as it reads, R25. -/
def errinfoWord (e : ErrInfo) : Word := 0#16 ++ e.which ++ e.reason

/-- Bits [1:0] of a word written to CTRL, R19. -/
def ctrlOfWord (w : Word) : Ctrl := ⟨w.getLsbD 0, w.getLsbD 1⟩

/-- IRQ = CTRL.IE ∧ (STATUS.DONE ∨ STATUS.ERR), R34. -/
def irq (s : State) : Bool := s.ctrl.ie && (s.status.done || s.status.err)

/-- An access-protocol violation sets WERR, R22. -/
def setWerr (s : State) : State := { s with status := { s.status with werr := true } }

/-- A write to STATUS clears each W1C bit written as 1 and nothing else, R21. It is how the host acknowledges a
completion; nothing is restored, because nothing was saved (R112). -/
def ackStatus (s : State) (w : Word) : State :=
  { s with status :=
    { s.status with
      done := s.status.done && !w.getLsbD 1
      err := s.status.err && !w.getLsbD 2
      werr := s.status.werr && !w.getLsbD 3 } }

/-- The WHICH value of a COUNT_RANGE sub-check, R106. -/
def countWhich : CountRange → BitVec 8
  | .tBelowOne => 1
  | .nBelowOne => 2
  | .tAboveN => 3
  | .tAboveNcoef => 4
  | .nAboveNshare => 5
  | .kNotBelowN => 6
  | .nNotBelowP => 7

/-- code(E), R105. -/
def errCode : CmdError → BitVec 4
  | .modulusTooSmall => 1
  | .operandRange _ => 1
  | .countRange _ => 1
  | .coefRange _ => 1
  | .shareRange _ => 1
  | .invNonunit _ => 2
  | .denNonunit _ => 2
  | .badOpcode _ => 3
  | .reservedBits _ => 3

/-- REASON, R106 to R108. -/
def errReason : CmdError → BitVec 8
  | .modulusTooSmall => 0x01
  | .operandRange _ => 0x02
  | .countRange _ => 0x03
  | .coefRange _ => 0x04
  | .shareRange _ => 0x05
  | .invNonunit _ => 0x10
  | .denNonunit _ => 0x11
  | .badOpcode _ => 0x20
  | .reservedBits _ => 0x21

/-- WHICH, R106 to R108: which[7:0] of R52. (log 9) -/
def errWhich : CmdError → BitVec 8
  | .modulusTooSmall => 0
  | .operandRange r => BitVec.ofNat 8 r.val
  | .countRange c => countWhich c
  | .coefRange j => BitVec.ofNat 8 j
  | .shareRange k => BitVec.ofNat 8 k
  | .invNonunit r => BitVec.ofNat 8 r.val
  | .denNonunit k => BitVec.ofNat 8 k
  | .badOpcode op => BitVec.ofNat 8 op.toNat
  | .reservedBits op => BitVec.ofNat 8 op.toNat

end Sys2Proof.Machine
end

