-- ==== Sys2Proof/Machine/Ops.lean ====
section
/-! DEFINITION. The named operations over the state: reading and writing a register, taking words out of a W-bit value and
putting them in (R39), issue (R49), commit with and without an error (R52, R110), reset (R128). -/

namespace Sys2Proof.Machine

/-- F[r]. No field register is hardwired (R27). -/
def readF (s : State) (r : FReg) : Nat := s.F[r.val]

/-- F[r] <- v. -/
def writeF (s : State) (r : FReg) (v : Nat) : State := { s with F := s.F.set r.val v r.isLt }

/-- C[j]; a slot that does not exist reads 0, which no command that passes its checks does. (log 12) -/
def readC (s : State) (j : Nat) : Nat := s.C.getD j 0

/-- SIDX[k]. (log 12) -/
def readSIDX (s : State) (k : Nat) : Word := s.SIDX.getD k 0

/-- SVAL[k]. (log 12) -/
def readSVAL (s : State) (k : Nat) : Nat := s.SVAL.getD k 0

/-- The list whose head stands at position k, with the positions lo ≤ j < hi holding `f j`. -/
def fillFrom {α : Type} (k lo hi : Nat) (f : Nat → α) : List α → List α
  | [] => []
  | x :: xs => (if lo ≤ k ∧ k < hi then f k else x) :: fillFrom (k + 1) lo hi f xs

/-- The list with the positions lo ≤ j < hi holding `f j`. -/
def fill {α : Type} (lo hi : Nat) (f : Nat → α) (xs : List α) : List α := fillFrom 0 lo hi f xs

/-- The word at bits [32·i+31 : 32·i] of an element, R39. -/
def elemWord (v : Nat) (i : Nat) : Word := BitVec.ofNat 32 (v >>> (32 * i))

/-- The element with exactly those 32 bits replaced, R39. -/
def setElemWord (v : Nat) (i : Nat) (w : Word) : Nat :=
  (v >>> (32 * (i + 1))) <<< (32 * (i + 1)) + w.toNat <<< (32 * i) + v % 2 ^ (32 * i)

/-- Commit with no error, R52: DONE and the end of BUSY. The command's writes are in `s` already. -/
def commitOk (s : State) : State := { s with status := { s.status with done := true, busy := false } }

/-- TAKING AN ERROR, R52 and R110: the commit of a command whose check failed. ERRCODE, ERRINFO and ERR record it and
BUSY ends; nothing else is saved, and there is no vector, mode or mask to change. -/
def commitError (s : State) (e : CmdError) : State :=
  { s with
    status := { s.status with errcode := errCode e, err := true, busy := false }
    errinfo := ⟨errReason e, errWhich e⟩ }

/-- The error of the first check that fails (R113), none if all pass. A check is the error it raises, if it does. -/
def firstError : List (Option CmdError) → Option CmdError
  | [] => none
  | some e :: _ => some e
  | none :: cs => firstError cs

/-- Execute and commit (R50, R52): the first failing check is committed as an error and leaves the data registers of
`s`; if none fails, `t` (the state `s` with the command's writes) is committed. -/
def complete (s : State) (checks : List (Option CmdError)) (t : State) : Host.Outcome State Fault Refusal :=
  match firstError checks with
  | some e => .next (commitError s e)
  | none => .next (commitOk t)

/-- Issue of a command word, R49. It does not decode the word, and leaves WERR. -/
def issue (s : State) (v : Word) : State :=
  { s with
    cmd := v
    zlatch := s.ctrl.zeroize
    status := { s.status with done := false, err := false, errcode := 0, busy := true }
    errinfo := ⟨0, 0⟩ }

/-- Reset of the block, R35 and R128: hardware and soft reset have this same effect (R125). A command in flight is
dropped with BUSY (R129). The model's own fields stay. (log 11) -/
def resetBlock (s : State) : State := { s with toBlock := Block.reset s.params }

/-- RST_N goes low: the block takes its reset state and is held in it (R127). -/
def holdReset (s : State) : State := { resetBlock s with rstAsserted := true }

/-- RST_N goes high: the block leaves reset in the state it was held in (R127). -/
def releaseReset (s : State) : State := { s with rstAsserted := false }

end Sys2Proof.Machine
end

