-- ==== Sys2Proof/Machine/Operands.lean ====
section
/-! DEFINITION. The checks the command rules share: CheckModulus and CheckReduced (R79), the coefficient check (R92),
CheckShares (R97) and the count checks (R106). A check answers the error it raises, or none. -/

namespace Sys2Proof.Machine

/-- CheckModulus, R79. -/
def checkModulus (s : State) : Option CmdError :=
  if s.P < 2 then some .modulusTooSmall else none

/-- CheckReduced(r), R79. -/
def checkReduced (s : State) (r : FReg) : Option CmdError :=
  if s.P ≤ readF s r then some (.operandRange r) else none

/-- One COUNT_RANGE sub-check: it fails when `bad` holds, R106. -/
def checkCount (bad : Bool) (c : CountRange) : Option CmdError :=
  if bad then some (.countRange c) else none

/-- The coefficients C[0..t-1] are reduced; the lowest that is not is reported, R92 and R113. -/
def checkCoefs (s : State) (t : Nat) : Option CmdError :=
  (List.range t).findSome? fun j => if s.P ≤ readC s j then some (.coefRange j) else none

/-- CheckShares(n), R97; the lowest slot that fails is reported. -/
def checkShares (s : State) (n : Nat) : Option CmdError :=
  (List.range n).findSome? fun k => if s.P ≤ readSVAL s k then some (.shareRange k) else none

/-- The unit check of MINV, R85. -/
def checkUnit (s : State) (r : FReg) : Option CmdError :=
  if isUnit (readF s r) s.P then none else some (.invNonunit r)

end Sys2Proof.Machine
end

