-- ==== Sys2Proof/Machine/FieldArith.lean ====
section
/-! DEFINITION. The commands of the modular arithmetic engine, 40_field_arith.md R80 to R88. Each lists its checks in the
order of its pseudocode and then the one write it commits; sources are read from `s`, before the write (R90). -/

namespace Sys2Proof.Machine

/-- The checks of the three-register commands, R81. -/
def checksTwoSources (s : State) (ra rb : FReg) : List (Option CmdError) :=
  [checkModulus s, checkReduced s ra, checkReduced s rb]

/-- NOP, R80: no check, no write. -/
def execNop (s : State) : Host.Outcome State Fault Refusal := complete s [] s

/-- MADD, R81. -/
def execMadd (rd ra rb : FReg) (s : State) : Host.Outcome State Fault Refusal :=
  complete s (checksTwoSources s ra rb) (writeF s rd ((readF s ra + readF s rb) % s.P))

/-- MSUB, R82: the non-negative residue of the integer difference. -/
def execMsub (rd ra rb : FReg) (s : State) : Host.Outcome State Fault Refusal :=
  complete s (checksTwoSources s ra rb) (writeF s rd (modInt ((readF s ra : Int) - (readF s rb : Int)) s.P))

/-- MMUL, R83: the exact product, then reduced. -/
def execMmul (rd ra rb : FReg) (s : State) : Host.Outcome State Fault Refusal :=
  complete s (checksTwoSources s ra rb) (writeF s rd (readF s ra * readF s rb % s.P))

/-- MNEG, R84: 0 gives 0, never P. -/
def execMneg (rd ra : FReg) (s : State) : Host.Outcome State Fault Refusal :=
  complete s [checkModulus s, checkReduced s ra] (writeF s rd (modInt (0 - (readF s ra : Int)) s.P))

/-- MINV, R85. -/
def execMinv (rd ra : FReg) (s : State) : Host.Outcome State Fault Refusal :=
  complete s [checkModulus s, checkReduced s ra, checkUnit s ra] (writeF s rd (modInv (readF s ra) s.P))

/-- MEXP, R86: the exponent is the integer F[RB]; 0^0 = 1. -/
def execMexp (rd ra rb : FReg) (s : State) : Host.Outcome State Fault Refusal :=
  complete s (checksTwoSources s ra rb) (writeF s rd (modPow (readF s ra) (readF s rb) s.P))

/-- MMOV, R87: a raw copy with no check. -/
def execMmov (rd ra : FReg) (s : State) : Host.Outcome State Fault Refusal :=
  complete s [] (writeF s rd (readF s ra))

/-- MLDI, R88: an immediate at or above P is reduced, not refused. -/
def execMldi (rd : FReg) (imm : Nat) (s : State) : Host.Outcome State Fault Refusal :=
  complete s [checkModulus s] (writeF s rd (imm % s.P))

end Sys2Proof.Machine
end

