-- ==== Sys2Proof/Machine/Interp.lean ====
section
/-! DEFINITION. The commands of the Lagrange-basis interpolator, 42_interpolation.md R97 to R101. -/

namespace Sys2Proof.Machine

/-- Slot k duplicates an earlier slot exactly: same raw index and same value, R98. -/
def isDuplicate (s : State) (k : Nat) : Bool :=
  (List.range k).any fun j => readSIDX s j == readSIDX s k && readSVAL s j == readSVAL s k

/-- The effective share set E(n) in ascending order, R98. -/
def effective (s : State) (n : Nat) : List Nat := (List.range n).filter fun k => !isDuplicate s k

/-- The abscissa x(k) of share slot k, R15. -/
def abscissa (s : State) (k : Nat) : Nat := ((readSIDX s k).toNat + 1) % s.P

/-- The slots of E(n) other than k. -/
def others (s : State) (n k : Nat) : List Nat := (effective s n).filter fun j => j != k

/-- num(k) of R99. -/
def lagrangeNum (s : State) (n k : Nat) : Nat :=
  (prodOver (others s n k) fun j => modInt (0 - (abscissa s j : Int)) s.P) % s.P

/-- den(k) of R99. -/
def lagrangeDen (s : State) (n k : Nat) : Nat :=
  (prodOver (others s n k) fun j =>
    modInt (((readSIDX s k).toNat : Int) - ((readSIDX s j).toNat : Int)) s.P) % s.P

/-- lambda(k) of R99. -/
def lagrange (s : State) (n k : Nat) : Nat := lagrangeNum s n k * modInv (lagrangeDen s n k) s.P % s.P

/-- den(k) is a unit, R100 and R101. -/
def checkDen (s : State) (n k : Nat) : Option CmdError :=
  if isUnit (lagrangeDen s n k) s.P then none else some (.denNonunit k)

/-- den(k) is a unit for every k of E(n); the lowest slot that fails is reported, R100. -/
def checkDens (s : State) (n : Nat) : Option CmdError := (effective s n).findSome? (checkDen s n)

/-- The accumulated sum of COMBINE, R100. -/
def combineSum (s : State) (n : Nat) : Nat :=
  (effective s n).foldl (fun acc k => (acc + readSVAL s k * lagrange s n k) % s.P) 0

/-- COMBINE, R100. -/
def execCombine (rd : FReg) (n : Nat) (s : State) : Host.Outcome State Fault Refusal :=
  complete s
    [checkModulus s, checkCount (s.params.NSHARE < n) .nAboveNshare, checkShares s n, checkDens s n]
    (writeF s rd (combineSum s n))

/-- The value and the last check of LBASIS: a dropped duplicate contributes 0 and is not tested, R101. -/
def lbasisValue (s : State) (n k : Nat) : Nat := if isDuplicate s k then 0 else lagrange s n k

/-- LBASIS, R101. Only den(K) is tested. -/
def execLbasis (rd : FReg) (k n : Nat) (s : State) : Host.Outcome State Fault Refusal :=
  complete s
    [checkModulus s, checkCount (n < 1) .nBelowOne, checkCount (s.params.NSHARE < n) .nAboveNshare,
      checkCount (n ≤ k) .kNotBelowN, checkShares s n, if isDuplicate s k then none else checkDen s n k]
    (writeF s rd (lbasisValue s n k))

end Sys2Proof.Machine
end

