-- ==== Sys2Proof/Machine/Poly.lean ====
section
/-! DEFINITION. The commands of the polynomial evaluator, 41_poly_eval.md R91 to R96. -/

namespace Sys2Proof.Machine

/-- polyval(t, x) of R91: the constant term C[0], then C[j] * x^j for j = 1 .. t-1, summed exactly and reduced. -/
def polyval (s : State) (t x : Nat) : Nat :=
  (readC s 0 + sumOver (List.range (t - 1)) fun i => readC s (i + 1) * x ^ (i + 1)) % s.P

/-- PEVAL, R92. -/
def execPeval (rd ra : FReg) (t : Nat) (s : State) : Host.Outcome State Fault Refusal :=
  complete s
    [checkModulus s, checkCount (t < 1) .tBelowOne, checkCount (s.params.NCOEF < t) .tAboveNcoef,
      checkReduced s ra, checkCoefs s t]
    (writeF s rd (polyval s t (readF s ra)))

/-- The shares SPLIT writes: SIDX[k] <- k and SVAL[k] <- polyval(T, k + 1) for k < N, R93 and R95. -/
def writeShares (s : State) (n t : Nat) : State :=
  { s with
    SIDX := fill 0 n (fun k => BitVec.ofNat 32 k) s.SIDX
    SVAL := fill 0 n (fun k => polyval s t (k + 1)) s.SVAL }

/-- C[j] <- 0 for 1 ≤ j ≤ T - 1 if ZLATCH = 1, R94. -/
def zeroizeCoefs (s : State) (t : Nat) : State :=
  if s.zlatch then { s with C := fill 1 t (fun _ => 0) s.C } else s

/-- SPLIT, R93. -/
def execSplit (n t : Nat) (s : State) : Host.Outcome State Fault Refusal :=
  complete s
    [checkModulus s, checkCount (t < 1) .tBelowOne, checkCount (n < 1) .nBelowOne, checkCount (n < t) .tAboveN,
      checkCount (s.params.NCOEF < t) .tAboveNcoef, checkCount (s.params.NSHARE < n) .nAboveNshare,
      checkCount (s.P ≤ n) .nNotBelowP, checkCoefs s t]
    (zeroizeCoefs (writeShares s n t) t)

end Sys2Proof.Machine
end

