-- ==== Sys2Proof/Machine/Dispatch.lean ====
section
/-! DEFINITION. The meaning of each command: what the engine's one step does with it (20_memory.md R50, R52). -/

namespace Sys2Proof.Machine

/-- One arm per command. -/
def exec (i : Instr) (s : State) : Host.Outcome State Fault Refusal :=
  match i with
  | .nop => Sys2Proof.Machine.execNop s
  | .madd rd ra rb => Sys2Proof.Machine.execMadd rd ra rb s
  | .msub rd ra rb => Sys2Proof.Machine.execMsub rd ra rb s
  | .mmul rd ra rb => Sys2Proof.Machine.execMmul rd ra rb s
  | .mneg rd ra => Sys2Proof.Machine.execMneg rd ra s
  | .minv rd ra => Sys2Proof.Machine.execMinv rd ra s
  | .mexp rd ra rb => Sys2Proof.Machine.execMexp rd ra rb s
  | .mmov rd ra => Sys2Proof.Machine.execMmov rd ra s
  | .mldi rd imm => Sys2Proof.Machine.execMldi rd imm s
  | .peval rd ra t => Sys2Proof.Machine.execPeval rd ra t s
  | .split n t => Sys2Proof.Machine.execSplit n t s
  | .combine rd n => Sys2Proof.Machine.execCombine rd n s
  | .lbasis rd k n => Sys2Proof.Machine.execLbasis rd k n s

end Sys2Proof.Machine
end

