-- ==== Sys2Proof/Machine/Engine.lean ====
section
/-! DEFINITION. The engine's turn: decode the command in flight and run it, or commit ILLEGAL_COMMAND (R50, R75). -/

namespace Sys2Proof.Machine

/-- ILLEGAL_COMMAND of a word that does not decode, R75 and R108. -/
def illegalCommand : DecodeError → CmdError
  | .badOpcode op => .badOpcode op
  | .reservedBits op => .reservedBits op

/-- The engine's one step, R50. While BUSY = 0 it has none, and nothing changes. -/
def engineTurn (s : State) : Host.Outcome State Fault Refusal :=
  if s.status.busy then
    match decode s.cmd with
    | .ok i => exec i s
    | .error e => .next (commitError s (illegalCommand e))
  else .next s

/-- The state with the command word `v` issued (R49), RST_N released and the engine's turn next: what a host's write to
CMD leaves, with the engine's commit before any later host access. (log 14) -/
def placeCommand (s : State) (v : Word) : State :=
  { issue s v with rstAsserted := false, events := .engine :: s.events }

end Sys2Proof.Machine
end

