-- ==== Sys2Proof/Machine/Window.lean ====
section
/-! DEFINITION. The register window: its map (20_memory.md R38 to R40) and what a host bus access does (R41 to R49). -/

namespace Sys2Proof.Machine

/-- The registers below offset 0x18, R38. -/
inductive CtlReg where
  | id | param | ctrl | status | cmd | errinfo
  deriving DecidableEq, Repr

/-- The registers of the data region, R38. -/
inductive DataReg where
  | modulus
  | field (r : FReg)
  | coef (j : Nat)
  | shareIndex (k : Nat)
  | shareValue (k : Nat)
  deriving DecidableEq, Repr

/-- What a word offset of the window names: a control register, word `i` of a data register, or nothing. -/
inductive Target where
  | ctl (r : CtlReg)
  | data (r : DataReg) (i : Nat)
  | reserved
  deriving DecidableEq, Repr

/-- The word of an element slot at an offset within the array of slots; words i ≥ W/32 are reserved, R39 and R40. -/
def slotTarget (p : Params) (r : DataReg) (off : Nat) : Target :=
  if off % 0x200 / 4 < p.W / 32 then .data r (off % 0x200 / 4) else .reserved

/-- The map of R38 below offset 0x01000, on word-aligned offsets. -/
def ctlMap (off : Nat) : Target :=
  if off = 0x00000 then .ctl .id
  else if off = 0x00004 then .ctl .param
  else if off = 0x00008 then .ctl .ctrl
  else if off = 0x0000C then .ctl .status
  else if off = 0x00010 then .ctl .cmd
  else if off = 0x00014 then .ctl .errinfo
  else .reserved

/-- The array of coefficient slots, R38 and R40. -/
def coefMap (p : Params) (off : Nat) : Target :=
  if off / 0x200 < p.NCOEF then slotTarget p (.coef (off / 0x200)) off else .reserved

/-- The array of share indices, R38 and R40. -/
def indexMap (p : Params) (off : Nat) : Target :=
  if off / 4 < p.NSHARE then .data (.shareIndex (off / 4)) 0 else .reserved

/-- The array of share value slots, R38 and R40. -/
def shareMap (p : Params) (off : Nat) : Target :=
  if off / 0x200 < p.NSHARE then slotTarget p (.shareValue (off / 0x200)) off else .reserved

/-- The map of R38 on word-aligned offsets. -/
def windowMap (p : Params) (off : Nat) : Target :=
  if off < 0x01000 then ctlMap off
  else if off < 0x01200 then slotTarget p .modulus (off - 0x01000)
  else if off < 0x02000 then .reserved
  else if off < 0x04000 then slotTarget p (.field (Fin.ofNat 16 ((off - 0x02000) / 0x200))) (off - 0x02000)
  else if off < 0x0C000 then coefMap p (off - 0x04000)
  else if off < 0x0C400 then indexMap p (off - 0x0C000)
  else if off < 0x10000 then .reserved
  else if off < 0x30000 then shareMap p (off - 0x10000)
  else .reserved

/-- The offset at which a data register starts, R38. -/
def regOffset : DataReg → Nat
  | .modulus => 0x01000
  | .field r => 0x02000 + 0x200 * r.val
  | .coef j => 0x04000 + 0x200 * j
  | .shareIndex k => 0x0C000 + 4 * k
  | .shareValue k => 0x10000 + 0x200 * k

/-- The value a control register reads as, R17 to R25. -/
def ctlWord (s : State) : CtlReg → Word
  | .id => idWord
  | .param => paramWord s.params
  | .ctrl => ctrlWord s.ctrl
  | .status => statusWord s.status
  | .cmd => s.cmd
  | .errinfo => errinfoWord s.errinfo

/-- Word i of a data register, R39 and R46. -/
def dataWord (s : State) (r : DataReg) (i : Nat) : Word :=
  match r with
  | .modulus => elemWord s.P i
  | .field r => elemWord (readF s r) i
  | .coef j => elemWord (readC s j) i
  | .shareIndex k => readSIDX s k
  | .shareValue k => elemWord (readSVAL s k) i

/-- Word i of a data register replaced, R39 and R46. The value is not checked against P. -/
def setDataWord (s : State) (r : DataReg) (i : Nat) (w : Word) : State :=
  match r with
  | .modulus => { s with P := setElemWord s.P i w }
  | .field r => writeF s r (setElemWord (readF s r) i w)
  | .coef j => { s with C := s.C.set j (setElemWord (readC s j) i w) }
  | .shareIndex k => { s with SIDX := s.SIDX.set k w }
  | .shareValue k => { s with SVAL := s.SVAL.set k (setElemWord (readSVAL s k) i w) }

/-- A read returns `w`. -/
def answer (s : State) (w : Word) : State := { s with rdata := some w }

/-- A data-region read while BUSY = 1 returns an unspecified word, drawn afresh (R47; 93 item 4). -/
def answerFree (s : State) : State :=
  { s with rdata := some (Config.freeWord s.draws), draws := s.draws + 1 }

/-- A well-formed read, R43, R46 to R48. -/
def readAccess (s : State) (off : Nat) : State :=
  match windowMap s.params off with
  | .ctl r => answer s (ctlWord s r)
  | .data r i => if s.status.busy then setWerr (answerFree s) else answer s (dataWord s r i)
  | .reserved => setWerr (answer s 0)

/-- A write to CTRL, R19 and R20: bit 31 is a soft reset, and then the other bits are discarded. -/
def writeCtrl (s : State) (w : Word) : State :=
  if w.getLsbD 31 then resetBlock s else { s with ctrl := ctrlOfWord w }

/-- A write to CMD, R24: it issues the word while BUSY = 0 (R49) and is ignored while BUSY = 1 (R48). -/
def writeCmd (s : State) (w : Word) : State := if s.status.busy then setWerr s else issue s w

/-- A well-formed write to a control register, R44. -/
def writeCtl (s : State) (r : CtlReg) (w : Word) : State :=
  match r with
  | .id => setWerr s
  | .param => setWerr s
  | .ctrl => writeCtrl s w
  | .status => ackStatus s w
  | .cmd => writeCmd s w
  | .errinfo => setWerr s

/-- A well-formed write, R43, R44, R46 to R49. -/
def writeAccess (s : State) (off : Nat) (w : Word) : State :=
  match windowMap s.params off with
  | .ctl r => writeCtl s r w
  | .data r i => if s.status.busy then setWerr s else setDataWord s r i w
  | .reserved => setWerr s

/-- The access reaches the block: its address is in the window, R37. -/
def inWindow (p : Params) (a : Access) : Bool := p.BASE ≤ a.addr && a.addr < p.BASE + 0x40000

/-- The byte offset addr - BASE, R36. -/
def accessOffset (p : Params) (a : Access) : Nat := a.addr - p.BASE

/-- The access is well-formed: aligned and with all byte enables, R41. -/
def wellFormedAccess (p : Params) (a : Access) : Bool := accessOffset p a % 4 == 0 && a.byteEnables == 0xF

/-- An access into the window, R36 to R49. A write returns no data. -/
def performAccess (s : State) (a : Access) : State :=
  match a.kind with
  | .read =>
    if wellFormedAccess s.params a then readAccess s (accessOffset s.params a) else setWerr (answer s 0)
  | .write w =>
    if wellFormedAccess s.params a then writeAccess { s with rdata := none } (accessOffset s.params a) w
    else setWerr { s with rdata := none }

/-- The host's move. An access outside the window does not reach the block (R37); an access into it while RST_N is
asserted is refused (R127). -/
def hostAccess (s : State) (a : Access) : Host.Outcome State Fault Refusal :=
  if inWindow s.params a then
    if s.rstAsserted then .refused .accessDuringReset else .next (performAccess s a)
  else .next { s with rdata := none }

end Sys2Proof.Machine
end

