-- ==== Sys2Proof/Machine/Step.lean ====
section
/-! DEFINITION. One step of the machine: the next move of the interleaving (20_memory.md R53). -/

namespace Sys2Proof.Machine

/-- The first pending event happens. With none pending the host is silent, and the engine takes its turn: a command in
flight is not pending forever (R59). (log 3) -/
def step (s : State) : Host.Outcome State Fault Refusal :=
  match s.events with
  | [] => engineTurn s
  | .access a :: rest => hostAccess { s with events := rest } a
  | .engine :: rest => engineTurn { s with events := rest }
  | .assertReset :: rest => .next (holdReset { s with events := rest })
  | .releaseReset :: rest => .next (releaseReset { s with events := rest })

/-- The state whose very next step runs the command word: the block fetches nothing, so the word is put where a host's
CMD write puts it (R24, R49). (log 14) -/
def State.withFetchWord (s : State) (nbits w : Nat) : State := placeCommand s (BitVec.ofNat 32 (w % 2 ^ nbits))

end Sys2Proof.Machine
end

