-- ==== Sys2Proof/Machine/HostProgram.lean ====
section
/-! DEFINITION. The host program notation of 30_encoding.md R78, as events. It describes bus traffic and is no feature of
the block. -/

namespace Sys2Proof.Machine

/-- `WR off, v`: a well-formed write. -/
def hostWrite (p : Params) (off : Nat) (v : Word) : Event := .access ⟨p.BASE + off, .write v, 0xF⟩

/-- `RD off`: a well-formed read; what it returns is in rdata. -/
def hostRead (p : Params) (off : Nat) : Event := .access ⟨p.BASE + off, .read, 0xF⟩

/-- `LDE slot, X`: the W/32 writes of a W-bit value, least significant word first. -/
def hostLoadElem (p : Params) (slot : Nat) (x : Nat) : List Event :=
  (List.range (p.W / 32)).map fun i => hostWrite p (slot + 4 * i) (elemWord x i)

/-- `ISSUE cmd`. -/
def hostIssue (p : Params) (i : Instr) : Event := hostWrite p 0x00010 (encode i)

/-- `WAIT`: STATUS is read any number of times before the engine's commit, and once after it. -/
def hostWait (p : Params) (polls : Nat) : List Event :=
  List.replicate polls (hostRead p 0x0000C) ++ [.engine, hostRead p 0x0000C]

/-- `RDE slot`: the W/32 reads of a W-bit value, least significant word first. -/
def hostReadElem (p : Params) (slot : Nat) : List Event :=
  (List.range (p.W / 32)).map fun i => hostRead p (slot + 4 * i)

end Sys2Proof.Machine
end

