-- ==== Sys2Proof/Safety.lean ====
section
/-! DEFINITION. The terms the claims are stated in: the invariant of State, the states a command or an access is expected
to leave, the address ranges of R38, and the mathematics of R91, R98 and R99 written with sums and products over finite
sets. Nothing of it is used by the machine. -/

namespace Sys2Proof.Machine

/-! ### The invariant -/

/-- Every register holds a value of its width, and every array has its number of slots (R16, R26 to R29). -/
structure Block.Fits (b : Block) : Prop where
  P_lt : b.P < 2 ^ b.params.W
  F_lt : ∀ v ∈ b.F.toList, v < 2 ^ b.params.W
  C_length : b.C.length = b.params.NCOEF
  C_lt : ∀ v ∈ b.C, v < 2 ^ b.params.W
  SIDX_length : b.SIDX.length = b.params.NSHARE
  SVAL_length : b.SVAL.length = b.params.NSHARE
  SVAL_lt : ∀ v ∈ b.SVAL, v < 2 ^ b.params.W

/-- The flags of the command protocol agree with one another (R21, R23, R25): DONE and ERR are never both 1; while
BUSY = 1 both are 0 and no error is recorded; DONE leaves no error recorded; ERR goes with a class from 1 to 3. -/
structure Block.FlagsAgree (b : Block) : Prop where
  not_both : ¬(b.status.done = true ∧ b.status.err = true)
  busy_clear : b.status.busy = true → b.status.done = false ∧ b.status.err = false
  busy_no_error : b.status.busy = true → b.status.errcode = 0 ∧ b.errinfo = ⟨0, 0⟩
  done_no_error : b.status.done = true → b.status.errcode = 0 ∧ b.errinfo = ⟨0, 0⟩
  err_class : b.status.err = true → b.status.errcode ≠ 0
  errcode_le : b.status.errcode.toNat ≤ 3

/-- While RST_N is asserted the block holds its reset state (R127). -/
def State.Held (s : State) : Prop := s.rstAsserted = true → s.toBlock = Block.reset s.params

/-- The invariant of the machine. -/
structure State.WF (s : State) : Prop where
  legal : s.params.Legal
  fits : s.toBlock.Fits
  flags : s.toBlock.FlagsAgree
  held : s.Held

/-! ### Expected states, written out field by field -/

/-- A command that ended with an error: class, reason and detail as numbers (R52, R110). -/
def State.afterError (s : State) (code reason which : Nat) : State :=
  { s with
    status := { s.status with busy := false, err := true, errcode := BitVec.ofNat 4 code }
    errinfo := ⟨BitVec.ofNat 8 reason, BitVec.ofNat 8 which⟩ }

/-- A command that ended with no error and wrote no data register (R52). -/
def State.afterDone (s : State) : State :=
  { s with status := { s.status with busy := false, done := true } }

/-- A command that ended with no error and wrote one field register (R52). -/
def State.afterWriteF (s : State) (rd : FReg) (v : Nat) : State :=
  { s with F := s.F.set rd.val v rd.isLt, status := { s.status with busy := false, done := true } }

/-- The first pending event taken off. -/
def State.pop (s : State) : State := { s with events := s.events.tail }

/-- An access that only set WERR and returned `r` (R42 to R44, R48). -/
def State.afterViolation (s : State) (r : Option Word) : State :=
  { s with status := { s.status with werr := true }, events := s.events.tail, rdata := r }

/-- The engine moves next: it is the first pending event, or none is pending. -/
def State.EngineNext (s : State) : Prop := s.events = [] ∨ ∃ rest, s.events = .engine :: rest

/-- The access `a` is the first pending event, and RST_N is not asserted. -/
def State.AccessNext (s : State) (a : Access) : Prop :=
  s.rstAsserted = false ∧ ∃ rest, s.events = .access a :: rest

/-- A well-formed access at an offset of the window (R41). -/
def wordAccess (p : Params) (off : Nat) (kind : AccessKind) : Access := ⟨p.BASE + off, kind, 0xF⟩

/-- P, F, C, SIDX and SVAL are the same. -/
abbrev SameData (s t : State) : Prop :=
  t.P = s.P ∧ t.F = s.F ∧ t.C = s.C ∧ t.SIDX = s.SIDX ∧ t.SVAL = s.SVAL

/-- What no command touches: the parameters, CTRL, CMD, ZLATCH, WERR, and the model's own fields. -/
abbrev SameControl (s t : State) : Prop :=
  t.params = s.params ∧ t.ctrl = s.ctrl ∧ t.cmd = s.cmd ∧ t.zlatch = s.zlatch ∧ t.status.werr = s.status.werr ∧
  t.rstAsserted = s.rstAsserted ∧ t.events = s.events ∧ t.rdata = s.rdata ∧ t.draws = s.draws

/-! ### Checks of the command rules -/

/-- The errors of a command that checks P and one source register, in order (R79, R84). -/
abbrev ChecksOneSource (i : Instr) (ra : FReg) : Prop := ∀ s : State,
  (s.P < 2 → exec i s = .next (s.afterError 1 0x01 0)) ∧
  (2 ≤ s.P → s.P ≤ readF s ra → exec i s = .next (s.afterError 1 0x02 ra.val))

/-- The errors of a command that checks P and two source registers, in order (R79, R81). -/
abbrev ChecksTwoSources (i : Instr) (ra rb : FReg) : Prop := ∀ s : State,
  (s.P < 2 → exec i s = .next (s.afterError 1 0x01 0)) ∧
  (2 ≤ s.P → s.P ≤ readF s ra → exec i s = .next (s.afterError 1 0x02 ra.val)) ∧
  (2 ≤ s.P → readF s ra < s.P → s.P ≤ readF s rb → exec i s = .next (s.afterError 1 0x02 rb.val))

/-- P ≥ 2 and both sources are field elements. -/
abbrev TwoSourcesReduced (s : State) (ra rb : FReg) : Prop := 2 ≤ s.P ∧ readF s ra < s.P ∧ readF s rb < s.P

/-- The coefficients C[0..t-1] are field elements. -/
abbrev CoefsReduced (s : State) (t : Nat) : Prop := ∀ j, j < t → readC s j < s.P

/-- The share values SVAL[0..n-1] are field elements. -/
abbrev SharesReduced (s : State) (n : Nat) : Prop := ∀ k, k < n → readSVAL s k < s.P

/-- SPLIT N, T passes its checks (R93). -/
abbrev SplitAccepts (s : State) (n t : Nat) : Prop :=
  2 ≤ s.P ∧ 1 ≤ t ∧ 1 ≤ n ∧ t ≤ n ∧ t ≤ s.params.NCOEF ∧ n ≤ s.params.NSHARE ∧ n < s.P ∧ CoefsReduced s t

/-! ### The mathematics of the rules -/

/-- The polynomial value of R91. -/
def polyValue (s : State) (t x : Nat) : Nat :=
  (readC s 0 + ∑ j ∈ Finset.Icc 1 (t - 1), readC s j * x ^ j) % s.P

/-- No earlier slot holds the same index and value (R98). -/
abbrev Kept (s : State) (k : Nat) : Prop :=
  ∀ j, j < k → ¬(readSIDX s j = readSIDX s k ∧ readSVAL s j = readSVAL s k)

/-- E(n) of R98. -/
def keptSlots (s : State) (n : Nat) : Finset Nat := (Finset.range n).filter (Kept s)

/-- num(k) of R99, with x(j) of R15. -/
def numValue (s : State) (n k : Nat) : Int :=
  (∏ j ∈ (keptSlots s n).erase k, (0 - (((readSIDX s j).toNat : Int) + 1) % (s.P : Int)) % (s.P : Int)) % (s.P : Int)

/-- den(k) of R99. -/
def denValue (s : State) (n k : Nat) : Int :=
  (∏ j ∈ (keptSlots s n).erase k,
    (((readSIDX s k).toNat : Int) - ((readSIDX s j).toNat : Int)) % (s.P : Int)) % (s.P : Int)

/-- den(k) is a unit modulo P (R14). -/
abbrev DenUnit (s : State) (n k : Nat) : Prop := Int.gcd (denValue s n k) (s.P : Int) = 1

/-- `l` is lambda(k) of R99: num(k) * inv(den(k)) mod P, with inv(den(k)) the y of R14. -/
def IsLambda (s : State) (n k l : Nat) : Prop :=
  ∃ y : Nat, y < s.P ∧ (denValue s n k * (y : Int)) % (s.P : Int) = 1 ∧
    (l : Int) = (numValue s n k * (y : Int)) % (s.P : Int)

/-! ### The register window -/

/-- The reserved offsets of R38 and R40. -/
abbrev ReservedOffset (p : Params) (off : Nat) : Prop :=
  (0x00018 ≤ off ∧ off < 0x01000) ∨
  (0x01000 ≤ off ∧ off < 0x01200 ∧ p.W / 32 ≤ (off - 0x01000) / 4) ∨
  (0x01200 ≤ off ∧ off < 0x02000) ∨
  (0x02000 ≤ off ∧ off < 0x04000 ∧ p.W / 32 ≤ (off - 0x02000) % 0x200 / 4) ∨
  (0x04000 ≤ off ∧ off < 0x0C000 ∧
    (p.NCOEF ≤ (off - 0x04000) / 0x200 ∨ p.W / 32 ≤ (off - 0x04000) % 0x200 / 4)) ∨
  (0x0C000 ≤ off ∧ off < 0x0C400 ∧ p.NSHARE ≤ (off - 0x0C000) / 4) ∨
  (0x0C400 ≤ off ∧ off < 0x10000) ∨
  (0x10000 ≤ off ∧ off < 0x30000 ∧
    (p.NSHARE ≤ (off - 0x10000) / 0x200 ∨ p.W / 32 ≤ (off - 0x10000) % 0x200 / 4)) ∨
  (0x30000 ≤ off ∧ off < 0x40000)

/-- The offsets of the data region (R38). -/
abbrev DataOffset (p : Params) (off : Nat) : Prop := 0x01000 ≤ off ∧ off < 0x40000 ∧ ¬ReservedOffset p off

/-- A data register that exists, and one of its words (R38 to R40). -/
abbrev DataReg.HasWord (p : Params) (i : Nat) : DataReg → Prop
  | .modulus => i < p.W / 32
  | .field _ => i < p.W / 32
  | .coef j => j < p.NCOEF ∧ i < p.W / 32
  | .shareIndex k => k < p.NSHARE ∧ i = 0
  | .shareValue k => k < p.NSHARE ∧ i < p.W / 32

/-- The whole value of a data register. -/
def regValue (s : State) : DataReg → Nat
  | .modulus => s.P
  | .field r => readF s r
  | .coef j => readC s j
  | .shareIndex k => (readSIDX s k).toNat
  | .shareValue k => readSVAL s k

/-- An access that sets WERR (R22). -/
abbrev Violation (s : State) (a : Access) : Prop :=
  (a.addr - s.params.BASE) % 4 ≠ 0 ∨ a.byteEnables ≠ 0xF ∨
  ReservedOffset s.params (a.addr - s.params.BASE) ∨
  (a.kind ≠ .read ∧ (a.addr - s.params.BASE = 0x00 ∨ a.addr - s.params.BASE = 0x04 ∨ a.addr - s.params.BASE = 0x14)) ∨
  (s.status.busy = true ∧ DataOffset s.params (a.addr - s.params.BASE)) ∨
  (s.status.busy = true ∧ a.kind ≠ .read ∧ a.addr - s.params.BASE = 0x10)

/-- An access that clears WERR: a write of 1 to STATUS bit 3, or a soft reset (R22). -/
abbrev ClearsWerr (s : State) (a : Access) : Prop :=
  a.byteEnables = 0xF ∧ ∃ w, a.kind = .write w ∧
    ((a.addr - s.params.BASE = 0x0C ∧ w.getLsbD 3 = true) ∨ (a.addr - s.params.BASE = 0x08 ∧ w.getLsbD 31 = true))

/-- An access that requests a soft reset (R20). -/
abbrev SoftReset (s : State) (a : Access) : Prop :=
  ∃ w, a = wordAccess s.params 0x08 (.write w) ∧ w.getLsbD 31 = true

end Sys2Proof.Machine

namespace Sys2Proof

/-! ### Commands -/

/-- The destination field register of a command that has one (R27). -/
def Instr.dest : Instr → Option FReg
  | .nop => none
  | .madd rd _ _ => some rd
  | .msub rd _ _ => some rd
  | .mmul rd _ _ => some rd
  | .mneg rd _ => some rd
  | .minv rd _ => some rd
  | .mexp rd _ _ => some rd
  | .mmov rd _ => some rd
  | .mldi rd _ => some rd
  | .peval rd _ _ => some rd
  | .split _ _ => none
  | .combine rd _ => some rd
  | .lbasis rd _ _ => some rd

/-- The commands that can raise INVALID_ARGUMENT (R105). -/
def Instr.ChecksArguments : Instr → Prop
  | .nop => False
  | .mmov _ _ => False
  | .madd _ _ _ | .msub _ _ _ | .mmul _ _ _ | .mneg _ _ | .minv _ _ | .mexp _ _ _ | .mldi _ _ | .peval _ _ _
  | .split _ _ | .combine _ _ | .lbasis _ _ _ => True

/-- The commands that can raise NOT_INVERTIBLE (R105). -/
def Instr.Inverts : Instr → Prop
  | .minv _ _ | .combine _ _ | .lbasis _ _ _ => True
  | .nop | .madd _ _ _ | .msub _ _ _ | .mmul _ _ _ | .mneg _ _ | .mexp _ _ _ | .mmov _ _ | .mldi _ _ | .peval _ _ _
  | .split _ _ => False

/-- A row of the tables of R106 and R107. -/
structure ErrorRow where
  /-- code(E) of the class, R105. -/
  code : BitVec 4
  /-- ERRINFO.REASON -/
  reason : BitVec 8
  /-- ERRINFO.WHICH where the table gives one value; none where it is a register, coefficient or slot number. -/
  which : Option (BitVec 8)
  /-- The commands of the column 'raised by'. -/
  raisedBy : List OpRow
  deriving DecidableEq, Repr

/-- The tables of R106 and R107, row by row. -/
def errorRows : List ErrorRow :=
  [⟨1, 0x01, some 0, [.madd, .msub, .mmul, .mneg, .minv, .mexp, .mldi, .peval, .split, .combine, .lbasis]⟩,
   ⟨1, 0x02, none, [.madd, .msub, .mmul, .mexp, .mneg, .minv, .peval]⟩,
   ⟨1, 0x03, some 1, [.peval, .split]⟩,
   ⟨1, 0x03, some 2, [.split, .lbasis]⟩,
   ⟨1, 0x03, some 3, [.split]⟩,
   ⟨1, 0x03, some 4, [.peval, .split]⟩] ++
  [⟨1, 0x03, some 5, [.split, .combine, .lbasis]⟩,
   ⟨1, 0x03, some 6, [.lbasis]⟩,
   ⟨1, 0x03, some 7, [.split]⟩,
   ⟨1, 0x04, none, [.peval, .split]⟩,
   ⟨1, 0x05, none, [.combine, .lbasis]⟩,
   ⟨2, 0x10, none, [.minv]⟩,
   ⟨2, 0x11, none, [.combine, .lbasis]⟩]

/-- The opcode map as R70 prints it: OP, the row, match, mask. -/
def opcodeMap : List (Nat × OpRow × Word × Word) :=
  [(0x01, .madd, 0x00000001, 0xFFFC003F), (0x02, .msub, 0x00000002, 0xFFFC003F),
   (0x03, .mmul, 0x00000003, 0xFFFC003F), (0x04, .mneg, 0x00000004, 0xFFFFC03F),
   (0x05, .minv, 0x00000005, 0xFFFFC03F), (0x06, .mexp, 0x00000006, 0xFFFC003F),
   (0x07, .mmov, 0x00000007, 0xFFFFC03F), (0x08, .mldi, 0x00000008, 0x0000FC3F)] ++
  [(0x10, .peval, 0x00000010, 0xFFE0003F), (0x18, .split, 0x00000018, 0xFFC0003F),
   (0x19, .combine, 0x00000019, 0xFFF8003F), (0x1A, .lbasis, 0x0000001A, 0xF800003F),
   (0x3F, .nop, 0x0000003F, 0xFFFFFFFF)]

end Sys2Proof
end

