-- ==== Sys2Proof/Certificates/Slice0/Obligations.lean ====
section
/-! DEFINITION. The statements for the provers. Each docstring names the rule it formalises. -/

open Sys2Proof Sys2Proof.Machine

/-! ## Encoding -/

/-- A few words written out in 95_test_vectors.md decode to the command they stand for there, one of each format; the
all-zero and the all-one word are illegal (R73). -/
def Obligations.DecodeReadsSpecWords : Prop :=
  decode 0x0000003F = .ok .nop ∧
  decode 0x000084C1 = .ok (.madd 3 1 2) ∧
  decode 0x00000D05 = .ok (.minv 4 3) ∧
  decode 0xFFFF0048 = .ok (.mldi 1 0xFFFF) ∧
  decode 0x00104490 = .ok (.peval 2 1 65) ∧
  decode 0x00208158 = .ok (.split 5 65) ∧
  decode 0x00040459 = .ok (.combine 1 257) ∧
  decode 0x000C085A = .ok (.lbasis 1 2 3) ∧
  decode 0x00000000 = .error (.badOpcode 0) ∧
  decode 0xFFFFFFFF = .error (.reservedBits 0x3F)

/-- R61 to R70: no bit of an encoding is dropped. -/
def Obligations.DecodeOfEncodeIsTheCommand : Prop :=
  ∀ i : Instr, i.wf = true → decode (encode i) = .ok i

/-- R60, R75: a word that decodes is the one encoding of its command, and the command is well-formed. -/
def Obligations.EncodeOfDecodeIsTheWord : Prop :=
  ∀ (v : Word) (i : Instr), decode v = .ok i → i.wf = true ∧ encode i = v

/-- R70: a word v spells the command of a row exactly when (v AND mask) = match; every other OP is reserved. -/
def Obligations.WordSpellsRowExactlyWhenMaskMatches : Prop :=
  (∀ (v : Word) (op : Nat) (row : OpRow) (pat msk : Word), (op, row, pat, msk) ∈ opcodeMap →
    (v &&& msk = pat ↔ ∃ i, decode v = .ok i ∧ i.row = row)) ∧
  ∀ v : Word, v.toNat % 64 ∉ opcodeMap.map (·.1) → ∀ i, decode v ≠ .ok i

/-- R71, R72: the engine completes a word that is no command with ILLEGAL_COMMAND, reason BAD_OPCODE or RESERVED_BITS,
WHICH = OP, and changes no data register; and it completes no other word so. -/
def Obligations.IllegalWordsCompleteWithIllegalCommand : Prop :=
  ∀ s : State, s.status.busy = true → s.EngineNext →
    (s.cmd.toNat % 64 ∉ opcodeMap.map (·.1) →
      step s = .next (s.pop.afterError 3 0x20 (s.cmd.toNat % 64))) ∧
    (∀ (op : Nat) (row : OpRow) (pat msk : Word), (op, row, pat, msk) ∈ opcodeMap → s.cmd.toNat % 64 = op →
      s.cmd &&& msk ≠ pat → step s = .next (s.pop.afterError 3 0x21 op)) ∧
    (∀ (op : Nat) (row : OpRow) (pat msk : Word), (op, row, pat, msk) ∈ opcodeMap → s.cmd &&& msk = pat →
      s.status.errcode ≠ 3 → ∃ t, step s = .next t ∧ t.status.errcode ≠ 3)

/-! ## The step -/

/-- R50, R75: while BUSY = 1 the engine's turn is the meaning of the decoded command, after the move is taken off the
list of pending moves; the block has no program counter to advance. -/
def Obligations.StepRunsDecodedCommand : Prop :=
  ∀ (s : State) (i : Instr), s.status.busy = true → s.EngineNext → decode s.cmd = .ok i → step s = exec i s.pop

/-- R53, R124, R127: a host access is one step, taken off the list of pending moves; so is each edge of RST_N; and with no
command in flight the engine's turn changes nothing. -/
def Obligations.StepPerformsTheNextMove : Prop :=
  (∀ (s : State) (a : Access) (rest : List Event), s.events = .access a :: rest → step s = hostAccess s.pop a) ∧
  (∀ (s : State) (rest : List Event), s.events = .assertReset :: rest →
    step s = .next { s.pop with toBlock := Block.reset s.params, rstAsserted := true }) ∧
  (∀ (s : State) (rest : List Event), s.events = .releaseReset :: rest →
    step s = .next { s.pop with rstAsserted := false }) ∧
  (∀ s : State, s.status.busy = false → s.EngineNext → step s = .next s.pop)

/-- The model's own placing of a command (log 14): the very next step runs the command on the state its issue leaves. -/
def Obligations.PlacedCommandRunsNext : Prop :=
  ∀ (s : State) (w : Nat) (i : Instr), decodeTableWord 32 w = some i →
    step (s.withFetchWord 32 w) = exec i (issue { s with rstAsserted := false } (BitVec.ofNat 32 w))

/-! ## The commands -/

/-- R80: no check, no write; with IE = 1 the commit raises IRQ. -/
def Obligations.NopOnlyCompletes : Prop :=
  decode 0x0000003F = .ok .nop ∧ ∀ s : State, exec .nop s = .next s.afterDone ∧ irq s.afterDone = s.ctrl.ie

/-- R81 -/
def Obligations.MaddAddsModP : Prop :=
  ∀ rd ra rb : FReg,
    decode (BitVec.ofNat 32 (rb.val <<< 14 ||| ra.val <<< 10 ||| rd.val <<< 6 ||| 0x01)) = .ok (.madd rd ra rb) ∧
    ChecksTwoSources (.madd rd ra rb) ra rb ∧
    ∀ s : State, TwoSourcesReduced s ra rb →
      exec (.madd rd ra rb) s = .next (s.afterWriteF rd ((readF s ra + readF s rb) % s.P))

/-- R82 -/
def Obligations.MsubSubtractsModP : Prop :=
  ∀ rd ra rb : FReg,
    decode (BitVec.ofNat 32 (rb.val <<< 14 ||| ra.val <<< 10 ||| rd.val <<< 6 ||| 0x02)) = .ok (.msub rd ra rb) ∧
    ChecksTwoSources (.msub rd ra rb) ra rb ∧
    ∀ s : State, TwoSourcesReduced s ra rb → ∃ v : Nat,
      (v : Int) = ((readF s ra : Int) - (readF s rb : Int)) % (s.P : Int) ∧
      exec (.msub rd ra rb) s = .next (s.afterWriteF rd v)

/-- R83 -/
def Obligations.MmulMultipliesModP : Prop :=
  ∀ rd ra rb : FReg,
    decode (BitVec.ofNat 32 (rb.val <<< 14 ||| ra.val <<< 10 ||| rd.val <<< 6 ||| 0x03)) = .ok (.mmul rd ra rb) ∧
    ChecksTwoSources (.mmul rd ra rb) ra rb ∧
    ∀ s : State, TwoSourcesReduced s ra rb →
      exec (.mmul rd ra rb) s = .next (s.afterWriteF rd (readF s ra * readF s rb % s.P))

/-- R84 -/
def Obligations.MnegNegatesModP : Prop :=
  ∀ rd ra : FReg,
    decode (BitVec.ofNat 32 (ra.val <<< 10 ||| rd.val <<< 6 ||| 0x04)) = .ok (.mneg rd ra) ∧
    ChecksOneSource (.mneg rd ra) ra ∧
    ∀ s : State, 2 ≤ s.P → readF s ra < s.P →
      exec (.mneg rd ra) s = .next (s.afterWriteF rd (if readF s ra = 0 then 0 else s.P - readF s ra))

/-- R85, R14: the result is the only inverse below P; a non-unit is NOT_INVERTIBLE. -/
def Obligations.MinvInvertsUnits : Prop :=
  ∀ rd ra : FReg,
    decode (BitVec.ofNat 32 (ra.val <<< 10 ||| rd.val <<< 6 ||| 0x05)) = .ok (.minv rd ra) ∧
    ChecksOneSource (.minv rd ra) ra ∧
    (∀ s : State, 2 ≤ s.P → readF s ra < s.P → Nat.gcd (readF s ra) s.P ≠ 1 →
      exec (.minv rd ra) s = .next (s.afterError 2 0x10 ra.val)) ∧
    (∀ s : State, 2 ≤ s.P → readF s ra < s.P → Nat.gcd (readF s ra) s.P = 1 → ∃ y : Nat,
      (y < s.P ∧ readF s ra * y % s.P = 1) ∧ (∀ z, z < s.P → readF s ra * z % s.P = 1 → z = y) ∧
      exec (.minv rd ra) s = .next (s.afterWriteF rd y))

/-- R86 -/
def Obligations.MexpIsThePowerModP : Prop :=
  ∀ rd ra rb : FReg,
    decode (BitVec.ofNat 32 (rb.val <<< 14 ||| ra.val <<< 10 ||| rd.val <<< 6 ||| 0x06)) = .ok (.mexp rd ra rb) ∧
    ChecksTwoSources (.mexp rd ra rb) ra rb ∧
    ∀ s : State, TwoSourcesReduced s ra rb →
      exec (.mexp rd ra rb) s = .next (s.afterWriteF rd (readF s ra ^ readF s rb % s.P))

/-- R87 -/
def Obligations.MmovCopiesUnchecked : Prop :=
  ∀ rd ra : FReg,
    decode (BitVec.ofNat 32 (ra.val <<< 10 ||| rd.val <<< 6 ||| 0x07)) = .ok (.mmov rd ra) ∧
    ∀ s : State, exec (.mmov rd ra) s = .next (s.afterWriteF rd (readF s ra))

/-- R88 -/
def Obligations.MldiLoadsReducedImmediate : Prop :=
  ∀ (rd : FReg) (imm : Nat), imm < 2 ^ 16 →
    decode (BitVec.ofNat 32 (imm <<< 16 ||| rd.val <<< 6 ||| 0x08)) = .ok (.mldi rd imm) ∧
    ∀ s : State,
      (s.P < 2 → exec (.mldi rd imm) s = .next (s.afterError 1 0x01 0)) ∧
      (2 ≤ s.P → exec (.mldi rd imm) s = .next (s.afterWriteF rd (imm % s.P)))

/-- R92, R91: the checks in their order, then the polynomial value. -/
def Obligations.PevalEvaluatesThePolynomial : Prop :=
  ∀ (rd ra : FReg) (t : Nat), t < 2 ^ 7 →
    decode (BitVec.ofNat 32 (t <<< 14 ||| ra.val <<< 10 ||| rd.val <<< 6 ||| 0x10)) = .ok (.peval rd ra t) ∧
    ∀ s : State,
      (s.P < 2 → exec (.peval rd ra t) s = .next (s.afterError 1 0x01 0)) ∧
      (2 ≤ s.P → t < 1 → exec (.peval rd ra t) s = .next (s.afterError 1 0x03 1)) ∧
      (2 ≤ s.P → 1 ≤ t → s.params.NCOEF < t → exec (.peval rd ra t) s = .next (s.afterError 1 0x03 4)) ∧
      (2 ≤ s.P → 1 ≤ t → t ≤ s.params.NCOEF → s.P ≤ readF s ra →
        exec (.peval rd ra t) s = .next (s.afterError 1 0x02 ra.val)) ∧
      (∀ j, 2 ≤ s.P → t ≤ s.params.NCOEF → readF s ra < s.P → j < t → CoefsReduced s j → s.P ≤ readC s j →
        exec (.peval rd ra t) s = .next (s.afterError 1 0x04 j)) ∧
      (2 ≤ s.P → 1 ≤ t → t ≤ s.params.NCOEF → readF s ra < s.P → CoefsReduced s t →
        exec (.peval rd ra t) s = .next (s.afterWriteF rd (polyValue s t (readF s ra))))

/-- R93: the checks of SPLIT in their order; on any error no slot and no coefficient changes. -/
def Obligations.SplitChecksInOrder : Prop :=
  ∀ (n t : Nat) (s : State),
    (s.P < 2 → exec (.split n t) s = .next (s.afterError 1 0x01 0)) ∧
    (2 ≤ s.P → t < 1 → exec (.split n t) s = .next (s.afterError 1 0x03 1)) ∧
    (2 ≤ s.P → 1 ≤ t → n < 1 → exec (.split n t) s = .next (s.afterError 1 0x03 2)) ∧
    (2 ≤ s.P → 1 ≤ t → 1 ≤ n → n < t → exec (.split n t) s = .next (s.afterError 1 0x03 3)) ∧
    (2 ≤ s.P → 1 ≤ t → t ≤ n → s.params.NCOEF < t → exec (.split n t) s = .next (s.afterError 1 0x03 4)) ∧
    (2 ≤ s.P → 1 ≤ t → t ≤ n → t ≤ s.params.NCOEF → s.params.NSHARE < n →
      exec (.split n t) s = .next (s.afterError 1 0x03 5)) ∧
    (2 ≤ s.P → 1 ≤ t → t ≤ n → t ≤ s.params.NCOEF → n ≤ s.params.NSHARE → s.P ≤ n →
      exec (.split n t) s = .next (s.afterError 1 0x03 7)) ∧
    (∀ j, 2 ≤ s.P → t ≤ n → t ≤ s.params.NCOEF → n ≤ s.params.NSHARE → n < s.P → j < t → CoefsReduced s j →
      s.P ≤ readC s j → exec (.split n t) s = .next (s.afterError 1 0x04 j))

/-- R93, R94, R95: a SPLIT that passes its checks writes share k to slot k for k < N, zeroizes C[1..T-1] if ZLATCH = 1,
and changes nothing else. -/
def Obligations.SplitWritesTheShares : Prop :=
  ∀ (n t : Nat), n < 2 ^ 9 → t < 2 ^ 7 →
    decode (BitVec.ofNat 32 (t <<< 15 ||| n <<< 6 ||| 0x18)) = .ok (.split n t) ∧
    ∀ s : State, s.WF → SplitAccepts s n t → ∃ u : State,
      exec (.split n t) s = .next u ∧
      (∀ k, k < n → (readSIDX u k).toNat = k ∧ readSVAL u k = polyValue s t (k + 1)) ∧
      (∀ k, n ≤ k → readSIDX u k = readSIDX s k ∧ readSVAL u k = readSVAL s k) ∧
      (∀ j, readC u j = if s.zlatch = true ∧ 1 ≤ j ∧ j < t then 0 else readC s j) ∧
      u.SIDX.length = s.SIDX.length ∧ u.SVAL.length = s.SVAL.length ∧ u.C.length = s.C.length ∧
      u = { s.afterDone with SIDX := u.SIDX, SVAL := u.SVAL, C := u.C }

/-- R94: the zeroize rule, with its negative cases: ZLATCH = 0, or a SPLIT that ends with an error. -/
def Obligations.ZeroizeOnlyAfterSuccessfulSplit : Prop :=
  ∀ (n t : Nat) (s u : State), exec (.split n t) s = .next u →
    (SplitAccepts s n t → s.zlatch = true → ∀ j, readC u j = if 1 ≤ j ∧ j ≤ t - 1 then 0 else readC s j) ∧
    (s.zlatch = false ∨ ¬SplitAccepts s n t → u.C = s.C)

/-- R100: the checks of COMBINE in their order, the lowest failing slot first. -/
def Obligations.CombineChecksInOrder : Prop :=
  ∀ (rd : FReg) (n : Nat) (s : State),
    (s.P < 2 → exec (.combine rd n) s = .next (s.afterError 1 0x01 0)) ∧
    (2 ≤ s.P → s.params.NSHARE < n → exec (.combine rd n) s = .next (s.afterError 1 0x03 5)) ∧
    (∀ k, 2 ≤ s.P → n ≤ s.params.NSHARE → k < n → SharesReduced s k → s.P ≤ readSVAL s k →
      exec (.combine rd n) s = .next (s.afterError 1 0x05 k)) ∧
    (∀ k, 2 ≤ s.P → n ≤ s.params.NSHARE → SharesReduced s n → k ∈ keptSlots s n → ¬DenUnit s n k →
      (∀ j ∈ keptSlots s n, j < k → DenUnit s n j) →
      exec (.combine rd n) s = .next (s.afterError 2 0x11 k))

/-- R100, R97 to R99: the interpolated value at x = 0. -/
def Obligations.CombineInterpolatesAtZero : Prop :=
  ∀ (rd : FReg) (n : Nat), n < 2 ^ 9 →
    decode (BitVec.ofNat 32 (n <<< 10 ||| rd.val <<< 6 ||| 0x19)) = .ok (.combine rd n) ∧
    ∀ s : State, 2 ≤ s.P → n ≤ s.params.NSHARE → SharesReduced s n → (∀ k ∈ keptSlots s n, DenUnit s n k) →
      ∃ l : Nat → Nat, (∀ k ∈ keptSlots s n, IsLambda s n k (l k)) ∧
        exec (.combine rd n) s = .next (s.afterWriteF rd ((∑ k ∈ keptSlots s n, readSVAL s k * l k) % s.P))

/-- R101: the checks of LBASIS in their order; only den(K) is tested, and only for a kept slot: with the checks before it
passed, a dropped K and a kept K with a unit den(K) end with no error. -/
def Obligations.LbasisChecksInOrder : Prop :=
  ∀ (rd : FReg) (k n : Nat) (s : State),
    (s.P < 2 → exec (.lbasis rd k n) s = .next (s.afterError 1 0x01 0)) ∧
    (2 ≤ s.P → n < 1 → exec (.lbasis rd k n) s = .next (s.afterError 1 0x03 2)) ∧
    (2 ≤ s.P → 1 ≤ n → s.params.NSHARE < n → exec (.lbasis rd k n) s = .next (s.afterError 1 0x03 5)) ∧
    (2 ≤ s.P → 1 ≤ n → n ≤ s.params.NSHARE → n ≤ k → exec (.lbasis rd k n) s = .next (s.afterError 1 0x03 6)) ∧
    (∀ j, 2 ≤ s.P → n ≤ s.params.NSHARE → k < n → j < n → SharesReduced s j → s.P ≤ readSVAL s j →
      exec (.lbasis rd k n) s = .next (s.afterError 1 0x05 j)) ∧
    (2 ≤ s.P → n ≤ s.params.NSHARE → SharesReduced s n → k ∈ keptSlots s n → ¬DenUnit s n k →
      exec (.lbasis rd k n) s = .next (s.afterError 2 0x11 k)) ∧
    (2 ≤ s.P → n ≤ s.params.NSHARE → k < n → SharesReduced s n → k ∉ keptSlots s n ∨ DenUnit s n k →
      ∃ v : Nat, exec (.lbasis rd k n) s = .next (s.afterWriteF rd v))

/-- R101: one Lagrange basis value at x = 0; 0 for a dropped duplicate. -/
def Obligations.LbasisGivesOneBasisValue : Prop :=
  ∀ (rd : FReg) (k n : Nat), k < 2 ^ 8 → n < 2 ^ 9 →
    decode (BitVec.ofNat 32 (n <<< 18 ||| k <<< 10 ||| rd.val <<< 6 ||| 0x1A)) = .ok (.lbasis rd k n) ∧
    ∀ s : State, 2 ≤ s.P → n ≤ s.params.NSHARE → k < n → SharesReduced s n →
      (k ∉ keptSlots s n → exec (.lbasis rd k n) s = .next (s.afterWriteF rd 0)) ∧
      (k ∈ keptSlots s n → DenUnit s n k → ∃ l : Nat, IsLambda s n k l ∧
        exec (.lbasis rd k n) s = .next (s.afterWriteF rd l))

/-! ## What every command keeps -/

/-- The frame of the commands with one destination register, in every form, also when they end with an error: every
other field register, P, C and the share buffer are unchanged, and so is all that no command touches (R27, R52). -/
def Obligations.OneDestinationFrame : Prop :=
  ∀ (i : Instr) (rd : FReg) (s t : State), i.dest = some rd → exec i s = .next t →
    (∀ r, r ≠ rd → readF t r = readF s r) ∧
    t.P = s.P ∧ t.C = s.C ∧ t.SIDX = s.SIDX ∧ t.SVAL = s.SVAL ∧ SameControl s t

/-- The frame of NOP and SPLIT, also when SPLIT ends with an error: P and the field registers are unchanged, NOP changes
no data register, and SPLIT leaves C[0], the coefficients from T on and the slots from N on (R80, R94, R95). -/
def Obligations.NopAndSplitFrame : Prop :=
  (∀ s t : State, exec .nop s = .next t → SameData s t ∧ SameControl s t) ∧
  (∀ (n t : Nat) (s u : State), exec (.split n t) s = .next u →
    u.P = s.P ∧ u.F = s.F ∧ SameControl s u ∧
    (∀ j, j < 1 ∨ t ≤ j → readC u j = readC s j) ∧
    (∀ k, n ≤ k → readSIDX u k = readSIDX s k ∧ readSVAL u k = readSVAL s k))

/-- R52, R111: a command that ends with an error writes none of P, F, C, SIDX or SVAL. -/
def Obligations.FailingCommandWritesNoData : Prop :=
  ∀ (i : Instr) (s t : State), s.status.err = false → exec i s = .next t → t.status.err = true → SameData s t

/-- R105 to R107: a command completes either with no error or with exactly one error, whose class, reason and, where the
table fixes it, WHICH stand in a row of R106 or R107 that names the command under 'raised by'. -/
def Obligations.CommandCompletesWithOneOutcome : Prop :=
  ∀ (i : Instr) (s : State), s.toBlock.FlagsAgree → s.status.busy = true → ∃ t, exec i s = .next t ∧
    t.status.busy = false ∧
    ((t.status.done = true ∧ t.status.err = false ∧ t.status.errcode = 0 ∧ t.errinfo = ⟨0, 0⟩) ∨
     (t.status.done = false ∧ t.status.err = true ∧
       ((t.status.errcode = 1 ∧ i.ChecksArguments) ∨ (t.status.errcode = 2 ∧ i.Inverts)) ∧
       ∃ e ∈ errorRows, t.status.errcode = e.code ∧ t.errinfo.reason = e.reason ∧
         (∀ w, e.which = some w → t.errinfo.which = w) ∧ i.row ∈ e.raisedBy))

/-- R12, R89: every committed result of field arithmetic is in [0, P). MMOV, a raw copy, is the one exception (R87). -/
def Obligations.CommittedResultsAreReduced : Prop :=
  ∀ (i : Instr) (s t : State), s.toBlock.Fits → s.status.done = false → exec i s = .next t → t.status.done = true →
    (∀ rd, i.dest = some rd → (∀ ra, i ≠ .mmov rd ra) → readF t rd < s.P) ∧
    (∀ n m, i = .split n m → ∀ k, k < n → readSVAL t k < s.P)

/-- R50: Execute is a pure function of the command, P, F, C, SIDX, SVAL, ZLATCH and the parameters: whatever else
differs between two states, the outcome and the registers written are the same. -/
def Obligations.ExecuteDependsOnDataOnly : Prop :=
  ∀ (i : Instr) (s₁ s₂ t₁ t₂ : State), s₁.params = s₂.params → SameData s₁ s₂ → s₁.zlatch = s₂.zlatch →
    s₁.status.err = s₂.status.err → s₁.status.done = s₂.status.done → s₁.status.errcode = s₂.status.errcode →
    s₁.errinfo = s₂.errinfo → exec i s₁ = .next t₁ → exec i s₂ = .next t₂ →
    SameData t₁ t₂ ∧ t₁.status.err = t₂.status.err ∧ t₁.status.done = t₂.status.done ∧
    t₁.status.errcode = t₂.status.errcode ∧ t₁.errinfo = t₂.errinfo

/-! ## The host's accesses -/

/-- R49: issue, in one step. -/
def Obligations.CmdWriteIssuesTheWord : Prop :=
  ∀ (s : State) (v : Word), s.AccessNext (wordAccess s.params 0x10 (.write v)) → s.status.busy = false →
    step s = .next { s.pop with
      cmd := v
      zlatch := s.ctrl.zeroize
      status := { s.status with busy := true, done := false, err := false, errcode := 0 }
      errinfo := ⟨0, 0⟩
      rdata := none }

/-- R48: a CMD write while BUSY = 1 is ignored and sets WERR; a CMD read returns the command in flight. -/
def Obligations.CmdWriteWhileBusyIsIgnored : Prop :=
  ∀ s : State, s.status.busy = true →
    (∀ v : Word, s.AccessNext (wordAccess s.params 0x10 (.write v)) → step s = .next (s.afterViolation none)) ∧
    (s.AccessNext (wordAccess s.params 0x10 .read) → step s = .next { s.pop with rdata := some s.cmd })

/-- R47, first part: while BUSY = 1 a well-formed access in the data region sets WERR; a write is ignored, and a read
returns some word, about which nothing is said, and draws a fresh one. -/
def Obligations.DataAccessWhileBusySetsWerr : Prop :=
  ∀ (s : State) (off : Nat), s.status.busy = true → off % 4 = 0 → DataOffset s.params off →
    (∀ w : Word, s.AccessNext (wordAccess s.params off (.write w)) → step s = .next (s.afterViolation none)) ∧
    (s.AccessNext (wordAccess s.params off .read) → ∃ w : Word,
      step s = .next { s.afterViolation (some w) with draws := s.draws + 1 })

/-- R42: an access that is not well-formed changes no register but STATUS.WERR, whatever the offset. -/
def Obligations.IllFormedAccessSetsWerr : Prop :=
  ∀ (s : State) (a : Access), s.AccessNext a → s.params.BASE ≤ a.addr → a.addr < s.params.BASE + 0x40000 →
    (a.addr - s.params.BASE) % 4 ≠ 0 ∨ a.byteEnables ≠ 0xF →
    (a.kind = .read → step s = .next (s.afterViolation (some 0))) ∧
    (∀ w : Word, a.kind = .write w → step s = .next (s.afterViolation none))

/-- R43: a well-formed access to a reserved offset. -/
def Obligations.ReservedOffsetSetsWerr : Prop :=
  ∀ (s : State) (off : Nat), off % 4 = 0 → ReservedOffset s.params off →
    (s.AccessNext (wordAccess s.params off .read) → step s = .next (s.afterViolation (some 0))) ∧
    (∀ w : Word, s.AccessNext (wordAccess s.params off (.write w)) → step s = .next (s.afterViolation none))

/-- R44: a well-formed write to ID, PARAM or ERRINFO is ignored and sets WERR; a write to CTRL or STATUS never sets
it. -/
def Obligations.ReadOnlyRegistersIgnoreWrites : Prop :=
  ∀ (s : State) (w : Word),
    (∀ off, off = 0x00 ∨ off = 0x04 ∨ off = 0x14 → s.AccessNext (wordAccess s.params off (.write w)) →
      step s = .next (s.afterViolation none)) ∧
    (∀ off, off = 0x08 ∨ off = 0x0C → s.AccessNext (wordAccess s.params off (.write w)) →
      ∃ t, step s = .next t ∧ (t.status.werr = true → s.status.werr = true))

/-- R17: ID always reads 0x47465045; a write is ignored and sets WERR. -/
def Obligations.IdReadsItsConstant : Prop :=
  ∀ s : State,
    (s.AccessNext (wordAccess s.params 0x00 .read) → step s = .next { s.pop with rdata := some 0x47465045 }) ∧
    (∀ w : Word, s.AccessNext (wordAccess s.params 0x00 (.write w)) → step s = .next (s.afterViolation none))

/-- R18: the fields of PARAM; a write is ignored and sets WERR. -/
def Obligations.ParamShowsTheParameters : Prop :=
  ∀ s : State, s.params.Legal →
    (s.AccessNext (wordAccess s.params 0x04 .read) → ∃ w : Word, step s = .next { s.pop with rdata := some w } ∧
      w.toNat % 2 ^ 8 = s.params.W / 32 ∧ w.toNat / 2 ^ 8 % 2 ^ 8 = s.params.NCOEF ∧
      w.toNat / 2 ^ 16 % 2 ^ 9 = s.params.NSHARE ∧ w.toNat / 2 ^ 25 % 2 ^ 3 = 0 ∧ w.toNat / 2 ^ 28 = 1) ∧
    (∀ w : Word, s.AccessNext (wordAccess s.params 0x04 (.write w)) → step s = .next (s.afterViolation none))

/-- R19: CTRL reads IE and ZEROIZE and zeros; a write with bit 31 = 0 stores bits [1:0], whether or not BUSY is 1,
sets no WERR and leaves ZLATCH. -/
def Obligations.CtrlStoresItsTwoBits : Prop :=
  ∀ s : State,
    (s.AccessNext (wordAccess s.params 0x08 .read) → ∃ w : Word, step s = .next { s.pop with rdata := some w } ∧
      w.toNat = s.ctrl.ie.toNat + 2 * s.ctrl.zeroize.toNat) ∧
    (∀ w : Word, s.AccessNext (wordAccess s.params 0x08 (.write w)) → w.getLsbD 31 = false →
      step s = .next { s.pop with ctrl := ⟨w.getLsbD 0, w.getLsbD 1⟩, rdata := none })

/-- R35, R128, R129, R20: the hardware reset and the soft reset leave every register at its reset value; a command in
flight is dropped, and the other bits of the CTRL write are discarded. -/
def Obligations.ResetClearsEveryRegister : Prop :=
  ∀ s : State,
    ((∃ rest, s.events = .assertReset :: rest) ∨ ∃ a, s.AccessNext a ∧ SoftReset s a) →
    ∃ t, step s = .next t ∧ t.events = s.events.tail ∧ t.params = s.params ∧
      ctrlWord t.ctrl = 0x00000002 ∧ statusWord t.status = 0 ∧ t.cmd = 0 ∧ errinfoWord t.errinfo = 0 ∧
      t.P = 0 ∧ (∀ r, readF t r = 0) ∧
      t.C = List.replicate s.params.NCOEF 0 ∧ t.SIDX = List.replicate s.params.NSHARE 0 ∧
      t.SVAL = List.replicate s.params.NSHARE 0 ∧ t.zlatch = false ∧ irq t = false

/-- R127: while RST_N is asserted the block holds its reset state and does not respond; it leaves reset in that state. -/
def Obligations.AssertedResetHoldsTheBlock : Prop :=
  ∀ s : State, s.WF → s.rstAsserted = true →
    s.toBlock = Block.reset s.params ∧
    (s.EngineNext → step s = .next s.pop) ∧
    (∀ (a : Access) (rest : List Event), s.events = .access a :: rest → s.params.BASE ≤ a.addr →
      a.addr < s.params.BASE + 0x40000 → step s = .refused .accessDuringReset) ∧
    (∀ rest, s.events = .releaseReset :: rest → step s = .next { s.pop with rstAsserted := false })

/-- R21, R112: STATUS reads its fields and zeros; a write clears each W1C bit written as 1 and nothing else: BUSY,
ERRCODE and ERRINFO stay, and WERR is never set. -/
def Obligations.StatusWriteClearsOnlyItsOnes : Prop :=
  ∀ s : State,
    (s.AccessNext (wordAccess s.params 0x0C .read) → ∃ w : Word, step s = .next { s.pop with rdata := some w } ∧
      w.toNat = s.status.busy.toNat + 2 * s.status.done.toNat + 4 * s.status.err.toNat + 8 * s.status.werr.toNat +
        256 * s.status.errcode.toNat) ∧
    (∀ w : Word, s.AccessNext (wordAccess s.params 0x0C (.write w)) →
      step s = .next { s.pop with
        status :=
          { s.status with
            done := if w.getLsbD 1 then false else s.status.done
            err := if w.getLsbD 2 then false else s.status.err
            werr := if w.getLsbD 3 then false else s.status.werr }
        rdata := none })

/-- R22: exactly the accesses of the rule set WERR; only a write of 1 to STATUS bit 3 or a reset clears it; a violation
aborts no command and changes no register. -/
def Obligations.WerrIsStickyAndExact : Prop :=
  (∀ (s : State) (a : Access), s.AccessNext a → s.params.BASE ≤ a.addr →
    a.addr < s.params.BASE + 0x40000 → ∃ t, step s = .next t ∧
      (t.status.werr = true ↔ Violation s a ∨ (s.status.werr = true ∧ ¬ClearsWerr s a)) ∧
      (Violation s a → t = { s.afterViolation t.rdata with draws := t.draws })) ∧
  (∀ s t : State, (∀ a rest, s.events ≠ .access a :: rest) → (∀ rest, s.events ≠ .assertReset :: rest) →
    step s = .next t → t.status.werr = s.status.werr)

/-- R46, R39: while BUSY = 0 a well-formed write stores its word in exactly those 32 bits: the next read there returns
it, and every word of every other place of the data region stays. -/
def Obligations.HostWriteThenReadReturnsTheWord : Prop :=
  ∀ (s : State) (r : DataReg) (i : Nat) (w : Word) (rest : List Event), s.WF → s.rstAsserted = false →
    s.status.busy = false → r.HasWord s.params i →
    s.events = .access (wordAccess s.params (regOffset r + 4 * i) (.write w)) :: rest →
    ∃ t, step s = .next t ∧ t.events = rest ∧ SameControl { s.pop with rdata := none } t ∧
      t.status = s.status ∧ t.errinfo = s.errinfo ∧
      (∀ rest', rest = .access (wordAccess s.params (regOffset r + 4 * i) .read) :: rest' →
        step t = .next { t.pop with rdata := some w }) ∧
      (∀ (q : DataReg) (j : Nat), q.HasWord s.params j → (q, j) ≠ (r, i) → dataWord t q j = dataWord s q j)

/-- R38, R39: the map of the window: each word of each data register has its offset, and the offsets of two different
words differ. -/
def Obligations.WindowMapNamesEveryWord : Prop :=
  ∀ p : Params, p.Legal → ∀ (r : DataReg) (i : Nat), r.HasWord p i →
    windowMap p (regOffset r + 4 * i) = .data r i ∧ DataOffset p (regOffset r + 4 * i) ∧
    ∀ (q : DataReg) (j : Nat), q.HasWord p j → regOffset q + 4 * j = regOffset r + 4 * i → (q, j) = (r, i)

/-- R39: the W/32 word writes of a W-bit value, in any order, leave it in the register, and every other register of the
data region as it was. -/
def Obligations.ElementLoadsInAnyOrder : Prop :=
  ∀ (s : State) (r : DataReg) (x : Nat) (order : List Nat), s.WF → s.rstAsserted = false → s.status.busy = false →
    r.HasWord s.params 0 → (∀ k, r ≠ .shareIndex k) → x < 2 ^ s.params.W →
    order.Perm (List.range (s.params.W / 32)) →
    s.events = order.map (fun i => hostWrite s.params (regOffset r + 4 * i) (elemWord x i)) →
    ∃ t, Host.Core.run Sys2Proof.core (s.params.W / 32) s = .next t ∧ regValue t r = x ∧
      (∀ q : DataReg, q ≠ r → q.HasWord s.params 0 → regValue t q = regValue s q) ∧
      t.status = s.status ∧ t.errinfo = s.errinfo ∧ t.ctrl = s.ctrl ∧ t.cmd = s.cmd

/-- R57: a well-formed read of a non-reserved offset while BUSY = 0 has no side effect on the block. R39, R46: word i of a
data register reads as its bits [32 i + 31 : 32 i]. R24, R25, R47: whether or not BUSY is 1, CMD reads as the last word
issued, and ERRINFO as REASON in [7:0], WHICH in [15:8] and zeros. -/
def Obligations.IdleReadHasNoSideEffect : Prop :=
  (∀ (s : State) (off : Nat), s.status.busy = false → off < 0x40000 → off % 4 = 0 → ¬ReservedOffset s.params off →
    s.AccessNext (wordAccess s.params off .read) → ∃ w : Word, step s = .next { s.pop with rdata := some w }) ∧
  (∀ (s : State) (r : DataReg) (i : Nat), s.params.Legal → s.status.busy = false → r.HasWord s.params i →
    s.AccessNext (wordAccess s.params (regOffset r + 4 * i) .read) → ∃ w : Word,
      step s = .next { s.pop with rdata := some w } ∧ w.toNat = regValue s r / 2 ^ (32 * i) % 2 ^ 32) ∧
  (∀ s : State, s.AccessNext (wordAccess s.params 0x10 .read) → step s = .next { s.pop with rdata := some s.cmd }) ∧
  (∀ s : State, s.AccessNext (wordAccess s.params 0x14 .read) → ∃ w : Word,
    step s = .next { s.pop with rdata := some w } ∧
    w.toNat = s.errinfo.reason.toNat + 2 ^ 8 * s.errinfo.which.toNat)

/-- R37: an access outside the window does not reach the block. -/
def Obligations.AccessOutsideTheWindowDoesNothing : Prop :=
  ∀ (s : State) (a : Access) (rest : List Event), s.events = .access a :: rest →
    a.addr < s.params.BASE ∨ s.params.BASE + 0x40000 ≤ a.addr →
    step s = .next { s.pop with rdata := none }

/-- R51: while BUSY = 1 only the engine's commit and a reset can change P, F, C, SIDX, SVAL or ZLATCH, and an issue leaves
all but ZLATCH as they are, so the values Execute reads are those held at the issue. -/
def Obligations.DataHeldWhileBusy : Prop :=
  (∀ s t : State, s.status.busy = true → step s = .next t → ¬s.EngineNext → (∀ rest, s.events ≠ .assertReset :: rest) →
    (∀ a, s.AccessNext a → ¬SoftReset s a) →
    SameData s t ∧ t.zlatch = s.zlatch ∧ t.cmd = s.cmd ∧ t.status.busy = true) ∧
  (∀ (s : State) (v : Word), s.AccessNext (wordAccess s.params 0x10 (.write v)) → s.status.busy = false →
    ∃ t, step s = .next t ∧ SameData s t ∧ t.zlatch = s.ctrl.zeroize ∧ t.cmd = v ∧ t.status.busy = true)

/-- R34, R116: IRQ = CTRL.IE ∧ (DONE ∨ ERR); with IE = 1 it rises at every commit, also of an illegal word; an issue
takes it away, and WERR raises none. -/
def Obligations.IrqFollowsCompletion : Prop :=
  (∀ s : State, irq s = true ↔ s.ctrl.ie = true ∧ (s.status.done = true ∨ s.status.err = true)) ∧
  (∀ s t : State, s.status.busy = true → s.EngineNext → step s = .next t → irq t = s.ctrl.ie) ∧
  (∀ (s t : State) (v : Word), s.AccessNext (wordAccess s.params 0x10 (.write v)) → s.status.busy = false →
    step s = .next t → irq t = false) ∧
  (∀ (s t : State) (a : Access), s.AccessNext a → s.params.BASE ≤ a.addr →
    a.addr < s.params.BASE + 0x40000 → Violation s a → step s = .next t → irq t = irq s)

/-- R48, R49, 93 item 6: a CMD write that races a commit. If the write comes first it is ignored and sets WERR, and the
commit is that of the first command; if the commit comes first, the write issues. -/
def Obligations.CmdWriteRacesCommit : Prop :=
  ∀ (s : State) (i : Instr) (v : Word), s.status.busy = true → s.rstAsserted = false → decode s.cmd = .ok i →
    (∀ rest, s.events = hostWrite s.params 0x10 v :: .engine :: rest →
      Host.Core.run Sys2Proof.core 2 s =
        exec i { s with status := { s.status with werr := true }, events := rest, rdata := none }) ∧
    (∀ rest, s.events = .engine :: hostWrite s.params 0x10 v :: rest → ∃ t u,
      exec i { s with events := rest } = .next t ∧ Host.Core.run Sys2Proof.core 2 s = .next u ∧
      u.cmd = v ∧ u.status.busy = true ∧ SameData t u ∧ u.status.werr = s.status.werr ∧ u.events = rest)

/-- R59: a command in flight completes, however often the host polls STATUS first; the polls cost nothing. -/
def Obligations.PolledCommandCompletes : Prop :=
  ∀ (s : State) (polls : Nat), s.status.busy = true → s.rstAsserted = false →
    s.events = List.replicate polls (hostRead s.params 0x0C) →
    ∃ t, Host.Core.run Sys2Proof.core (polls + 1) s = .next t ∧ t.status.busy = false ∧ t.events = [] ∧
      t.cmd = s.cmd ∧ t.status.werr = s.status.werr

/-! ## Invariants and headline results -/

/-- R35: the reset state meets the invariant, for every choice of the parameters. -/
def Obligations.ResetIsWellFormed : Prop :=
  (∀ p : Params, p.Legal → (State.resetWith p).WF) ∧ State.reset.WF

/-- Every step keeps the invariant (R16, R21, R23, R26 to R29, R127), from every state that meets it, and no step
changes the parameters, so that ID and PARAM read the same for ever (R126). -/
def Obligations.StepKeepsWellFormed : Prop :=
  (∀ s t : State, s.WF → step s = .next t → t.WF) ∧ (∀ s t : State, step s = .next t → t.params = s.params)

/-- R98, R107: two kept slots with the same index and different values make COMBINE fail with NOT_INVERTIBLE. -/
def Obligations.ConflictingSharesAreNotInvertible : Prop :=
  ∀ (rd : FReg) (n j k : Nat) (s : State), 2 ≤ s.P → n ≤ s.params.NSHARE → SharesReduced s n →
    j < n → k < n → readSIDX s j = readSIDX s k → readSVAL s j ≠ readSVAL s k →
    ∃ m, m < n ∧ exec (.combine rd n) s = .next (s.afterError 2 0x11 m)

/-- R102: decomposition. If COMBINE Fd, n completes with no error, then LBASIS Fd, k, n completes with no error for every
k < n, and the COMBINE result is the sum of SVAL[k] * LBASIS(k, n), reduced. -/
def Obligations.CombineDecomposesIntoBasisValues : Prop :=
  ∀ (rd : FReg) (n : Nat) (s t : State), 1 ≤ n → s.status.err = false → exec (.combine rd n) s = .next t →
    t.status.err = false →
    ∃ b : Nat → Nat, (∀ k, k < n → exec (.lbasis rd k n) s = .next (s.afterWriteF rd (b k))) ∧
      readF t rd = (∑ k ∈ Finset.range n, readSVAL s k * b k) % s.P

/-- R100: the order of the slots does not change the result. -/
def Obligations.CombineIgnoresTheOrderOfSlots : Prop :=
  ∀ (rd : FReg) (n : Nat) (s u t : State) (σ : Equiv.Perm Nat), (∀ k, n ≤ k → σ k = k) →
    u.params = s.params → u.P = s.P →
    (∀ k, k < n → readSIDX u k = readSIDX s (σ k) ∧ readSVAL u k = readSVAL s (σ k)) →
    s.status.err = false → exec (.combine rd n) s = .next t → t.status.err = false →
    exec (.combine rd n) u = .next (u.afterWriteF rd (readF t rd))

/-- R104: round trip. P prime; a SPLIT N, T that passes its checks; any m ≥ T of its shares, m ≤ NSHARE, copied into the
slots 0 .. m-1 of any state with the same P and parameters, in any order; then COMBINE Fd, m completes with the C[0]
the SPLIT read, whether or not ZEROIZE cleared the other coefficients. -/
def Obligations.SplitThenCombineRecoversTheSecret : Prop :=
  ∀ (rd : FReg) (n t m : Nat) (s u v : State) (pick : Nat → Nat), s.WF → s.P.Prime → SplitAccepts s n t →
    exec (.split n t) s = .next u → t ≤ m → m ≤ s.params.NSHARE → v.params = s.params → v.P = s.P →
    (∀ k, k < m → pick k < n) → (∀ j k, j < m → k < m → pick j = pick k → j = k) →
    (∀ k, k < m → readSIDX v k = readSIDX u (pick k) ∧ readSVAL v k = readSVAL u (pick k)) →
    exec (.combine rd m) v = .next (v.afterWriteF rd (readC s 0))

/-- R14, R86: for P prime and a non-zero field element, MEXP with the exponent P - 2 commits what MINV commits: the
source's two methods agree. -/
def Obligations.FermatPowerIsTheInverse : Prop :=
  ∀ (rd ra rb : FReg) (s : State), s.P.Prime → readF s ra ≠ 0 → readF s ra < s.P → readF s rb = s.P - 2 →
    ∃ y : Nat, exec (.mexp rd ra rb) s = .next (s.afterWriteF rd y) ∧
      exec (.minv rd ra) s = .next (s.afterWriteF rd y)
end

