-- ==== Sys2Proof/Laws/Arith.lean ====
section
/-! SUPPORT. What the integer functions of Machine/Arith.lean compute: the residue, the power and the inverse are those of
R12, R86 and R14. -/

namespace Sys2Proof.Machine

theorem modInt_lt (a : Int) {m : Nat} (hm : 0 < m) : modInt a m < m := by
  have h0 : (0 : Int) < m := by exact_mod_cast hm
  have h1 := Int.emod_nonneg a (ne_of_gt h0)
  have h2 := Int.emod_lt_of_pos a h0
  unfold modInt
  omega

theorem cast_modInt (a : Int) {m : Nat} (hm : 0 < m) : (modInt a m : Int) = a % m := by
  have h0 : (m : Int) ≠ 0 := by exact_mod_cast hm.ne'
  exact Int.toNat_of_nonneg (Int.emod_nonneg a h0)

/-- The invariant of square and multiply. -/
theorem modPowAux_eq (fuel b e m acc : Nat) (he : e ≤ fuel) (hacc : acc % m = acc) :
    modPowAux fuel b e m acc = acc * b ^ e % m := by
  induction fuel generalizing b e acc with
  | zero =>
    obtain rfl : e = 0 := by omega
    simp [modPowAux, hacc]
  | succ fuel ih =>
    rw [modPowAux]
    split
    · subst e
      simp [hacc]
    · have hsq : (b * b % m) ^ (e / 2) ≡ b ^ (2 * (e / 2)) [MOD m] := by
        rw [pow_mul, pow_two]
        exact (Nat.mod_modEq _ _).pow _
      have hsplit : b ^ e = b ^ (2 * (e / 2)) * b ^ (e % 2) := by
        rw [← pow_add, Nat.div_add_mod]
      split
      · rename_i hodd
        rw [ih _ _ _ (by omega) (Nat.mod_mod _ _), hsplit, hodd]
        calc _ ≡ acc * b * b ^ (2 * (e / 2)) [MOD m] := (Nat.mod_modEq _ _).mul hsq
          _ = acc * (b ^ (2 * (e / 2)) * b ^ 1) := by ring
      · rename_i heven
        rw [ih _ _ _ (by omega) hacc, hsplit, show e % 2 = 0 by omega, pow_zero, mul_one]
        exact hsq.mul_left acc

theorem modPow_eq (b e m : Nat) : modPow b e m = b ^ e % m := by
  rw [modPow, modPowAux_eq _ _ _ _ _ le_rfl (Nat.mod_mod _ _)]
  calc _ ≡ 1 * b ^ e [MOD m] := (Nat.mod_modEq _ _).mul ((Nat.mod_modEq _ _).pow _)
    _ = b ^ e := one_mul _

/-- One round of Euclid's algorithm keeps the congruence of the coefficients. -/
theorem euclid_round {a m r0 r1 t0 t1 : Nat} (hm : 0 < m) (h0 : t0 * a ≡ r0 [MOD m]) (h1 : t1 * a ≡ r1 [MOD m]) :
    (t0 + (m - r0 / r1 * t1 % m)) % m * a ≡ r0 % r1 [MOD m] := by
  have hle : r0 / r1 * t1 % m ≤ m := (Nat.mod_lt _ hm).le
  have hdiv : (r1 : Int) * (r0 / r1 : Nat) + (r0 % r1 : Nat) = r0 := by exact_mod_cast Nat.div_add_mod r0 r1
  rw [← Int.natCast_modEq_iff] at h0 h1 ⊢
  simp only [Nat.cast_mul, Nat.cast_sub hle, Nat.cast_add, Int.natCast_mod] at h0 h1 ⊢
  calc ((t0 : Int) + (m - (r0 / r1 : Nat) * t1 % m)) % m * a
      ≡ (t0 + (m - (r0 / r1 : Nat) * t1)) * a [ZMOD m] :=
        ((Int.mod_modEq _ _).trans ((Int.ModEq.refl _).add ((Int.ModEq.refl _).sub (Int.mod_modEq _ _)))).mul_right _
    _ = t0 * a - (r0 / r1 : Nat) * (t1 * a) + m * a := by ring
    _ ≡ r0 - (r0 / r1 : Nat) * r1 + 0 [ZMOD m] :=
        (h0.sub (h1.mul_left _)).add (Int.modEq_zero_iff_dvd.2 ⟨a, rfl⟩)
    _ = r0 % r1 := by rw [← Int.natCast_mod]; linarith

/-- The invariant of Euclid's algorithm: the coefficient returned takes `a` to the last remainder. -/
theorem modInvAux_spec {a m : Nat} (hm : 0 < m) (fuel r0 r1 t0 t1 : Nat) (hfuel : r1 ≤ fuel)
    (h0 : t0 * a ≡ r0 [MOD m]) (h1 : t1 * a ≡ r1 [MOD m]) (hlt : t0 < m ∧ t1 < m) :
    modInvAux fuel m r0 r1 t0 t1 * a ≡ Nat.gcd r0 r1 [MOD m] ∧ modInvAux fuel m r0 r1 t0 t1 < m := by
  induction fuel generalizing r0 r1 t0 t1 with
  | zero =>
    obtain rfl : r1 = 0 := by omega
    simpa [modInvAux] using ⟨h0, hlt.1⟩
  | succ fuel ih =>
    rw [modInvAux]
    split
    · subst r1
      simpa using ⟨h0, hlt.1⟩
    · have hpos : 0 < r1 := by omega
      rw [Nat.gcd_comm, Nat.gcd_rec, Nat.gcd_comm]
      exact ih _ _ _ _ (by have := Nat.mod_lt r0 hpos; omega) h1 (euclid_round hm h0 h1) ⟨hlt.2, Nat.mod_lt _ hm⟩

theorem modInv_mul_modEq_gcd (a : Nat) {m : Nat} (hm : 0 < m) :
    modInv a m * a ≡ Nat.gcd m (a % m) [MOD m] ∧ modInv a m < m := by
  obtain ⟨h, hlt⟩ := modInvAux_spec (a := a) hm (a % m) m (a % m) 0 (1 % m) le_rfl
    (by simp [Nat.ModEq]) (((Nat.mod_modEq 1 m).mul_right a).trans (by simp [Nat.ModEq])) ⟨hm, Nat.mod_lt _ hm⟩
  exact ⟨h, hlt⟩

theorem modInv_lt (a : Nat) {m : Nat} (hm : 0 < m) : modInv a m < m := (modInv_mul_modEq_gcd a hm).2

/-- inv(a) of R14: it is an inverse of every unit. -/
theorem mul_modInv {a m : Nat} (hm : 2 ≤ m) (hu : Nat.gcd (a % m) m = 1) : a * modInv a m % m = 1 := by
  have h := (modInv_mul_modEq_gcd a (by omega : 0 < m)).1
  rw [Nat.gcd_comm, hu, Nat.ModEq, Nat.mod_eq_of_lt (by omega : 1 < m)] at h
  rwa [mul_comm]

/-- inv(a) of R14: it is the only one below m. -/
theorem modInv_unique {a m y : Nat} (hm : 2 ≤ m) (hy : y < m) (h : a * y % m = 1) : y = modInv a m := by
  have h1 : a * y ≡ 1 [MOD m] := by rw [Nat.ModEq, h, Nat.mod_eq_of_lt (by omega : 1 < m)]
  have hu : Nat.gcd (a % m) m = 1 := by
    rw [← Nat.gcd_rec, Nat.gcd_comm]
    exact Nat.coprime_of_mul_modEq_one y h1
  have h2 : a * modInv a m ≡ 1 [MOD m] := by
    rw [Nat.ModEq, mul_modInv hm hu, Nat.mod_eq_of_lt (by omega : 1 < m)]
  have h3 : y ≡ modInv a m [MOD m] := by
    calc y = 1 * y := (one_mul y).symm
      _ ≡ (a * modInv a m) * y [MOD m] := h2.symm.mul_right y
      _ = (a * y) * modInv a m := by ring
      _ ≡ 1 * modInv a m [MOD m] := h1.mul_right _
      _ = modInv a m := one_mul _
  rwa [Nat.ModEq, Nat.mod_eq_of_lt hy, Nat.mod_eq_of_lt (modInv_lt a (by omega))] at h3

theorem isUnit_iff (a m : Nat) : isUnit a m = true ↔ Nat.gcd (a % m) m = 1 := by simp [isUnit]

theorem sumOver_eq_sum (xs : List Nat) (f : Nat → Nat) : sumOver xs f = (xs.map f).sum := rfl

theorem prodOver_eq_prod (xs : List Nat) (f : Nat → Nat) : prodOver xs f = (xs.map f).prod := rfl

theorem sumOver_range (n : Nat) (f : Nat → Nat) : sumOver (List.range n) f = ∑ i ∈ Finset.range n, f i := by
  induction n with
  | zero => rfl
  | succ n ih => rw [Finset.sum_range_succ, ← ih]; simp [sumOver_eq_sum, List.range_succ]

end Sys2Proof.Machine
end

