-- ==== Sys2Proof/Laws/State.lean ====
section
/-! SUPPORT. What each named update of the state leaves in each field, one lemma per field, true by definition. -/

namespace Sys2Proof.Machine

variable (s : State)

/-! #### writeF -/

@[simp] theorem writeF_params (r : FReg) (v : Nat) : (writeF s r v).params = s.params := rfl
@[simp] theorem writeF_ctrl (r : FReg) (v : Nat) : (writeF s r v).ctrl = s.ctrl := rfl
@[simp] theorem writeF_status (r : FReg) (v : Nat) : (writeF s r v).status = s.status := rfl
@[simp] theorem writeF_cmd (r : FReg) (v : Nat) : (writeF s r v).cmd = s.cmd := rfl
@[simp] theorem writeF_errinfo (r : FReg) (v : Nat) : (writeF s r v).errinfo = s.errinfo := rfl
@[simp] theorem writeF_P (r : FReg) (v : Nat) : (writeF s r v).P = s.P := rfl
@[simp] theorem writeF_F (r : FReg) (v : Nat) : (writeF s r v).F = s.F.set r.val v r.isLt := rfl
@[simp] theorem writeF_C (r : FReg) (v : Nat) : (writeF s r v).C = s.C := rfl
@[simp] theorem writeF_SIDX (r : FReg) (v : Nat) : (writeF s r v).SIDX = s.SIDX := rfl
@[simp] theorem writeF_SVAL (r : FReg) (v : Nat) : (writeF s r v).SVAL = s.SVAL := rfl
@[simp] theorem writeF_zlatch (r : FReg) (v : Nat) : (writeF s r v).zlatch = s.zlatch := rfl
@[simp] theorem writeF_rstAsserted (r : FReg) (v : Nat) : (writeF s r v).rstAsserted = s.rstAsserted := rfl
@[simp] theorem writeF_events (r : FReg) (v : Nat) : (writeF s r v).events = s.events := rfl
@[simp] theorem writeF_rdata (r : FReg) (v : Nat) : (writeF s r v).rdata = s.rdata := rfl
@[simp] theorem writeF_draws (r : FReg) (v : Nat) : (writeF s r v).draws = s.draws := rfl

/-! #### setWerr -/

@[simp] theorem setWerr_params : (setWerr s).params = s.params := rfl
@[simp] theorem setWerr_ctrl : (setWerr s).ctrl = s.ctrl := rfl
@[simp] theorem setWerr_status : (setWerr s).status = { s.status with werr := true } := rfl
@[simp] theorem setWerr_cmd : (setWerr s).cmd = s.cmd := rfl
@[simp] theorem setWerr_errinfo : (setWerr s).errinfo = s.errinfo := rfl
@[simp] theorem setWerr_P : (setWerr s).P = s.P := rfl
@[simp] theorem setWerr_F : (setWerr s).F = s.F := rfl
@[simp] theorem setWerr_C : (setWerr s).C = s.C := rfl
@[simp] theorem setWerr_SIDX : (setWerr s).SIDX = s.SIDX := rfl
@[simp] theorem setWerr_SVAL : (setWerr s).SVAL = s.SVAL := rfl
@[simp] theorem setWerr_zlatch : (setWerr s).zlatch = s.zlatch := rfl
@[simp] theorem setWerr_rstAsserted : (setWerr s).rstAsserted = s.rstAsserted := rfl
@[simp] theorem setWerr_events : (setWerr s).events = s.events := rfl
@[simp] theorem setWerr_rdata : (setWerr s).rdata = s.rdata := rfl
@[simp] theorem setWerr_draws : (setWerr s).draws = s.draws := rfl

/-! #### ackStatus -/

@[simp] theorem ackStatus_params (w : Word) : (ackStatus s w).params = s.params := rfl
@[simp] theorem ackStatus_ctrl (w : Word) : (ackStatus s w).ctrl = s.ctrl := rfl
@[simp] theorem ackStatus_status (w : Word) :
    (ackStatus s w).status =
      { s.status with done := s.status.done && !w.getLsbD 1, err := s.status.err && !w.getLsbD 2, werr := s.status.werr && !w.getLsbD 3 } := rfl
@[simp] theorem ackStatus_cmd (w : Word) : (ackStatus s w).cmd = s.cmd := rfl
@[simp] theorem ackStatus_errinfo (w : Word) : (ackStatus s w).errinfo = s.errinfo := rfl
@[simp] theorem ackStatus_P (w : Word) : (ackStatus s w).P = s.P := rfl
@[simp] theorem ackStatus_F (w : Word) : (ackStatus s w).F = s.F := rfl
@[simp] theorem ackStatus_C (w : Word) : (ackStatus s w).C = s.C := rfl
@[simp] theorem ackStatus_SIDX (w : Word) : (ackStatus s w).SIDX = s.SIDX := rfl
@[simp] theorem ackStatus_SVAL (w : Word) : (ackStatus s w).SVAL = s.SVAL := rfl
@[simp] theorem ackStatus_zlatch (w : Word) : (ackStatus s w).zlatch = s.zlatch := rfl
@[simp] theorem ackStatus_rstAsserted (w : Word) : (ackStatus s w).rstAsserted = s.rstAsserted := rfl
@[simp] theorem ackStatus_events (w : Word) : (ackStatus s w).events = s.events := rfl
@[simp] theorem ackStatus_rdata (w : Word) : (ackStatus s w).rdata = s.rdata := rfl
@[simp] theorem ackStatus_draws (w : Word) : (ackStatus s w).draws = s.draws := rfl

/-! #### commitOk -/

@[simp] theorem commitOk_params : (commitOk s).params = s.params := rfl
@[simp] theorem commitOk_ctrl : (commitOk s).ctrl = s.ctrl := rfl
@[simp] theorem commitOk_status : (commitOk s).status = { s.status with done := true, busy := false } := rfl
@[simp] theorem commitOk_cmd : (commitOk s).cmd = s.cmd := rfl
@[simp] theorem commitOk_errinfo : (commitOk s).errinfo = s.errinfo := rfl
@[simp] theorem commitOk_P : (commitOk s).P = s.P := rfl
@[simp] theorem commitOk_F : (commitOk s).F = s.F := rfl
@[simp] theorem commitOk_C : (commitOk s).C = s.C := rfl
@[simp] theorem commitOk_SIDX : (commitOk s).SIDX = s.SIDX := rfl
@[simp] theorem commitOk_SVAL : (commitOk s).SVAL = s.SVAL := rfl
@[simp] theorem commitOk_zlatch : (commitOk s).zlatch = s.zlatch := rfl
@[simp] theorem commitOk_rstAsserted : (commitOk s).rstAsserted = s.rstAsserted := rfl
@[simp] theorem commitOk_events : (commitOk s).events = s.events := rfl
@[simp] theorem commitOk_rdata : (commitOk s).rdata = s.rdata := rfl
@[simp] theorem commitOk_draws : (commitOk s).draws = s.draws := rfl

/-! #### commitError -/

@[simp] theorem commitError_params (e : CmdError) : (commitError s e).params = s.params := rfl
@[simp] theorem commitError_ctrl (e : CmdError) : (commitError s e).ctrl = s.ctrl := rfl
@[simp] theorem commitError_status (e : CmdError) :
    (commitError s e).status = { s.status with errcode := errCode e, err := true, busy := false } := rfl
@[simp] theorem commitError_cmd (e : CmdError) : (commitError s e).cmd = s.cmd := rfl
@[simp] theorem commitError_errinfo (e : CmdError) : (commitError s e).errinfo = ⟨errReason e, errWhich e⟩ := rfl
@[simp] theorem commitError_P (e : CmdError) : (commitError s e).P = s.P := rfl
@[simp] theorem commitError_F (e : CmdError) : (commitError s e).F = s.F := rfl
@[simp] theorem commitError_C (e : CmdError) : (commitError s e).C = s.C := rfl
@[simp] theorem commitError_SIDX (e : CmdError) : (commitError s e).SIDX = s.SIDX := rfl
@[simp] theorem commitError_SVAL (e : CmdError) : (commitError s e).SVAL = s.SVAL := rfl
@[simp] theorem commitError_zlatch (e : CmdError) : (commitError s e).zlatch = s.zlatch := rfl
@[simp] theorem commitError_rstAsserted (e : CmdError) : (commitError s e).rstAsserted = s.rstAsserted := rfl
@[simp] theorem commitError_events (e : CmdError) : (commitError s e).events = s.events := rfl
@[simp] theorem commitError_rdata (e : CmdError) : (commitError s e).rdata = s.rdata := rfl
@[simp] theorem commitError_draws (e : CmdError) : (commitError s e).draws = s.draws := rfl

/-! #### issue -/

@[simp] theorem issue_params (v : Word) : (issue s v).params = s.params := rfl
@[simp] theorem issue_ctrl (v : Word) : (issue s v).ctrl = s.ctrl := rfl
@[simp] theorem issue_status (v : Word) :
    (issue s v).status = { s.status with done := false, err := false, errcode := 0, busy := true } := rfl
@[simp] theorem issue_cmd (v : Word) : (issue s v).cmd = v := rfl
@[simp] theorem issue_errinfo (v : Word) : (issue s v).errinfo = ⟨0, 0⟩ := rfl
@[simp] theorem issue_P (v : Word) : (issue s v).P = s.P := rfl
@[simp] theorem issue_F (v : Word) : (issue s v).F = s.F := rfl
@[simp] theorem issue_C (v : Word) : (issue s v).C = s.C := rfl
@[simp] theorem issue_SIDX (v : Word) : (issue s v).SIDX = s.SIDX := rfl
@[simp] theorem issue_SVAL (v : Word) : (issue s v).SVAL = s.SVAL := rfl
@[simp] theorem issue_zlatch (v : Word) : (issue s v).zlatch = s.ctrl.zeroize := rfl
@[simp] theorem issue_rstAsserted (v : Word) : (issue s v).rstAsserted = s.rstAsserted := rfl
@[simp] theorem issue_events (v : Word) : (issue s v).events = s.events := rfl
@[simp] theorem issue_rdata (v : Word) : (issue s v).rdata = s.rdata := rfl
@[simp] theorem issue_draws (v : Word) : (issue s v).draws = s.draws := rfl

/-! #### resetBlock -/

@[simp] theorem resetBlock_params : (resetBlock s).params = s.params := rfl
@[simp] theorem resetBlock_ctrl : (resetBlock s).ctrl = ⟨false, true⟩ := rfl
@[simp] theorem resetBlock_status : (resetBlock s).status = ⟨false, false, false, false, 0⟩ := rfl
@[simp] theorem resetBlock_cmd : (resetBlock s).cmd = 0 := rfl
@[simp] theorem resetBlock_errinfo : (resetBlock s).errinfo = ⟨0, 0⟩ := rfl
@[simp] theorem resetBlock_P : (resetBlock s).P = 0 := rfl
@[simp] theorem resetBlock_F : (resetBlock s).F = Vector.replicate 16 0 := rfl
@[simp] theorem resetBlock_C : (resetBlock s).C = List.replicate s.params.NCOEF 0 := rfl
@[simp] theorem resetBlock_SIDX : (resetBlock s).SIDX = List.replicate s.params.NSHARE 0 := rfl
@[simp] theorem resetBlock_SVAL : (resetBlock s).SVAL = List.replicate s.params.NSHARE 0 := rfl
@[simp] theorem resetBlock_zlatch : (resetBlock s).zlatch = false := rfl
@[simp] theorem resetBlock_rstAsserted : (resetBlock s).rstAsserted = s.rstAsserted := rfl
@[simp] theorem resetBlock_events : (resetBlock s).events = s.events := rfl
@[simp] theorem resetBlock_rdata : (resetBlock s).rdata = s.rdata := rfl
@[simp] theorem resetBlock_draws : (resetBlock s).draws = s.draws := rfl

/-! #### answer -/

@[simp] theorem answer_params (w : Word) : (answer s w).params = s.params := rfl
@[simp] theorem answer_ctrl (w : Word) : (answer s w).ctrl = s.ctrl := rfl
@[simp] theorem answer_status (w : Word) : (answer s w).status = s.status := rfl
@[simp] theorem answer_cmd (w : Word) : (answer s w).cmd = s.cmd := rfl
@[simp] theorem answer_errinfo (w : Word) : (answer s w).errinfo = s.errinfo := rfl
@[simp] theorem answer_P (w : Word) : (answer s w).P = s.P := rfl
@[simp] theorem answer_F (w : Word) : (answer s w).F = s.F := rfl
@[simp] theorem answer_C (w : Word) : (answer s w).C = s.C := rfl
@[simp] theorem answer_SIDX (w : Word) : (answer s w).SIDX = s.SIDX := rfl
@[simp] theorem answer_SVAL (w : Word) : (answer s w).SVAL = s.SVAL := rfl
@[simp] theorem answer_zlatch (w : Word) : (answer s w).zlatch = s.zlatch := rfl
@[simp] theorem answer_rstAsserted (w : Word) : (answer s w).rstAsserted = s.rstAsserted := rfl
@[simp] theorem answer_events (w : Word) : (answer s w).events = s.events := rfl
@[simp] theorem answer_rdata (w : Word) : (answer s w).rdata = some w := rfl
@[simp] theorem answer_draws (w : Word) : (answer s w).draws = s.draws := rfl

/-! #### answerFree -/

@[simp] theorem answerFree_params : (answerFree s).params = s.params := rfl
@[simp] theorem answerFree_ctrl : (answerFree s).ctrl = s.ctrl := rfl
@[simp] theorem answerFree_status : (answerFree s).status = s.status := rfl
@[simp] theorem answerFree_cmd : (answerFree s).cmd = s.cmd := rfl
@[simp] theorem answerFree_errinfo : (answerFree s).errinfo = s.errinfo := rfl
@[simp] theorem answerFree_P : (answerFree s).P = s.P := rfl
@[simp] theorem answerFree_F : (answerFree s).F = s.F := rfl
@[simp] theorem answerFree_C : (answerFree s).C = s.C := rfl
@[simp] theorem answerFree_SIDX : (answerFree s).SIDX = s.SIDX := rfl
@[simp] theorem answerFree_SVAL : (answerFree s).SVAL = s.SVAL := rfl
@[simp] theorem answerFree_zlatch : (answerFree s).zlatch = s.zlatch := rfl
@[simp] theorem answerFree_rstAsserted : (answerFree s).rstAsserted = s.rstAsserted := rfl
@[simp] theorem answerFree_events : (answerFree s).events = s.events := rfl
@[simp] theorem answerFree_rdata : (answerFree s).rdata = some (Config.freeWord s.draws) := rfl
@[simp] theorem answerFree_draws : (answerFree s).draws = s.draws + 1 := rfl

/-! #### writeShares -/

@[simp] theorem writeShares_params (n t : Nat) : (writeShares s n t).params = s.params := rfl
@[simp] theorem writeShares_ctrl (n t : Nat) : (writeShares s n t).ctrl = s.ctrl := rfl
@[simp] theorem writeShares_status (n t : Nat) : (writeShares s n t).status = s.status := rfl
@[simp] theorem writeShares_cmd (n t : Nat) : (writeShares s n t).cmd = s.cmd := rfl
@[simp] theorem writeShares_errinfo (n t : Nat) : (writeShares s n t).errinfo = s.errinfo := rfl
@[simp] theorem writeShares_P (n t : Nat) : (writeShares s n t).P = s.P := rfl
@[simp] theorem writeShares_F (n t : Nat) : (writeShares s n t).F = s.F := rfl
@[simp] theorem writeShares_C (n t : Nat) : (writeShares s n t).C = s.C := rfl
@[simp] theorem writeShares_SIDX (n t : Nat) :
    (writeShares s n t).SIDX = fill 0 n (fun k => BitVec.ofNat 32 k) s.SIDX := rfl
@[simp] theorem writeShares_SVAL (n t : Nat) :
    (writeShares s n t).SVAL = fill 0 n (fun k => polyval s t (k + 1)) s.SVAL := rfl
@[simp] theorem writeShares_zlatch (n t : Nat) : (writeShares s n t).zlatch = s.zlatch := rfl
@[simp] theorem writeShares_rstAsserted (n t : Nat) : (writeShares s n t).rstAsserted = s.rstAsserted := rfl
@[simp] theorem writeShares_events (n t : Nat) : (writeShares s n t).events = s.events := rfl
@[simp] theorem writeShares_rdata (n t : Nat) : (writeShares s n t).rdata = s.rdata := rfl
@[simp] theorem writeShares_draws (n t : Nat) : (writeShares s n t).draws = s.draws := rfl

/-! #### releaseReset -/

@[simp] theorem releaseReset_params : (releaseReset s).params = s.params := rfl
@[simp] theorem releaseReset_ctrl : (releaseReset s).ctrl = s.ctrl := rfl
@[simp] theorem releaseReset_status : (releaseReset s).status = s.status := rfl
@[simp] theorem releaseReset_cmd : (releaseReset s).cmd = s.cmd := rfl
@[simp] theorem releaseReset_errinfo : (releaseReset s).errinfo = s.errinfo := rfl
@[simp] theorem releaseReset_P : (releaseReset s).P = s.P := rfl
@[simp] theorem releaseReset_F : (releaseReset s).F = s.F := rfl
@[simp] theorem releaseReset_C : (releaseReset s).C = s.C := rfl
@[simp] theorem releaseReset_SIDX : (releaseReset s).SIDX = s.SIDX := rfl
@[simp] theorem releaseReset_SVAL : (releaseReset s).SVAL = s.SVAL := rfl
@[simp] theorem releaseReset_zlatch : (releaseReset s).zlatch = s.zlatch := rfl
@[simp] theorem releaseReset_rstAsserted : (releaseReset s).rstAsserted = false := rfl
@[simp] theorem releaseReset_events : (releaseReset s).events = s.events := rfl
@[simp] theorem releaseReset_rdata : (releaseReset s).rdata = s.rdata := rfl
@[simp] theorem releaseReset_draws : (releaseReset s).draws = s.draws := rfl

/-! #### setDataWord -/

@[simp] theorem setDataWord_params (r : DataReg) (i : Nat) (w : Word) : (setDataWord s r i w).params = s.params := by
  cases r <;> rfl
@[simp] theorem setDataWord_ctrl (r : DataReg) (i : Nat) (w : Word) : (setDataWord s r i w).ctrl = s.ctrl := by
  cases r <;> rfl
@[simp] theorem setDataWord_status (r : DataReg) (i : Nat) (w : Word) : (setDataWord s r i w).status = s.status := by
  cases r <;> rfl
@[simp] theorem setDataWord_cmd (r : DataReg) (i : Nat) (w : Word) : (setDataWord s r i w).cmd = s.cmd := by
  cases r <;> rfl
@[simp] theorem setDataWord_errinfo (r : DataReg) (i : Nat) (w : Word) : (setDataWord s r i w).errinfo = s.errinfo := by
  cases r <;> rfl
@[simp] theorem setDataWord_zlatch (r : DataReg) (i : Nat) (w : Word) : (setDataWord s r i w).zlatch = s.zlatch := by
  cases r <;> rfl
@[simp] theorem setDataWord_rstAsserted (r : DataReg) (i : Nat) (w : Word) : (setDataWord s r i w).rstAsserted = s.rstAsserted := by
  cases r <;> rfl
@[simp] theorem setDataWord_events (r : DataReg) (i : Nat) (w : Word) : (setDataWord s r i w).events = s.events := by
  cases r <;> rfl
@[simp] theorem setDataWord_rdata (r : DataReg) (i : Nat) (w : Word) : (setDataWord s r i w).rdata = s.rdata := by
  cases r <;> rfl
@[simp] theorem setDataWord_draws (r : DataReg) (i : Nat) (w : Word) : (setDataWord s r i w).draws = s.draws := by
  cases r <;> rfl

/-! #### zeroizeCoefs -/

@[simp] theorem zeroizeCoefs_C (t : Nat) :
    (zeroizeCoefs s t).C = if s.zlatch then fill 1 t (fun _ => 0) s.C else s.C := by
  unfold zeroizeCoefs; split <;> rfl

/-- SPLIT's zeroize changes the coefficients only. -/
theorem zeroizeCoefs_eq (t : Nat) : zeroizeCoefs s t = { s with C := (zeroizeCoefs s t).C } := by
  unfold zeroizeCoefs; split <;> rfl

/-! #### Reading a field register -/

@[simp] theorem readF_writeF_same (r : FReg) (v : Nat) : readF (writeF s r v) r = v := by
  simp [readF]

@[simp] theorem readF_writeF_other {r q : FReg} (h : q ≠ r) (v : Nat) : readF (writeF s r v) q = readF s q := by
  have hne : r.val ≠ q.val := fun e => h (Fin.ext e.symm)
  simp [readF, hne]

@[simp] theorem readF_commitOk (r : FReg) : readF (commitOk s) r = readF s r := rfl
@[simp] theorem readF_commitError (e : CmdError) (r : FReg) : readF (commitError s e) r = readF s r := rfl

end Sys2Proof.Machine
end

