-- ==== Sys2Proof/Laws/Ops.lean ====
section
/-! SUPPORT. One lemma, or a few, for each shared operation, saying everything it does: filling an array, the words of an
element, the list of checks and the commit, the checks themselves, the effective share set. -/

namespace Sys2Proof.Machine

/-! ### Filling an array -/

section Fill
variable {α : Type} (f : Nat → α)

theorem fillFrom_getElem? (k lo hi i : Nat) (xs : List α) :
    (fillFrom k lo hi f xs)[i]? =
      if lo ≤ k + i ∧ k + i < hi then xs[i]?.map (fun _ => f (k + i)) else xs[i]? := by
  induction xs generalizing k i with
  | nil => simp [fillFrom]
  | cons x xs ih =>
    cases i with
    | zero => simp only [fillFrom, List.getElem?_cons_zero, Nat.add_zero, Option.map_some]; split <;> rfl
    | succ i =>
      simp only [fillFrom, List.getElem?_cons_succ, ih]
      rw [show k + 1 + i = k + (i + 1) by omega]

@[simp] theorem fill_length (lo hi : Nat) (xs : List α) : (fill lo hi f xs).length = xs.length := by
  have h (k : Nat) : (fillFrom k lo hi f xs).length = xs.length := by
    induction xs generalizing k with
    | nil => rfl
    | cons x xs ih => simp [fillFrom, ih]
  exact h 0

/-- A filled position holds its value. -/
theorem fill_getD_inside {lo hi i : Nat} {xs : List α} (d : α) (hlo : lo ≤ i) (hhi : i < hi) (hi' : i < xs.length) :
    (fill lo hi f xs).getD i d = f i := by
  rw [List.getD_eq_getElem?_getD, fill, fillFrom_getElem?]
  simp [hlo, hhi, hi']

/-- Every other position is unchanged. -/
theorem fill_getD_outside {lo hi i : Nat} (xs : List α) (d : α) (h : ¬(lo ≤ i ∧ i < hi)) :
    (fill lo hi f xs).getD i d = xs.getD i d := by
  rw [List.getD_eq_getElem?_getD, fill, fillFrom_getElem?]
  simp [h, List.getD_eq_getElem?_getD]

/-- What holds of the new values and of the old ones holds of the filled array. -/
theorem forall_mem_fill {p : α → Prop} {lo hi : Nat} {xs : List α} (hf : ∀ i, lo ≤ i → i < hi → p (f i))
    (hxs : ∀ x ∈ xs, p x) : ∀ x ∈ fill lo hi f xs, p x := by
  intro x hx
  obtain ⟨i, hi⟩ := List.mem_iff_getElem?.1 hx
  rw [fill, fillFrom_getElem?] at hi
  split at hi
  · rename_i h
    obtain ⟨y, -, rfl⟩ := Option.map_eq_some_iff.1 hi
    simpa using hf _ h.1 h.2
  · exact hxs x (List.mem_iff_getElem?.2 ⟨i, hi⟩)

end Fill

/-! ### The words of an element (R39) -/

/-- Bit b of word i is bit 32 i + b of the element. -/
theorem elemWord_getLsbD (v i b : Nat) : (elemWord v i).getLsbD b = (decide (b < 32) && v.testBit (32 * i + b)) := by
  simp [elemWord, BitVec.getLsbD_ofNat, Nat.testBit_shiftRight]

/-- The bits of an element with one word replaced. -/
theorem setElemWord_testBit (v i : Nat) (w : Word) (b : Nat) :
    (setElemWord v i w).testBit b =
      if 32 * i ≤ b ∧ b < 32 * (i + 1) then w.getLsbD (b - 32 * i) else v.testBit b := by
  have hlow : v % 2 ^ (32 * i) < 2 ^ (32 * i) := Nat.mod_lt _ (by positivity)
  have hw : w.toNat < 2 ^ 32 := w.isLt
  have hmid : v % 2 ^ (32 * i) + w.toNat * 2 ^ (32 * i) < 2 ^ (32 * (i + 1)) := by
    have : 2 ^ (32 * (i + 1)) = 2 ^ (32 * i) * 2 ^ 32 := by rw [← pow_add]; ring_nf
    rw [this]
    calc _ < 2 ^ (32 * i) + w.toNat * 2 ^ (32 * i) := by omega
      _ = 2 ^ (32 * i) * (w.toNat + 1) := by ring
      _ ≤ _ := Nat.mul_le_mul_left _ hw
  rw [setElemWord, Nat.shiftLeft_eq, Nat.shiftLeft_eq, add_assoc, add_comm (_ * _) (v % _),
    mul_comm _ (2 ^ (32 * (i + 1))), Nat.testBit_two_pow_mul_add _ hmid, add_comm (v % _), mul_comm _ (2 ^ (32 * i)),
    Nat.testBit_two_pow_mul_add _ hlow, Nat.testBit_shiftRight, Nat.testBit_mod_two_pow]
  by_cases h1 : b < 32 * i
  · simp [h1, show b < 32 * (i + 1) by omega, show ¬32 * i ≤ b by omega]
  · by_cases h2 : b < 32 * (i + 1)
    · simp [h1, h2, show 32 * i ≤ b by omega, BitVec.testBit_toNat]
    · simp [h2, show 32 * (i + 1) + (b - 32 * (i + 1)) = b by omega]

/-- Reading the word just written. -/
@[simp] theorem elemWord_setElemWord_same (v i : Nat) (w : Word) : elemWord (setElemWord v i w) i = w := by
  apply BitVec.eq_of_getLsbD_eq
  intro b hb
  rw [elemWord_getLsbD, setElemWord_testBit]
  simp [hb, show 32 * i + b < 32 * (i + 1) by omega]

/-- Writing a word leaves the other words. -/
theorem elemWord_setElemWord_other {i j : Nat} (h : j ≠ i) (v : Nat) (w : Word) :
    elemWord (setElemWord v i w) j = elemWord v j := by
  apply BitVec.eq_of_getLsbD_eq
  intro b hb
  rw [elemWord_getLsbD, elemWord_getLsbD, setElemWord_testBit]
  have : ¬(32 * i ≤ 32 * j + b ∧ 32 * j + b < 32 * (i + 1)) := by omega
  simp [this]

/-- Writing a word of a W-bit value gives a W-bit value. -/
theorem setElemWord_lt {v i W : Nat} (hv : v < 2 ^ W) (hi : 32 * (i + 1) ≤ W) (w : Word) :
    setElemWord v i w < 2 ^ W := by
  apply Nat.lt_pow_two_of_testBit
  intro b hb
  rw [setElemWord_testBit]
  have : ¬(32 * i ≤ b ∧ b < 32 * (i + 1)) := by omega
  simp [this, Nat.testBit_lt_two_pow (lt_of_lt_of_le hv (Nat.pow_le_pow_right (by norm_num) hb))]

/-- A value of n words is determined by them. -/
theorem elem_ext {u v n : Nat} (hu : u < 2 ^ (32 * n)) (hv : v < 2 ^ (32 * n))
    (h : ∀ i, i < n → elemWord u i = elemWord v i) : u = v := by
  apply Nat.eq_of_testBit_eq
  intro b
  by_cases hb : b < 32 * n
  · have hw := congrArg (fun w : Word => w.getLsbD (b % 32)) (h (b / 32) (by omega))
    simp only [elemWord_getLsbD, Nat.div_add_mod, Nat.mod_lt b (show 32 > 0 by norm_num), decide_true,
      Bool.true_and] at hw
    exact hw
  · have hp : 2 ^ (32 * n) ≤ 2 ^ b := Nat.pow_le_pow_right (by norm_num) (by omega)
    rw [Nat.testBit_lt_two_pow (by omega), Nat.testBit_lt_two_pow (by omega)]

/-! ### Checks and commit (R52, R113) -/

@[simp] theorem firstError_nil : firstError [] = none := rfl
@[simp] theorem firstError_some (e : CmdError) (cs : List (Option CmdError)) : firstError (some e :: cs) = some e := rfl
@[simp] theorem firstError_none (cs : List (Option CmdError)) : firstError (none :: cs) = firstError cs := rfl

/-- No error is reported exactly when every check passes. -/
theorem firstError_eq_none {cs : List (Option CmdError)} : firstError cs = none ↔ ∀ c ∈ cs, c = none := by
  induction cs with
  | nil => simp
  | cons c cs ih => cases c <;> simp [ih]

/-- The error reported is one a check of the list raises. -/
theorem firstError_mem {cs : List (Option CmdError)} {e : CmdError} (h : firstError cs = some e) : some e ∈ cs := by
  induction cs with
  | nil => simp at h
  | cons c cs ih =>
    cases c with
    | none => exact List.mem_cons_of_mem _ (ih h)
    | some e' => simp at h; simp [h]

/-- Execute and commit always answers a next state, one of two. -/
theorem complete_cases {s t u : State} {cs : List (Option CmdError)} (h : complete s cs t = .next u) :
    (∃ e, some e ∈ cs ∧ firstError cs = some e ∧ u = commitError s e) ∨
    ((∀ c ∈ cs, c = none) ∧ u = commitOk t) := by
  unfold complete at h
  split at h
  · rename_i e he
    cases h
    exact .inl ⟨e, firstError_mem he, he, rfl⟩
  · rename_i hn
    cases h
    exact .inr ⟨firstError_eq_none.1 hn, rfl⟩

theorem complete_of_pass {s t : State} {cs : List (Option CmdError)} (h : ∀ c ∈ cs, c = none) :
    complete s cs t = .next (commitOk t) := by
  rw [complete, firstError_eq_none.2 h]

theorem complete_of_error {s t : State} {cs : List (Option CmdError)} {e : CmdError} (h : firstError cs = some e) :
    complete s cs t = .next (commitError s e) := by
  rw [complete, h]

/-! ### The checks -/

theorem checkModulus_eq_none {s : State} : checkModulus s = none ↔ 2 ≤ s.P := by
  unfold checkModulus; split <;> simp <;> omega

theorem checkReduced_eq_none {s : State} {r : FReg} : checkReduced s r = none ↔ readF s r < s.P := by
  unfold checkReduced; split <;> simp <;> omega

theorem checkCount_eq_none {b : Bool} {c : CountRange} : checkCount b c = none ↔ b = false := by
  cases b <;> simp [checkCount]

theorem checkUnit_eq_none {s : State} {r : FReg} : checkUnit s r = none ↔ isUnit (readF s r) s.P = true := by
  unfold checkUnit; split <;> simp_all

theorem checkCoefs_eq_none {s : State} {t : Nat} : checkCoefs s t = none ↔ ∀ j, j < t → readC s j < s.P := by
  simp [checkCoefs, List.findSome?_eq_none_iff]

theorem checkShares_eq_none {s : State} {n : Nat} : checkShares s n = none ↔ ∀ k, k < n → readSVAL s k < s.P := by
  simp [checkShares, List.findSome?_eq_none_iff]

/-- A search over 0 .. n-1 answers at the lowest number that has an answer. -/
theorem findSome?_range_lowest {α : Type} {n j : Nat} {g : Nat → Option α} {a : α} (hj : j < n) (ha : g j = some a)
    (hlow : ∀ i, i < j → g i = none) : (List.range n).findSome? g = some a := by
  obtain ⟨m, rfl⟩ : ∃ m, n = j + 1 + m := ⟨n - (j + 1), by omega⟩
  rw [List.range_add, List.range_succ, List.findSome?_append, List.findSome?_append,
    List.findSome?_eq_none_iff.2 (by simpa using hlow)]
  simp [ha]

theorem checkCoefs_lowest {s : State} {t j : Nat} (hj : j < t) (h : s.P ≤ readC s j)
    (hlow : ∀ i, i < j → readC s i < s.P) : checkCoefs s t = some (.coefRange j) :=
  findSome?_range_lowest hj (if_pos h) fun i hi => if_neg (by have := hlow i hi; omega)

theorem checkShares_lowest {s : State} {n k : Nat} (hk : k < n) (h : s.P ≤ readSVAL s k)
    (hlow : ∀ i, i < k → readSVAL s i < s.P) : checkShares s n = some (.shareRange k) :=
  findSome?_range_lowest hk (if_pos h) fun i hi => if_neg (by have := hlow i hi; omega)

/-! ### The effective share set (R98) -/

theorem isDuplicate_iff {s : State} {k : Nat} :
    isDuplicate s k = true ↔ ∃ j, j < k ∧ readSIDX s j = readSIDX s k ∧ readSVAL s j = readSVAL s k := by
  simp [isDuplicate, List.any_eq_true]

theorem mem_effective {s : State} {n k : Nat} : k ∈ effective s n ↔ k < n ∧ isDuplicate s k = false := by
  simp [effective, List.mem_filter]

theorem effective_nodup (s : State) (n : Nat) : (effective s n).Nodup := List.nodup_range.filter _

theorem others_nodup (s : State) (n k : Nat) : (others s n k).Nodup := (effective_nodup s n).filter _

theorem mem_others {s : State} {n k j : Nat} : j ∈ others s n k ↔ j ∈ effective s n ∧ j ≠ k := by
  simp [others, List.mem_filter]

/-! ### Results are residues (R12) -/

theorem polyval_lt {s : State} (h : 0 < s.P) (t x : Nat) : polyval s t x < s.P := Nat.mod_lt _ h

theorem lagrange_lt {s : State} (h : 0 < s.P) (n k : Nat) : lagrange s n k < s.P := Nat.mod_lt _ h

theorem combineSum_lt {s : State} (h : 0 < s.P) (n : Nat) : combineSum s n < s.P := by
  have key (xs : List Nat) (acc : Nat) (hacc : acc < s.P) :
      xs.foldl (fun acc k => (acc + readSVAL s k * lagrange s n k) % s.P) acc < s.P := by
    induction xs generalizing acc with
    | nil => exact hacc
    | cons x xs ih => exact ih _ (Nat.mod_lt _ h)
  exact key _ _ h

/-- The accumulation of COMBINE is the sum of the terms, reduced. -/
theorem combineSum_eq {s : State} (n : Nat) :
    combineSum s n = ((effective s n).map fun k => readSVAL s k * lagrange s n k).sum % s.P := by
  have key (xs : List Nat) (acc : Nat) :
      xs.foldl (fun acc k => (acc + readSVAL s k * lagrange s n k) % s.P) acc % s.P =
        (acc + (xs.map fun k => readSVAL s k * lagrange s n k).sum) % s.P := by
    induction xs generalizing acc with
    | nil => simp
    | cons x xs ih => simp [ih, Nat.add_assoc]
  have hmod : combineSum s n % s.P = combineSum s n := by
    unfold combineSum
    rcases List.eq_nil_or_concat (effective s n) with h | ⟨xs, x, h⟩
    · simp [h]
    · simp [h]
  rw [← hmod, combineSum, key, Nat.zero_add]

end Sys2Proof.Machine
end

