-- ==== Sys2Proof/Laws/Exec.lean ====
section
/-! SUPPORT. What a command can do, said once: every meaning is a list of checks and a set of writes, handed to `complete`;
so a command ends in one of two ways, and its writes touch F, C and the share buffer only. -/

namespace Sys2Proof.Machine

/-- The checks of a command, in the order of its pseudocode. -/
def checksOf : Instr → State → List (Option CmdError)
  | .nop, _ => []
  | .madd _ ra rb, s => checksTwoSources s ra rb
  | .msub _ ra rb, s => checksTwoSources s ra rb
  | .mmul _ ra rb, s => checksTwoSources s ra rb
  | .mneg _ ra, s => [checkModulus s, checkReduced s ra]
  | .minv _ ra, s => [checkModulus s, checkReduced s ra, checkUnit s ra]
  | .mexp _ ra rb, s => checksTwoSources s ra rb
  | .mmov _ _, _ => []
  | .mldi _ _, s => [checkModulus s]
  | .peval _ ra t, s =>
    [checkModulus s, checkCount (t < 1) .tBelowOne, checkCount (s.params.NCOEF < t) .tAboveNcoef,
      checkReduced s ra, checkCoefs s t]
  | .split n t, s =>
    [checkModulus s, checkCount (t < 1) .tBelowOne, checkCount (n < 1) .nBelowOne, checkCount (n < t) .tAboveN,
      checkCount (s.params.NCOEF < t) .tAboveNcoef, checkCount (s.params.NSHARE < n) .nAboveNshare,
      checkCount (s.P ≤ n) .nNotBelowP, checkCoefs s t]
  | .combine _ n, s =>
    [checkModulus s, checkCount (s.params.NSHARE < n) .nAboveNshare, checkShares s n, checkDens s n]
  | .lbasis _ k n, s =>
    [checkModulus s, checkCount (n < 1) .nBelowOne, checkCount (s.params.NSHARE < n) .nAboveNshare,
      checkCount (n ≤ k) .kNotBelowN, checkShares s n, if isDuplicate s k then none else checkDen s n k]

/-- The state with a command's writes. -/
def writesOf : Instr → State → State
  | .nop, s => s
  | .madd rd ra rb, s => writeF s rd ((readF s ra + readF s rb) % s.P)
  | .msub rd ra rb, s => writeF s rd (modInt ((readF s ra : Int) - (readF s rb : Int)) s.P)
  | .mmul rd ra rb, s => writeF s rd (readF s ra * readF s rb % s.P)
  | .mneg rd ra, s => writeF s rd (modInt (0 - (readF s ra : Int)) s.P)
  | .minv rd ra, s => writeF s rd (modInv (readF s ra) s.P)
  | .mexp rd ra rb, s => writeF s rd (modPow (readF s ra) (readF s rb) s.P)
  | .mmov rd ra, s => writeF s rd (readF s ra)
  | .mldi rd imm, s => writeF s rd (imm % s.P)
  | .peval rd ra t, s => writeF s rd (polyval s t (readF s ra))
  | .split n t, s => zeroizeCoefs (writeShares s n t) t
  | .combine rd n, s => writeF s rd (combineSum s n)
  | .lbasis rd k n, s => writeF s rd (lbasisValue s n k)

theorem exec_eq_complete (i : Instr) (s : State) : exec i s = complete s (checksOf i s) (writesOf i s) := by
  cases i <;> rfl

/-- Every command commits, in every state (R52, R109). -/
theorem exec_next (i : Instr) (s : State) : ∃ t, exec i s = .next t := by
  rw [exec_eq_complete, complete]
  split <;> exact ⟨_, rfl⟩

/-- The two ways a command ends. -/
theorem exec_inversion {i : Instr} {s t : State} (h : exec i s = .next t) :
    (∃ e, some e ∈ checksOf i s ∧ t = commitError s e) ∨
    ((∀ c ∈ checksOf i s, c = none) ∧ t = commitOk (writesOf i s)) := by
  rw [exec_eq_complete] at h
  rcases complete_cases h with ⟨e, hm, -, rfl⟩ | h
  · exact .inl ⟨e, hm, rfl⟩
  · exact .inr h

/-- A command writes F, C, SIDX and SVAL only. -/
theorem writesOf_eq (i : Instr) (s : State) :
    writesOf i s =
      { s with
        F := (writesOf i s).F, C := (writesOf i s).C, SIDX := (writesOf i s).SIDX, SVAL := (writesOf i s).SVAL } := by
  cases i <;> first | rfl | (rw [writesOf, zeroizeCoefs_eq]; rfl)

/-- The errors each check can raise. -/
theorem checkModulus_eq_some {s : State} {e : CmdError} (h : checkModulus s = some e) : e = .modulusTooSmall := by
  unfold checkModulus at h; split at h <;> simp_all

theorem checkReduced_eq_some {s : State} {r : FReg} {e : CmdError} (h : checkReduced s r = some e) :
    e = .operandRange r := by
  unfold checkReduced at h; split at h <;> simp_all

theorem checkCount_eq_some {b : Bool} {c : CountRange} {e : CmdError} (h : checkCount b c = some e) :
    e = .countRange c := by
  unfold checkCount at h; split at h <;> simp_all

theorem checkUnit_eq_some {s : State} {r : FReg} {e : CmdError} (h : checkUnit s r = some e) :
    e = .invNonunit r := by
  unfold checkUnit at h; split at h <;> simp_all

theorem checkCoefs_eq_some {s : State} {t : Nat} {e : CmdError} (h : checkCoefs s t = some e) :
    ∃ j, j < t ∧ e = .coefRange j := by
  obtain ⟨j, hj, h⟩ := List.exists_of_findSome?_eq_some h
  split at h
  · exact ⟨j, by simpa using hj, by simpa using h.symm⟩
  · cases h

theorem checkShares_eq_some {s : State} {n : Nat} {e : CmdError} (h : checkShares s n = some e) :
    ∃ k, k < n ∧ e = .shareRange k := by
  obtain ⟨k, hk, h⟩ := List.exists_of_findSome?_eq_some h
  split at h
  · exact ⟨k, by simpa using hk, by simpa using h.symm⟩
  · cases h

theorem checkDen_eq_some {s : State} {n k : Nat} {e : CmdError} (h : checkDen s n k = some e) :
    e = .denNonunit k := by
  unfold checkDen at h; split at h <;> simp_all

theorem checkDens_eq_some {s : State} {n : Nat} {e : CmdError} (h : checkDens s n = some e) :
    ∃ k, k < n ∧ e = .denNonunit k := by
  obtain ⟨k, hk, h⟩ := List.exists_of_findSome?_eq_some h
  exact ⟨k, (mem_effective.1 hk).1, checkDen_eq_some h⟩

end Sys2Proof.Machine
end

