-- ==== Sys2Proof/Laws/Step.lean ====
section
/-! SUPPORT. What a step can do, said once: the cases of the engine's turn, of a host access and of a step; and the map of
the window. -/

namespace Sys2Proof.Machine

/-- The engine's turn: nothing, the meaning of the decoded command, or the error of an illegal word. -/
theorem engineTurn_inversion {s t : State} (h : engineTurn s = .next t) :
    (s.status.busy = false ∧ t = s) ∨
    (s.status.busy = true ∧ ∃ i, decode s.cmd = .ok i ∧ exec i s = .next t) ∨
    (s.status.busy = true ∧ ∃ e, decode s.cmd = .error e ∧ t = commitError s (illegalCommand e)) := by
  unfold engineTurn at h
  split at h
  · rename_i hb
    split at h
    · rename_i i hd
      exact .inr (.inl ⟨hb, i, hd, h⟩)
    · rename_i e hd
      cases h
      exact .inr (.inr ⟨hb, e, hd, rfl⟩)
  · rename_i hb
    cases h
    exact .inl ⟨by simpa using hb, rfl⟩

/-- The engine's turn is never refused. -/
theorem engineTurn_next (s : State) : ∃ t, engineTurn s = .next t := by
  unfold engineTurn
  split
  · split
    · exact exec_next _ _
    · exact ⟨_, rfl⟩
  · exact ⟨_, rfl⟩

/-- The targets of the map are disjoint ranges of offsets: below 0x1000, and seven ranges above it (R38). -/
theorem windowMap_cases (p : Params) (off : Nat) :
    (off < 0x01000 ∧ windowMap p off = ctlMap off) ∨
    (0x01000 ≤ off ∧ off < 0x01200 ∧ windowMap p off = slotTarget p .modulus (off - 0x01000)) ∨
    (0x02000 ≤ off ∧ off < 0x04000 ∧
      windowMap p off = slotTarget p (.field (Fin.ofNat 16 ((off - 0x02000) / 0x200))) (off - 0x02000)) ∨
    (0x04000 ≤ off ∧ off < 0x0C000 ∧ windowMap p off = coefMap p (off - 0x04000)) ∨
    (0x0C000 ≤ off ∧ off < 0x0C400 ∧ windowMap p off = indexMap p (off - 0x0C000)) ∨
    (0x10000 ≤ off ∧ off < 0x30000 ∧ windowMap p off = shareMap p (off - 0x10000)) ∨
    ((0x01200 ≤ off ∧ off < 0x02000 ∨ 0x0C400 ≤ off ∧ off < 0x10000 ∨ 0x30000 ≤ off) ∧
      windowMap p off = .reserved) := by
  by_cases h1 : off < 0x01000
  · simp [windowMap, h1]
  by_cases h2 : off < 0x01200
  · simp [windowMap, h1, h2]; omega
  by_cases h3 : off < 0x02000
  · simp [windowMap, h1, h2, h3]; omega
  by_cases h4 : off < 0x04000
  · simp [windowMap, h1, h2, h3, h4]; omega
  by_cases h5 : off < 0x0C000
  · simp [windowMap, h1, h2, h3, h4, h5]; omega
  by_cases h6 : off < 0x0C400
  · simp [windowMap, h1, h2, h3, h4, h5, h6]; omega
  by_cases h7 : off < 0x10000
  · simp [windowMap, h1, h2, h3, h4, h5, h6, h7]; omega
  by_cases h8 : off < 0x30000
  · simp [windowMap, h1, h2, h3, h4, h5, h6, h7, h8]; omega
  · simp [windowMap, h1, h2, h3, h4, h5, h6, h7, h8]; omega

theorem slotTarget_cases (p : Params) (r : DataReg) (off : Nat) :
    (off % 0x200 / 4 < p.W / 32 ∧ slotTarget p r off = .data r (off % 0x200 / 4)) ∨
    (p.W / 32 ≤ off % 0x200 / 4 ∧ slotTarget p r off = .reserved) := by
  unfold slotTarget
  split
  · exact .inl ⟨‹_›, rfl⟩
  · exact .inr ⟨by omega, rfl⟩

/-- The offset of a control register, R38. -/
def ctlOffset : CtlReg → Nat
  | .id => 0x00
  | .param => 0x04
  | .ctrl => 0x08
  | .status => 0x0C
  | .cmd => 0x10
  | .errinfo => 0x14

theorem ctlMap_cases (off : Nat) :
    (∃ r, off = ctlOffset r ∧ ctlMap off = .ctl r) ∨ ((∀ r, off ≠ ctlOffset r) ∧ ctlMap off = .reserved) := by
  unfold ctlMap
  by_cases h0 : off = 0
  · exact .inl ⟨.id, h0, by simp [h0]⟩
  by_cases h4 : off = 4
  · exact .inl ⟨.param, h4, by simp [h4]⟩
  by_cases h8 : off = 8
  · exact .inl ⟨.ctrl, h8, by simp [h8]⟩
  by_cases hc : off = 0xC
  · exact .inl ⟨.status, hc, by simp [hc]⟩
  by_cases hm : off = 0x10
  · exact .inl ⟨.cmd, hm, by simp [hm]⟩
  by_cases he : off = 0x14
  · exact .inl ⟨.errinfo, he, by simp [he]⟩
  · exact .inr ⟨fun r => by cases r <;> simpa [ctlOffset], by simp [h0, h4, h8, hc, hm, he]⟩

/-- The map names a control register at its own offset only, R38. -/
theorem windowMap_ctl {p : Params} {off : Nat} {r : CtlReg} (h : windowMap p off = .ctl r) : off = ctlOffset r := by
  have slot (q : DataReg) (o : Nat) (hs : slotTarget p q o = .ctl r) : False := by
    rcases slotTarget_cases p q o with ⟨-, h⟩ | ⟨-, h⟩ <;> rw [h] at hs <;> cases hs
  rcases windowMap_cases p off with ⟨-, e⟩ | ⟨-, -, e⟩ | ⟨-, -, e⟩ | ⟨-, -, e⟩ | ⟨-, -, e⟩ | ⟨-, -, e⟩ | ⟨-, e⟩ <;>
    rw [e] at h
  · rcases ctlMap_cases off with ⟨q, hq, e⟩ | ⟨-, e⟩ <;> rw [e] at h <;> cases h
    exact hq
  · exact (slot _ _ h).elim
  · exact (slot _ _ h).elim
  · unfold coefMap at h; split at h
    · exact (slot _ _ h).elim
    · cases h
  · unfold indexMap at h; split at h <;> cases h
  · unfold shareMap at h; split at h
    · exact (slot _ _ h).elim
    · cases h
  · cases h

/-- A data register the map names exists, and so does its word (R38 to R40). -/
theorem windowMap_data {p : Params} {off i : Nat} {r : DataReg} (h : windowMap p off = .data r i) :
    (∀ k, r ≠ .shareIndex k) ∧ i < p.W / 32 ∧ (∀ j, r = .coef j → j < p.NCOEF) ∧
      (∀ k, r = .shareValue k → k < p.NSHARE) ∨
    ∃ k, r = .shareIndex k ∧ k < p.NSHARE ∧ i = 0 := by
  have slot (q : DataReg) (o : Nat) (hs : slotTarget p q o = .data r i) : r = q ∧ i < p.W / 32 := by
    rcases slotTarget_cases p q o with ⟨hi, h⟩ | ⟨-, h⟩ <;> rw [h] at hs <;> cases hs
    exact ⟨rfl, hi⟩
  rcases windowMap_cases p off with ⟨-, e⟩ | ⟨-, -, e⟩ | ⟨-, -, e⟩ | ⟨-, -, e⟩ | ⟨-, -, e⟩ | ⟨-, -, e⟩ | ⟨-, e⟩ <;>
    rw [e] at h
  · rcases ctlMap_cases off with ⟨q, hq, e⟩ | ⟨-, e⟩ <;> rw [e] at h <;> cases h
  · obtain ⟨rfl, hi⟩ := slot _ _ h
    exact .inl ⟨nofun, hi, nofun, nofun⟩
  · obtain ⟨rfl, hi⟩ := slot _ _ h
    exact .inl ⟨nofun, hi, nofun, nofun⟩
  · unfold coefMap at h; split at h
    · rename_i hj
      obtain ⟨rfl, hi⟩ := slot _ _ h
      exact .inl ⟨nofun, hi, by rintro _ ⟨⟩; exact hj, nofun⟩
    · cases h
  · unfold indexMap at h; split at h <;> cases h
    exact .inr ⟨_, rfl, ‹_›, rfl⟩
  · unfold shareMap at h; split at h
    · rename_i hk
      obtain ⟨rfl, hi⟩ := slot _ _ h
      exact .inl ⟨nofun, hi, nofun, by rintro _ ⟨⟩; exact hk⟩
    · cases h
  · cases h

/-- What an access into the window can do to the state, besides the answer: nothing, set WERR, reset the block, store
CTRL, clear W1C bits, issue a command, or replace one word of a data register, the last two only while BUSY = 0. -/
theorem performAccess_inversion (s : State) (a : Access) : ∃ (ans : Option Word) (dr : Nat),
    performAccess s a = { s with rdata := ans, draws := dr } ∨
    performAccess s a = { setWerr s with rdata := ans, draws := dr } ∨
    (∃ w : Word, a.kind = .write w ∧ wellFormedAccess s.params a = true ∧ accessOffset s.params a = 0x08 ∧
      w.getLsbD 31 = true ∧
      performAccess s a = { resetBlock s with rdata := none }) ∨
    (∃ c : Ctrl, performAccess s a = { s with ctrl := c, rdata := none }) ∨
    (∃ w : Word, performAccess s a = { ackStatus s w with rdata := none }) ∨
    (s.status.busy = false ∧ ∃ v : Word, performAccess s a = { issue s v with rdata := none }) ∨
    (s.status.busy = false ∧ ∃ (r : DataReg) (i : Nat) (w : Word),
      windowMap s.params (accessOffset s.params a) = .data r i ∧
      performAccess s a = { setDataWord s r i w with rdata := none }) := by
  unfold performAccess
  split
  · split
    · unfold readAccess
      split
      · exact ⟨_, s.draws, .inl rfl⟩
      · split
        · exact ⟨_, _, .inr (.inl rfl)⟩
        · exact ⟨_, s.draws, .inl rfl⟩
      · exact ⟨_, s.draws, .inr (.inl rfl)⟩
    · exact ⟨_, s.draws, .inr (.inl rfl)⟩
  · rename_i w hk
    split
    · rename_i hwf
      unfold writeAccess
      split
      · rename_i r hr
        cases r
        · exact ⟨none, s.draws, .inr (.inl rfl)⟩
        · exact ⟨none, s.draws, .inr (.inl rfl)⟩
        · simp only [writeCtl, writeCtrl]
          split
          · rename_i h31
            have hoff : accessOffset s.params a = 0x08 := windowMap_ctl hr
            exact ⟨none, 0, .inr (.inr (.inl ⟨w, hk, hwf, hoff, h31, rfl⟩))⟩
          · exact ⟨none, 0, .inr (.inr (.inr (.inl ⟨_, rfl⟩)))⟩
        · exact ⟨none, 0, .inr (.inr (.inr (.inr (.inl ⟨w, rfl⟩))))⟩
        · simp only [writeCtl, writeCmd]
          split
          · exact ⟨none, s.draws, .inr (.inl rfl)⟩
          · rename_i hb
            exact ⟨none, 0, .inr (.inr (.inr (.inr (.inr (.inl ⟨by simpa using hb, w, rfl⟩)))))⟩
        · exact ⟨none, s.draws, .inr (.inl rfl)⟩
      · rename_i r i hr
        split
        · exact ⟨none, s.draws, .inr (.inl rfl)⟩
        · rename_i hb
          refine ⟨none, 0, .inr (.inr (.inr (.inr (.inr (.inr ⟨by simpa using hb, r, i, w, hr, ?_⟩)))))⟩
          cases r <;> rfl
      · exact ⟨none, s.draws, .inr (.inl rfl)⟩
    · exact ⟨none, s.draws, .inr (.inl rfl)⟩

/-- What a step can do: the engine's turn, an access outside the window, an access into it, or an edge of RST_N. -/
theorem step_inversion {s t : State} (h : step s = .next t) :
    (s.events = [] ∧ engineTurn s = .next t) ∨
    (∃ rest, s.events = .engine :: rest ∧ engineTurn { s with events := rest } = .next t) ∨
    (∃ a rest, s.events = .access a :: rest ∧ inWindow s.params a = false ∧
      t = { s with events := rest, rdata := none }) ∨
    (∃ a rest, s.events = .access a :: rest ∧ inWindow s.params a = true ∧ s.rstAsserted = false ∧
      t = performAccess { s with events := rest } a) ∨
    (∃ rest, s.events = .assertReset :: rest ∧ t = holdReset { s with events := rest }) ∨
    (∃ rest, s.events = .releaseReset :: rest ∧ t = releaseReset { s with events := rest }) := by
  unfold step at h
  split at h
  · exact .inl ⟨‹_›, h⟩
  · rename_i a rest he
    refine .inr (.inr ?_)
    unfold hostAccess at h
    split at h
    · rename_i hw
      split at h
      · cases h
      · rename_i hr
        cases h
        exact .inr (.inl ⟨a, rest, he, hw, by simpa using hr, rfl⟩)
    · rename_i hw
      cases h
      exact .inl ⟨a, rest, he, by simpa using hw, rfl⟩
  · rename_i rest he
    exact .inr (.inl ⟨rest, he, h⟩)
  · rename_i rest he
    cases h
    exact .inr (.inr (.inr (.inr (.inl ⟨rest, he, rfl⟩))))
  · rename_i rest he
    cases h
    exact .inr (.inr (.inr (.inr (.inr ⟨rest, he, rfl⟩))))

/-- Only the host's own move while RST_N is asserted has no next state (R127). -/
theorem step_next_or_refused (s : State) : (∃ t, step s = .next t) ∨ step s = .refused .accessDuringReset := by
  unfold step
  split
  · exact .inl (engineTurn_next _)
  · unfold hostAccess
    split
    · split
      · exact .inr rfl
      · exact .inl ⟨_, rfl⟩
    · exact .inl ⟨_, rfl⟩
  · exact .inl (engineTurn_next _)
  · exact .inl ⟨_, rfl⟩
  · exact .inl ⟨_, rfl⟩

end Sys2Proof.Machine
end

