-- ==== Sys2Proof/Laws/Window.lean ====
section
/-! SUPPORT. The map of the window against the list of reserved offsets of R38 and R40: which offsets are reserved, which
name a word of a data register, and that no two words share one. -/

namespace Sys2Proof.Machine

/-- A word offset of the window maps to nothing exactly when R38 and R40 call it reserved. -/
theorem windowMap_reserved_iff {p : Params} {off : Nat} (h4 : off % 4 = 0) (hlt : off < 0x40000) :
    windowMap p off = .reserved ↔ ReservedOffset p off := by
  have slot (r : DataReg) (o : Nat) : slotTarget p r o = .reserved ↔ p.W / 32 ≤ o % 0x200 / 4 := by
    rcases slotTarget_cases p r o with ⟨h, e⟩ | ⟨h, e⟩ <;> rw [e] <;> simp <;> omega
  rcases windowMap_cases p off with
    ⟨h, e⟩ | ⟨h, h', e⟩ | ⟨h, h', e⟩ | ⟨h, h', e⟩ | ⟨h, h', e⟩ | ⟨h, h', e⟩ | ⟨h, e⟩ <;> rw [e]
  · rcases ctlMap_cases off with ⟨r, hr, e⟩ | ⟨hr, e⟩ <;> rw [e]
    · have : off ≤ 0x14 := by rw [hr]; cases r <;> simp [ctlOffset]
      simp only [reduceCtorEq, false_iff, ReservedOffset]
      omega
    · have h0 := hr .id
      have h1 := hr .param
      have h2 := hr .ctrl
      have h3 := hr .status
      have h5 := hr .cmd
      have h6 := hr .errinfo
      simp only [ctlOffset] at h0 h1 h2 h3 h5 h6
      simp only [true_iff, ReservedOffset]
      omega
  · rw [slot]
    unfold ReservedOffset
    omega
  · rw [slot]
    unfold ReservedOffset
    omega
  · unfold coefMap
    split
    · rw [slot]
      unfold ReservedOffset
      omega
    · simp only [true_iff, ReservedOffset]
      omega
  · unfold indexMap
    split
    · simp only [reduceCtorEq, false_iff, ReservedOffset]
      omega
    · simp only [true_iff, ReservedOffset]
      omega
  · unfold shareMap
    split
    · rw [slot]
      unfold ReservedOffset
      omega
    · simp only [true_iff, ReservedOffset]
      omega
  · rw [eq_self, true_iff]
    rcases h with ⟨h, h'⟩ | ⟨h, h'⟩ | h
    · exact .inr (.inr (.inl ⟨h, h'⟩))
    · exact .inr (.inr (.inr (.inr (.inr (.inr (.inl ⟨h, h'⟩))))))
    · exact .inr (.inr (.inr (.inr (.inr (.inr (.inr (.inr ⟨h, hlt⟩)))))))

/-- A word offset of the window names a word of a data register exactly when R38 puts it in the data region and R40 does
not reserve it. -/
theorem windowMap_data_iff {p : Params} {off : Nat} (h4 : off % 4 = 0) (hlt : off < 0x40000) :
    (∃ r i, windowMap p off = .data r i) ↔ DataOffset p off := by
  have hres := windowMap_reserved_iff (p := p) h4 hlt
  cases hm : windowMap p off with
  | ctl r =>
    have := windowMap_ctl hm
    have : off ≤ 0x14 := by rw [this]; cases r <;> simp [ctlOffset]
    simp only [reduceCtorEq, exists_false, false_iff, DataOffset]
    omega
  | data r i =>
    have hge : 0x1000 ≤ off := by
      rcases windowMap_cases p off with
        ⟨h, e⟩ | ⟨h, h', e⟩ | ⟨h, h', e⟩ | ⟨h, h', e⟩ | ⟨h, h', e⟩ | ⟨h, h', e⟩ | ⟨h, e⟩ <;> try omega
      rcases ctlMap_cases off with ⟨r, -, e'⟩ | ⟨-, e'⟩ <;> rw [e, e'] at hm <;> cases hm
    rw [hm] at hres
    have hn : ¬ReservedOffset p off := fun h => by simpa using hres.2 h
    simp only [Target.data.injEq, DataOffset]
    exact ⟨fun _ => ⟨hge, hlt, hn⟩, fun _ => ⟨r, i, rfl, rfl⟩⟩
  | reserved =>
    simp only [reduceCtorEq, exists_false, false_iff, DataOffset, not_and, not_not]
    exact fun _ _ => hres.1 hm

/-- The control registers stand at the start of the window, R38. -/
theorem windowMap_ctlOffset (p : Params) (r : CtlReg) : windowMap p (ctlOffset r) = .ctl r := by
  cases r <;> rfl

/-- Each word of each data register has its offset, R38 and R39. -/
theorem windowMap_regOffset {p : Params} (hp : p.Legal) {r : DataReg} {i : Nat} (h : r.HasWord p i) :
    windowMap p (regOffset r + 4 * i) = .data r i := by
  have hW : p.W / 32 ≤ 128 := by have := hp.2.2.1; omega
  have hC : p.NCOEF ≤ 64 := hp.2.2.2.2.1
  have hS : p.NSHARE ≤ 256 := hp.2.2.2.2.2.2.1
  have slot (q : DataReg) (o : Nat) (ho : o % 0x200 = 4 * i) (hi : i < p.W / 32) : slotTarget p q o = .data q i := by
    have e : o % 0x200 / 4 = i := by omega
    rw [slotTarget, e, if_pos hi]
  cases r with
  | modulus =>
    simp only [DataReg.HasWord] at h
    have h1 : ¬0x1000 + 4 * i < 0x1000 := by omega
    have h2 : 0x1000 + 4 * i < 0x1200 := by omega
    rw [regOffset, windowMap, if_neg h1, if_pos h2]
    exact slot _ _ (by omega) h
  | field f =>
    simp only [DataReg.HasWord] at h
    have := f.isLt
    have h1 : ¬0x2000 + 0x200 * f.val + 4 * i < 0x1000 := by omega
    have h2 : ¬0x2000 + 0x200 * f.val + 4 * i < 0x1200 := by omega
    have h3 : ¬0x2000 + 0x200 * f.val + 4 * i < 0x2000 := by omega
    have h4 : 0x2000 + 0x200 * f.val + 4 * i < 0x4000 := by omega
    have e : Fin.ofNat 16 ((0x2000 + 0x200 * f.val + 4 * i - 0x2000) / 0x200) = f := by
      apply Fin.ext
      simp only [Fin.ofNat]
      omega
    rw [regOffset, windowMap, if_neg h1, if_neg h2, if_neg h3, if_pos h4, e]
    exact slot _ _ (by omega) h
  | coef j =>
    obtain ⟨hj, hi⟩ := h
    have h1 : ¬0x4000 + 0x200 * j + 4 * i < 0x1000 := by omega
    have h2 : ¬0x4000 + 0x200 * j + 4 * i < 0x1200 := by omega
    have h3 : ¬0x4000 + 0x200 * j + 4 * i < 0x2000 := by omega
    have h4 : ¬0x4000 + 0x200 * j + 4 * i < 0x4000 := by omega
    have h5 : 0x4000 + 0x200 * j + 4 * i < 0xC000 := by omega
    have e : (0x4000 + 0x200 * j + 4 * i - 0x4000) / 0x200 = j := by omega
    rw [regOffset, windowMap, if_neg h1, if_neg h2, if_neg h3, if_neg h4, if_pos h5, coefMap, e, if_pos hj]
    exact slot _ _ (by omega) hi
  | shareIndex k =>
    obtain ⟨hk, rfl⟩ := h
    have h1 : ¬0xC000 + 4 * k + 4 * 0 < 0x1000 := by omega
    have h2 : ¬0xC000 + 4 * k + 4 * 0 < 0x1200 := by omega
    have h3 : ¬0xC000 + 4 * k + 4 * 0 < 0x2000 := by omega
    have h4 : ¬0xC000 + 4 * k + 4 * 0 < 0x4000 := by omega
    have h5 : ¬0xC000 + 4 * k + 4 * 0 < 0xC000 := by omega
    have h6 : 0xC000 + 4 * k + 4 * 0 < 0xC400 := by omega
    have e : (0xC000 + 4 * k + 4 * 0 - 0xC000) / 4 = k := by omega
    rw [regOffset, windowMap, if_neg h1, if_neg h2, if_neg h3, if_neg h4, if_neg h5, if_pos h6, indexMap, e, if_pos hk]
  | shareValue k =>
    obtain ⟨hk, hi⟩ := h
    have h1 : ¬0x10000 + 0x200 * k + 4 * i < 0x1000 := by omega
    have h2 : ¬0x10000 + 0x200 * k + 4 * i < 0x1200 := by omega
    have h3 : ¬0x10000 + 0x200 * k + 4 * i < 0x2000 := by omega
    have h4 : ¬0x10000 + 0x200 * k + 4 * i < 0x4000 := by omega
    have h5 : ¬0x10000 + 0x200 * k + 4 * i < 0xC000 := by omega
    have h6 : ¬0x10000 + 0x200 * k + 4 * i < 0xC400 := by omega
    have h7 : ¬0x10000 + 0x200 * k + 4 * i < 0x10000 := by omega
    have h8 : 0x10000 + 0x200 * k + 4 * i < 0x30000 := by omega
    have e : (0x10000 + 0x200 * k + 4 * i - 0x10000) / 0x200 = k := by omega
    rw [regOffset, windowMap, if_neg h1, if_neg h2, if_neg h3, if_neg h4, if_neg h5, if_neg h6, if_neg h7, if_pos h8,
      shareMap, e, if_pos hk]
    exact slot _ _ (by omega) hi

/-- A data offset is word-aligned and in the window. -/
theorem regOffset_lt {p : Params} (hp : p.Legal) {r : DataReg} {i : Nat} (h : r.HasWord p i) :
    (regOffset r + 4 * i) % 4 = 0 ∧ regOffset r + 4 * i < 0x40000 := by
  have hW : p.W / 32 ≤ 128 := by have := hp.2.2.1; omega
  have hC : p.NCOEF ≤ 64 := hp.2.2.2.2.1
  have hS : p.NSHARE ≤ 256 := hp.2.2.2.2.2.2.1
  cases r with
  | modulus => simp only [DataReg.HasWord, regOffset] at *; omega
  | field f => have := f.isLt; simp only [DataReg.HasWord, regOffset] at *; omega
  | coef j => simp only [DataReg.HasWord, regOffset] at *; omega
  | shareIndex k => simp only [DataReg.HasWord, regOffset] at *; omega
  | shareValue k => simp only [DataReg.HasWord, regOffset] at *; omega

/-! ### A well-formed access -/

theorem wordAccess_inWindow {p : Params} {off : Nat} {kind : AccessKind} (h : off < 0x40000) :
    inWindow p (wordAccess p off kind) = true := by
  simp [inWindow, wordAccess, h]

theorem wordAccess_wellFormed {p : Params} {off : Nat} {kind : AccessKind} (h : off % 4 = 0) :
    wellFormedAccess p (wordAccess p off kind) = true := by
  simp [wellFormedAccess, wordAccess, accessOffset, h]

theorem wordAccess_offset {p : Params} {off : Nat} {kind : AccessKind} :
    accessOffset p (wordAccess p off kind) = off := by
  simp [wordAccess, accessOffset]

/-- A pending access into the window, with RST_N released, is performed. -/
theorem step_access {s : State} {a : Access} (h : s.AccessNext a) (hw : inWindow s.params a = true) :
    step s = .next (performAccess s.pop a) := by
  obtain ⟨hr, rest, he⟩ := h
  simp [step, he, hostAccess, hw, hr, State.pop]

/-- A pending well-formed read, in one step. -/
theorem step_read {s : State} {off : Nat} (h : s.AccessNext (wordAccess s.params off .read)) (h4 : off % 4 = 0)
    (hlt : off < 0x40000) : step s = .next (readAccess s.pop off) := by
  rw [step_access h (wordAccess_inWindow hlt)]
  have e : performAccess s.pop (wordAccess s.params off .read) =
      if wellFormedAccess s.params (wordAccess s.params off .read) then
        readAccess s.pop (accessOffset s.params (wordAccess s.params off .read))
      else setWerr (answer s.pop 0) := rfl
  rw [e, wordAccess_wellFormed h4, wordAccess_offset, if_pos rfl]

/-- A pending well-formed write, in one step. -/
theorem step_write {s : State} {off : Nat} {w : Word} (h : s.AccessNext (wordAccess s.params off (.write w)))
    (h4 : off % 4 = 0) (hlt : off < 0x40000) :
    step s = .next (writeAccess { s.pop with rdata := none } off w) := by
  rw [step_access h (wordAccess_inWindow hlt)]
  have e : performAccess s.pop (wordAccess s.params off (.write w)) =
      if wellFormedAccess s.params (wordAccess s.params off (.write w)) then
        writeAccess { s.pop with rdata := none } (accessOffset s.params (wordAccess s.params off (.write w))) w
      else setWerr { s.pop with rdata := none } := rfl
  rw [e, wordAccess_wellFormed h4, wordAccess_offset, if_pos rfl]

end Sys2Proof.Machine
end

