-- ==== Sys2Proof/Laws/Fits.lean ====
section
/-! SUPPORT. Every operation on the registers keeps every value within its width and every array at its length. -/

namespace Sys2Proof.Machine

/-- The fit is a property of the parameters and the data registers. -/
theorem fits_of_data {b c : Block} (h : b.Fits) (hp : c.params = b.params) (h1 : c.P = b.P) (h2 : c.F = b.F)
    (h3 : c.C = b.C) (h4 : c.SIDX = b.SIDX) (h5 : c.SVAL = b.SVAL) : c.Fits := by
  obtain ⟨a1, a2, a3, a4, a5, a6, a7⟩ := h
  constructor <;> simp only [*] <;> assumption

theorem getD_lt {xs : List Nat} {m j : Nat} (h : ∀ v ∈ xs, v < m) (hm : 0 < m) : xs.getD j 0 < m := by
  rw [List.getD_eq_getElem?_getD]
  cases hx : xs[j]? with
  | none => simpa
  | some x => simpa using h x (List.mem_of_getElem? hx)

theorem readF_lt {s : State} (h : s.toBlock.Fits) (r : FReg) : readF s r < 2 ^ s.params.W := by
  apply h.F_lt
  simp [readF]

theorem readC_lt {s : State} (h : s.toBlock.Fits) (j : Nat) : readC s j < 2 ^ s.params.W :=
  getD_lt h.C_lt (by positivity)

theorem readSVAL_lt {s : State} (h : s.toBlock.Fits) (k : Nat) : readSVAL s k < 2 ^ s.params.W :=
  getD_lt h.SVAL_lt (by positivity)

theorem fits_writeF {s : State} (h : s.toBlock.Fits) (rd : FReg) {v : Nat} (hv : v < 2 ^ s.params.W) :
    (writeF s rd v).toBlock.Fits := by
  refine ⟨h.P_lt, ?_, h.C_length, h.C_lt, h.SIDX_length, h.SVAL_length, h.SVAL_lt⟩
  intro x hx
  simp only [writeF_F, writeF_params, Vector.toList_set] at hx ⊢
  rcases List.mem_or_eq_of_mem_set hx with h1 | rfl
  · exact h.F_lt x h1
  · exact hv

theorem fits_writeShares {s : State} (h : s.toBlock.Fits) (n t : Nat) (hp : 0 < s.P) :
    (writeShares s n t).toBlock.Fits := by
  refine ⟨h.P_lt, h.F_lt, h.C_length, h.C_lt, ?_, ?_, ?_⟩
  · simpa using h.SIDX_length
  · simpa using h.SVAL_length
  · exact forall_mem_fill _ (fun _ _ _ => (polyval_lt hp _ _).trans h.P_lt) h.SVAL_lt

theorem fits_zeroizeCoefs {s : State} (h : s.toBlock.Fits) (t : Nat) : (zeroizeCoefs s t).toBlock.Fits := by
  unfold zeroizeCoefs
  split
  · refine ⟨h.P_lt, h.F_lt, ?_, ?_, h.SIDX_length, h.SVAL_length, h.SVAL_lt⟩
    · exact (fill_length _ _ _ _).trans h.C_length
    · exact forall_mem_fill _ (fun _ _ _ => by positivity) h.C_lt
  · exact h

/-- A command that passes its checks writes values that fit. -/
theorem fits_writesOf (i : Instr) (s : State) (h : s.toBlock.Fits) (hc : ∀ c ∈ checksOf i s, c = none) :
    (writesOf i s).toBlock.Fits := by
  have lt {v : Nat} (hv : v < s.P) : v < 2 ^ s.params.W := hv.trans h.P_lt
  have pos (hm : checkModulus s = none) : 0 < s.P := by
    have := checkModulus_eq_none.1 hm
    omega
  cases i <;> simp only [checksOf, checksTwoSources, List.forall_mem_cons] at hc
  · exact h
  · exact fits_writeF h _ (lt (Nat.mod_lt _ (pos hc.1)))
  · exact fits_writeF h _ (lt (modInt_lt _ (pos hc.1)))
  · exact fits_writeF h _ (lt (Nat.mod_lt _ (pos hc.1)))
  · exact fits_writeF h _ (lt (modInt_lt _ (pos hc.1)))
  · exact fits_writeF h _ (lt (modInv_lt _ (pos hc.1)))
  · rw [writesOf, modPow_eq]
    exact fits_writeF h _ (lt (Nat.mod_lt _ (pos hc.1)))
  · exact fits_writeF h _ (readF_lt h _)
  · exact fits_writeF h _ (lt (Nat.mod_lt _ (pos hc.1)))
  · exact fits_writeF h _ (lt (polyval_lt (pos hc.1) _ _))
  · exact fits_zeroizeCoefs (fits_writeShares h _ _ (pos hc.1)) _
  · exact fits_writeF h _ (lt (combineSum_lt (pos hc.1) _))
  · refine fits_writeF h _ (lt ?_)
    unfold lbasisValue
    split
    · exact pos hc.1
    · exact lagrange_lt (pos hc.1) _ _

/-- A host write of one word of a data register keeps the fit. -/
theorem fits_setDataWord {s : State} (h : s.toBlock.Fits) {off i : Nat} {r : DataReg} (w : Word)
    (hr : windowMap s.params off = .data r i) : (setDataWord s r i w).toBlock.Fits := by
  have hi (h : i < s.params.W / 32) : 32 * (i + 1) ≤ s.params.W := by omega
  rcases windowMap_data hr with ⟨hn, hi', -, -⟩ | ⟨k, rfl, -, rfl⟩
  · have hi := hi hi'
    cases r with
    | modulus =>
      exact ⟨setElemWord_lt h.P_lt hi w, h.F_lt, h.C_length, h.C_lt, h.SIDX_length, h.SVAL_length, h.SVAL_lt⟩
    | field q => exact fits_writeF h q (setElemWord_lt (readF_lt h q) hi w)
    | coef j =>
      refine ⟨h.P_lt, h.F_lt, ?_, ?_, h.SIDX_length, h.SVAL_length, h.SVAL_lt⟩
      · simpa [setDataWord] using h.C_length
      · intro x hx
        rcases List.mem_or_eq_of_mem_set hx with h1 | rfl
        · exact h.C_lt x h1
        · exact setElemWord_lt (readC_lt h j) hi w
    | shareIndex k => exact absurd rfl (hn k)
    | shareValue k =>
      refine ⟨h.P_lt, h.F_lt, h.C_length, h.C_lt, h.SIDX_length, ?_, ?_⟩
      · simpa [setDataWord] using h.SVAL_length
      · intro x hx
        rcases List.mem_or_eq_of_mem_set hx with h1 | rfl
        · exact h.SVAL_lt x h1
        · exact setElemWord_lt (readSVAL_lt h k) hi w
  · refine ⟨h.P_lt, h.F_lt, h.C_length, h.C_lt, ?_, h.SVAL_length, h.SVAL_lt⟩
    simpa [setDataWord] using h.SIDX_length

/-- The reset values fit. -/
theorem fits_reset (p : Params) : (Block.reset p).Fits := by
  have pos : 0 < 2 ^ p.W := by positivity
  refine ⟨pos, ?_, List.length_replicate, ?_, List.length_replicate, List.length_replicate, ?_⟩
  · intro v hv
    have hv : v ∈ (Vector.replicate 16 0).toList := hv
    simp only [Vector.toList_replicate, List.mem_replicate] at hv
    rw [hv.2]
    exact pos
  · intro v hv
    rw [(List.mem_replicate.1 hv).2]
    exact pos
  · intro v hv
    rw [(List.mem_replicate.1 hv).2]
    exact pos

/-! ### One word of a data register written and read (R39, R46) -/

theorem dataWord_setDataWord_same {s : State} {r : DataReg} {i : Nat} (hf : s.toBlock.Fits) (h : r.HasWord s.params i)
    (w : Word) : dataWord (setDataWord s r i w) r i = w := by
  cases r with
  | modulus => exact elemWord_setElemWord_same _ _ _
  | field r => simp [dataWord, setDataWord]
  | coef j =>
    simp only [dataWord, setDataWord, readC, List.getD_eq_getElem?_getD]
    rw [List.getElem?_set_self (by rw [hf.C_length]; exact h.1)]
    simp
  | shareIndex j =>
    simp only [dataWord, setDataWord, readSIDX, List.getD_eq_getElem?_getD]
    rw [List.getElem?_set_self (by rw [hf.SIDX_length]; exact h.1)]
    simp
  | shareValue j =>
    simp only [dataWord, setDataWord, readSVAL, List.getD_eq_getElem?_getD]
    rw [List.getElem?_set_self (by rw [hf.SVAL_length]; exact h.1)]
    simp

/-- A word of an element of an array with one word of one element replaced. -/
theorem elemWord_set_other {xs : List Nat} {a b i j : Nat} (h : a = b → j ≠ i) (w : Word) :
    elemWord ((xs.set a (setElemWord (xs.getD a 0) i w)).getD b 0) j = elemWord (xs.getD b 0) j := by
  rw [List.getD_eq_getElem?_getD, List.getElem?_set]
  by_cases e : a = b
  · subst e
    rw [if_pos rfl]
    split
    · exact elemWord_setElemWord_other (h rfl) _ _
    · rename_i hl
      rw [List.getD_eq_getElem?_getD, List.getElem?_eq_none (by omega)]
  · rw [if_neg e, ← List.getD_eq_getElem?_getD]

theorem dataWord_setDataWord_other {s : State} {q r : DataReg} {i j : Nat} (hq : q.HasWord s.params j)
    (hr : r.HasWord s.params i) (hn : (q, j) ≠ (r, i)) (w : Word) :
    dataWord (setDataWord s r i w) q j = dataWord s q j := by
  have hij (e : q = r) : j ≠ i := fun e' => hn (by rw [e, e'])
  cases r with
  | modulus => cases q <;> first | rfl | exact elemWord_setElemWord_other (hij rfl) _ _
  | field r =>
    cases q with
    | field q =>
      by_cases e : q = r
      · subst e
        simp [dataWord, setDataWord, elemWord_setElemWord_other (hij rfl)]
      · simp [dataWord, setDataWord, readF_writeF_other _ e]
    | modulus => rfl
    | coef _ => rfl
    | shareIndex _ => rfl
    | shareValue _ => rfl
  | coef r =>
    cases q with
    | coef q => exact elemWord_set_other (fun e => hij (congrArg _ e.symm)) w
    | modulus => rfl
    | field _ => rfl
    | shareIndex _ => rfl
    | shareValue _ => rfl
  | shareIndex r =>
    cases q with
    | shareIndex q =>
      have hne : r ≠ q := by
        rintro rfl
        exact hij rfl (hq.2.trans hr.2.symm)
      simp [dataWord, setDataWord, readSIDX, List.getD_eq_getElem?_getD, hne]
    | modulus => rfl
    | field _ => rfl
    | coef _ => rfl
    | shareValue _ => rfl
  | shareValue r =>
    cases q with
    | shareValue q => exact elemWord_set_other (fun e => hij (congrArg _ e.symm)) w
    | modulus => rfl
    | field _ => rfl
    | coef _ => rfl
    | shareIndex _ => rfl

end Sys2Proof.Machine
end

