-- ==== Sys2Proof/Laws/Interp.lean ====
section
/-! SUPPORT. The interpolator's and the evaluator's computations against the mathematics of R91, R98 and R99 as Safety.lean
writes it. -/

namespace Sys2Proof.Machine

/-- The polynomial evaluator computes the value of R91. -/
theorem polyval_eq_polyValue (s : State) (t x : Nat) : polyval s t x = polyValue s t x := by
  have hsum (n : Nat) (f : Nat → Nat) : sumOver (List.range n) (fun i => f (i + 1)) = ∑ j ∈ Finset.Icc 1 n, f j := by
    rw [sumOver_eq_sum]
    induction n with
    | zero => rfl
    | succ n ih =>
      rw [List.range_succ, List.map_append, List.sum_append, ih, Finset.sum_Icc_succ_top (by omega)]
      simp
  rw [polyval, polyValue, hsum (t - 1) fun j => readC s j * x ^ j]

theorem kept_iff {s : State} {k : Nat} : Kept s k ↔ isDuplicate s k = false := by
  rw [← Bool.not_eq_true, isDuplicate_iff]
  simp [Kept]

/-- The list E(n) holds the slots of the set E(n). -/
theorem mem_keptSlots {s : State} {n k : Nat} : k ∈ keptSlots s n ↔ k ∈ effective s n := by
  simp [keptSlots, mem_effective, kept_iff]

theorem effective_toFinset (s : State) (n : Nat) : (effective s n).toFinset = keptSlots s n := by
  ext k
  rw [mem_keptSlots, List.mem_toFinset]

theorem others_toFinset (s : State) (n k : Nat) : (others s n k).toFinset = (keptSlots s n).erase k := by
  ext j
  simp [mem_others, mem_keptSlots, and_comm]

theorem effective_sorted (s : State) (n : Nat) : (effective s n).Pairwise (· < ·) := List.pairwise_lt_range.filter _

/-- A product over the other slots is the product over the set without k. -/
theorem prodOver_others (s : State) (n k : Nat) (f : Nat → Nat) :
    prodOver (others s n k) f = ∏ j ∈ (keptSlots s n).erase k, f j := by
  rw [prodOver_eq_prod, ← others_toFinset, List.prod_toFinset _ (others_nodup s n k)]

/-- num(k) is the value of R99. -/
theorem lagrangeNum_eq {s : State} (h : 0 < s.P) (n k : Nat) : (lagrangeNum s n k : Int) = numValue s n k := by
  rw [lagrangeNum, numValue, prodOver_others]
  push_cast
  congr 1
  refine Finset.prod_congr rfl fun j _ => ?_
  rw [cast_modInt _ h]
  simp [abscissa]

/-- den(k) is the value of R99. -/
theorem lagrangeDen_eq {s : State} (h : 0 < s.P) (n k : Nat) : (lagrangeDen s n k : Int) = denValue s n k := by
  rw [lagrangeDen, denValue, prodOver_others]
  push_cast
  congr 1
  exact Finset.prod_congr rfl fun j _ => cast_modInt _ h

/-- The unit test of COMBINE and LBASIS tests den(k) of R99. -/
theorem denUnit_iff {s : State} (h : 0 < s.P) (n k : Nat) :
    DenUnit s n k ↔ isUnit (lagrangeDen s n k) s.P = true := by
  have hlt : lagrangeDen s n k < s.P := Nat.mod_lt _ h
  rw [isUnit_iff, DenUnit, ← lagrangeDen_eq h, Nat.mod_eq_of_lt hlt, Int.gcd_natCast_natCast]

theorem checkDen_eq_none {s : State} (h : 0 < s.P) (n k : Nat) : checkDen s n k = none ↔ DenUnit s n k := by
  rw [denUnit_iff h, checkDen]
  split <;> simp_all

/-- COMBINE's unit check passes exactly when den(k) is a unit for every slot of E(n). -/
theorem checkDens_eq_none {s : State} (h : 0 < s.P) (n : Nat) :
    checkDens s n = none ↔ ∀ k ∈ keptSlots s n, DenUnit s n k := by
  rw [checkDens, List.findSome?_eq_none_iff]
  exact forall_congr' fun k => by rw [mem_keptSlots, checkDen_eq_none h]

/-- lambda(k) is the value of R99 wherever den(k) is a unit. -/
theorem lagrange_isLambda {s : State} (h : 2 ≤ s.P) {n k : Nat} (hu : DenUnit s n k) :
    IsLambda s n k (lagrange s n k) := by
  have h0 : 0 < s.P := by omega
  refine ⟨modInv (lagrangeDen s n k) s.P, modInv_lt _ h0, ?_, ?_⟩
  · rw [← lagrangeDen_eq h0]
    exact_mod_cast mul_modInv h ((isUnit_iff _ _).1 ((denUnit_iff h0 n k).1 hu))
  · rw [← lagrangeNum_eq h0, lagrange]
    push_cast
    rfl

/-- COMBINE accumulates the sum of R100. -/
theorem combineSum_eq_sum (s : State) (n : Nat) :
    combineSum s n = (∑ k ∈ keptSlots s n, readSVAL s k * lagrange s n k) % s.P := by
  rw [combineSum_eq, ← effective_toFinset, List.sum_toFinset _ (effective_nodup s n)]

/-- The earliest slot with the same index and value is in E(n). -/
theorem exists_kept {s : State} {n k : Nat} (hk : k < n) :
    ∃ m ∈ keptSlots s n, m ≤ k ∧ readSIDX s m = readSIDX s k ∧ readSVAL s m = readSVAL s k := by
  induction k using Nat.strong_induction_on with
  | _ k ih =>
    by_cases hd : isDuplicate s k = true
    · obtain ⟨j, hj, h1, h2⟩ := isDuplicate_iff.1 hd
      obtain ⟨m, hm, hle, h3, h4⟩ := ih j hj (by omega)
      exact ⟨m, hm, by omega, h3.trans h1, h4.trans h2⟩
    · exact ⟨k, mem_keptSlots.2 (mem_effective.2 ⟨hk, by simpa using hd⟩), le_rfl, rfl, rfl⟩

end Sys2Proof.Machine
end

