-- ==== Sys2Proof/Laws/PerInstr.lean ====
section
/-! SUPPORT. The statements made for every command, one lemma per constructor. -/

namespace Sys2Proof

/-- The bits of a field value at its place. -/
theorem place_getLsbD (x lo b : Nat) :
    (place x lo).getLsbD b = (decide (b < 32) && (!decide (b < lo) && x.testBit (b - lo))) := by
  by_cases hb : b < 32
  · rw [place, BitVec.getLsbD_shiftLeft, BitVec.getLsbD_ofNat]
    simp [hb, show b - lo < 32 by omega]
  · simp [place, hb]

/-- A field value has no bit at or above its width. -/
theorem no_bit_above {x w : Nat} (hx : x < 2 ^ w) (k : Nat) (hk : w ≤ k) : x.testBit k = false :=
  Nat.testBit_lt_two_pow (lt_of_lt_of_le hx (Nat.pow_le_pow_right (by norm_num) hk))

theorem reg_no_bit_above (r : FReg) (k : Nat) (hk : 4 ≤ k) : r.val.testBit k = false :=
  no_bit_above (w := 4) r.isLt k hk

namespace Laws.EncodedByRow

/-- The encoding of a well-formed command meets the mask test of its row of the opcode map (R70). -/
abbrev Statement (i : Instr) : Prop := i.wf = true → encode i &&& i.row.mask = i.row.pattern

theorem nop : Statement .nop := by decide

theorem madd (rd ra rb : FReg) : Statement (.madd rd ra rb) := by
  intro _
  apply BitVec.eq_of_getLsbD_eq
  intro b hb
  simp only [encode, encodeR, Instr.row, OpRow.mask, OpRow.pattern, BitVec.getLsbD_and, BitVec.getLsbD_or,
    place_getLsbD]
  interval_cases b <;> simp [reg_no_bit_above] <;> decide

theorem msub (rd ra rb : FReg) : Statement (.msub rd ra rb) := by
  intro _
  apply BitVec.eq_of_getLsbD_eq
  intro b hb
  simp only [encode, encodeR, Instr.row, OpRow.mask, OpRow.pattern, BitVec.getLsbD_and, BitVec.getLsbD_or,
    place_getLsbD]
  interval_cases b <;> simp [reg_no_bit_above] <;> decide

theorem mmul (rd ra rb : FReg) : Statement (.mmul rd ra rb) := by
  intro _
  apply BitVec.eq_of_getLsbD_eq
  intro b hb
  simp only [encode, encodeR, Instr.row, OpRow.mask, OpRow.pattern, BitVec.getLsbD_and, BitVec.getLsbD_or,
    place_getLsbD]
  interval_cases b <;> simp [reg_no_bit_above] <;> decide

theorem mexp (rd ra rb : FReg) : Statement (.mexp rd ra rb) := by
  intro _
  apply BitVec.eq_of_getLsbD_eq
  intro b hb
  simp only [encode, encodeR, Instr.row, OpRow.mask, OpRow.pattern, BitVec.getLsbD_and, BitVec.getLsbD_or,
    place_getLsbD]
  interval_cases b <;> simp [reg_no_bit_above] <;> decide

theorem mneg (rd ra : FReg) : Statement (.mneg rd ra) := by
  intro _
  apply BitVec.eq_of_getLsbD_eq
  intro b hb
  simp only [encode, encodeR2, Instr.row, OpRow.mask, OpRow.pattern, BitVec.getLsbD_and, BitVec.getLsbD_or,
    place_getLsbD]
  interval_cases b <;> simp [reg_no_bit_above] <;> decide

theorem minv (rd ra : FReg) : Statement (.minv rd ra) := by
  intro _
  apply BitVec.eq_of_getLsbD_eq
  intro b hb
  simp only [encode, encodeR2, Instr.row, OpRow.mask, OpRow.pattern, BitVec.getLsbD_and, BitVec.getLsbD_or,
    place_getLsbD]
  interval_cases b <;> simp [reg_no_bit_above] <;> decide

theorem mmov (rd ra : FReg) : Statement (.mmov rd ra) := by
  intro _
  apply BitVec.eq_of_getLsbD_eq
  intro b hb
  simp only [encode, encodeR2, Instr.row, OpRow.mask, OpRow.pattern, BitVec.getLsbD_and, BitVec.getLsbD_or,
    place_getLsbD]
  interval_cases b <;> simp [reg_no_bit_above] <;> decide

theorem mldi (rd : FReg) (imm : Nat) : Statement (.mldi rd imm) := by
  intro _
  apply BitVec.eq_of_getLsbD_eq
  intro b hb
  simp only [encode, encodeI, Instr.row, OpRow.mask, OpRow.pattern, BitVec.getLsbD_and, BitVec.getLsbD_or,
    place_getLsbD]
  interval_cases b <;> simp [reg_no_bit_above] <;> decide

theorem peval (rd ra : FReg) (t : Nat) : Statement (.peval rd ra t) := by
  intro hwf
  simp only [Instr.wf, decide_eq_true_eq] at hwf
  have ht := no_bit_above (w := 7) hwf
  apply BitVec.eq_of_getLsbD_eq
  intro b hb
  simp only [encode, encodeP, Instr.row, OpRow.mask, OpRow.pattern, BitVec.getLsbD_and, BitVec.getLsbD_or,
    place_getLsbD]
  interval_cases b <;> simp [ht, reg_no_bit_above] <;> decide

theorem split (n t : Nat) : Statement (.split n t) := by
  intro hwf
  simp only [Instr.wf, Bool.and_eq_true, decide_eq_true_eq] at hwf
  have hn := no_bit_above (w := 9) hwf.1
  have ht := no_bit_above (w := 7) hwf.2
  apply BitVec.eq_of_getLsbD_eq
  intro b hb
  simp only [encode, encodeS, Instr.row, OpRow.mask, OpRow.pattern, BitVec.getLsbD_and, BitVec.getLsbD_or,
    place_getLsbD]
  interval_cases b <;> simp [hn, ht] <;> decide

theorem combine (rd : FReg) (n : Nat) : Statement (.combine rd n) := by
  intro hwf
  simp only [Instr.wf, decide_eq_true_eq] at hwf
  have hn := no_bit_above (w := 9) hwf
  apply BitVec.eq_of_getLsbD_eq
  intro b hb
  simp only [encode, encodeC, Instr.row, OpRow.mask, OpRow.pattern, BitVec.getLsbD_and, BitVec.getLsbD_or,
    place_getLsbD]
  interval_cases b <;> simp [hn, reg_no_bit_above] <;> decide

theorem lbasis (rd : FReg) (k n : Nat) : Statement (.lbasis rd k n) := by
  intro hwf
  simp only [Instr.wf, Bool.and_eq_true, decide_eq_true_eq] at hwf
  have hk := no_bit_above (w := 8) hwf.1
  have hn := no_bit_above (w := 9) hwf.2
  apply BitVec.eq_of_getLsbD_eq
  intro b hb
  simp only [encode, encodeL, Instr.row, OpRow.mask, OpRow.pattern, BitVec.getLsbD_and, BitVec.getLsbD_or,
    place_getLsbD]
  interval_cases b <;> simp [hk, hn, reg_no_bit_above] <;> decide

end Laws.EncodedByRow
end Sys2Proof
end

