-- ==== Sys2Proof/Tests/Slice0.lean ====
section
/-! SUPPORT. The model's own tests: the checks of WellFormed, the decoder on words written out from the spec's formats,
one step of each command on the values of spec/95_test_vectors.md, the register window, and for each obligation a named
witness that its hypotheses can be met. -/

namespace Sys2Proof.Tests

open Sys2Proof.Machine

/-! ### WellFormed refuses an operand one above its field (R64 to R68) -/

theorem test_wf_refuses_imm : (Instr.mldi 1 0x10000).wf = false ∧ (Instr.mldi 1 0xFFFF).wf = true := by decide
theorem test_wf_refuses_peval_t : (Instr.peval 2 1 128).wf = false ∧ (Instr.peval 2 1 127).wf = true := by decide
theorem test_wf_refuses_split_n : (Instr.split 512 1).wf = false ∧ (Instr.split 511 1).wf = true := by decide
theorem test_wf_refuses_split_t : (Instr.split 1 128).wf = false ∧ (Instr.split 1 127).wf = true := by decide
theorem test_wf_refuses_combine_n : (Instr.combine 0 512).wf = false ∧ (Instr.combine 0 511).wf = true := by decide
theorem test_wf_refuses_lbasis_k : (Instr.lbasis 1 256 3).wf = false ∧ (Instr.lbasis 1 255 3).wf = true := by decide
theorem test_wf_refuses_lbasis_n : (Instr.lbasis 1 0 512).wf = false ∧ (Instr.lbasis 1 0 511).wf = true := by decide
theorem test_assembler_refuses : assemble (.combine 0 512) = none ∧ assemble (.combine 0 3) = some 0x00000C19 := by
  decide

/-! ### Decoding: the fields of each format, most significant first, from R61 to R68 and the OP values of R70 -/

theorem test_decode_nop : decode 0b00000000000000000000000000_111111 = .ok .nop := by decide
theorem test_decode_madd : decode 0b00000000000000_0010_0001_0011_000001 = .ok (.madd 3 1 2) := by decide
theorem test_decode_msub : decode 0b00000000000000_0010_0001_0011_000010 = .ok (.msub 3 1 2) := by decide
theorem test_decode_mmul : decode 0b00000000000000_1111_0000_1000_000011 = .ok (.mmul 8 0 15) := by decide
theorem test_decode_mneg : decode 0b000000000000000000_0001_0010_000100 = .ok (.mneg 2 1) := by decide
theorem test_decode_minv : decode 0b000000000000000000_0011_0100_000101 = .ok (.minv 4 3) := by decide
theorem test_decode_mexp : decode 0b00000000000000_0010_0001_0011_000110 = .ok (.mexp 3 1 2) := by decide
theorem test_decode_mmov : decode 0b000000000000000000_0001_0101_000111 = .ok (.mmov 5 1) := by decide
theorem test_decode_mldi : decode 0b0000000001100100_000000_0001_001000 = .ok (.mldi 1 100) := by decide
theorem test_decode_peval : decode 0b00000000000_1000001_0001_0010_010000 = .ok (.peval 2 1 65) := by decide
theorem test_decode_split : decode 0b0000000000_0000011_000000101_011000 = .ok (.split 5 3) := by decide
theorem test_decode_combine : decode 0b0000000000000_100000001_0001_011001 = .ok (.combine 1 257) := by decide
theorem test_decode_lbasis : decode 0b00000_000000011_00000010_0001_011010 = .ok (.lbasis 1 2 3) := by decide

/-- 95_test_vectors.md §2.2: the words of each reserved opcode and reserved bit. -/
theorem test_decode_illegal_opcode : decode 0x00000000 = .error (.badOpcode 0x00) ∧
    decode 0x00000009 = .error (.badOpcode 0x09) ∧ decode 0x0000003E = .error (.badOpcode 0x3E) := by decide

theorem test_decode_reserved_bits : decode 0xFFFFFFFF = .error (.reservedBits 0x3F) ∧
    decode 0x0000007F = .error (.reservedBits 0x3F) ∧ decode 0x00040001 = .error (.reservedBits 0x01) ∧
    decode 0x00004004 = .error (.reservedBits 0x04) ∧ decode 0x00000408 = .error (.reservedBits 0x08) ∧
    decode 0x00200010 = .error (.reservedBits 0x10) ∧ decode 0x00400018 = .error (.reservedBits 0x18) ∧
    decode 0x00080019 = .error (.reservedBits 0x19) ∧ decode 0x0800001A = .error (.reservedBits 0x1A) := by decide

/-- Encodings of 95_test_vectors.md §2. -/
theorem test_encode : encode (.split 257 1) = 0x0000C058 ∧ encode (.lbasis 4 0 3) = 0x000C011A ∧
    encode (.mldi 1 0xFFFF) = 0xFFFF0048 ∧ encode (.peval 2 1 3) = 0x0000C490 := by decide

/-- R77, and the spellings of R76. -/
theorem test_pseudo : (Pseudo.mdiv 1 1 2).expand = none ∧ (Pseudo.mdiv 3 1 2).expand = some [.minv 3 2, .mmul 3 1 3] ∧
    (Pseudo.mone 4).expand = some [.mldi 4 1] ∧ (Pseudo.msqr 2 5).expand = some [.mmul 2 5 5] := by decide

theorem test_text : (Instr.lbasis 1 0 3).text = "LBASIS F1, 0, 3" := by decide

/-! ### One step of each command, on the values of 95_test_vectors.md §2 -/

/-- A state with a modulus and some field registers. -/
def regs (P : Nat) (fs : List (FReg × Nat)) : State :=
  fs.foldl (fun s x => writeF s x.1 x.2) { State.resetWith ⟨32, 64, 256, 0⟩ with P := P }

/-- A state with a modulus, the first coefficients and the first share slots; NSHARE = 5 unless there are more. -/
def shares (P : Nat) (C : List Nat) (slots : List (Nat × Nat)) : State :=
  { State.resetWith ⟨32, 64, 5, 0⟩ with
    P := P
    C := C ++ List.replicate (64 - C.length) 0
    SIDX := slots.map (fun x => BitVec.ofNat 32 x.1) ++ List.replicate (5 - slots.length) 0
    SVAL := slots.map (·.2) ++ List.replicate (5 - slots.length) 0 }

/-- The value of a field register after a command that completed with DONE. -/
def value (o : Host.Outcome State Fault Refusal) (r : FReg) : Option Nat :=
  match o with
  | .next t => if t.status.done && !t.status.err && !t.status.busy then some (readF t r) else none
  | _ => none

/-- ERRCODE and ERRINFO after a command that completed with ERR. -/
def error (o : Host.Outcome State Fault Refusal) : Option (Nat × Nat) :=
  match o with
  | .next t =>
    if t.status.err && !t.status.done && !t.status.busy then
      some (t.status.errcode.toNat, (errinfoWord t.errinfo).toNat)
    else none
  | _ => none

/-- The first share slots and coefficients after a command. -/
def slots (o : Host.Outcome State Fault Refusal) (n : Nat) : List Nat × List Nat × List Nat :=
  match o with
  | .next t => ((t.SIDX.take n).map BitVec.toNat, t.SVAL.take n, t.C.take 3)
  | _ => ([], [], [])

/-- The word issued to a state, and the engine's turn. -/
def issued (s : State) (w : Nat) : Host.Outcome State Fault Refusal := step (s.withFetchWord 32 w)

theorem test_nop : error (issued (regs 0 []) 0x3F) = none ∧ value (issued (regs 0 [(4, 9)]) 0x3F) 4 = some 9 := by decide

theorem test_madd : value (issued (regs 97 [(1, 50), (2, 60)]) 0x84C1) 3 = some 13 ∧
    value (issued (regs 4294967291 [(1, 4294967290), (2, 4294967290)]) 0x84C1) 3 = some 4294967289 := by decide

theorem test_madd_errors : error (issued (regs 97 [(1, 97), (2, 1)]) 0x84C1) = some (1, 0x0102) ∧
    error (issued (regs 97 [(1, 1), (2, 200)]) 0x84C1) = some (1, 0x0202) ∧
    error (issued (regs 1 []) 0x84C1) = some (1, 0x0001) := by decide

theorem test_msub : value (issued (regs 97 [(1, 5), (2, 7)]) 0x84C2) 3 = some 95 ∧
    value (issued (regs 97 [(1, 7), (2, 5)]) 0x84C2) 3 = some 2 ∧
    value (issued (regs 97 [(1, 42)]) 0x4442) 1 = some 0 := by decide

theorem test_mmul : value (issued (regs 97 [(1, 12), (2, 34)]) 0x84C3) 3 = some 20 ∧
    value (issued (regs 97 [(1, 10)]) 0x4443) 1 = some 3 ∧
    value (issued (regs 4294967291 [(1, 4294967290), (2, 4294967290)]) 0x84C3) 3 = some 1 := by decide

theorem test_mneg : value (issued (regs 97 [(1, 1)]) 0x484) 2 = some 96 ∧
    value (issued (regs 97 [(1, 0)]) 0x484) 2 = some 0 := by decide

theorem test_minv : value (issued (regs 97 [(1, 35)]) 0x485) 2 = some 61 ∧
    value (issued (regs 15 [(1, 4)]) 0x485) 2 = some 4 ∧ value (issued (regs 2 [(1, 1)]) 0x485) 2 = some 1 ∧
    value (issued (regs 4294967291 [(1, 2)]) 0x485) 2 = some 2147483646 := by decide

theorem test_minv_nonunit : error (issued (regs 97 [(1, 0)]) 0x485) = some (2, 0x0110) ∧
    error (issued (regs 15 [(1, 5)]) 0x485) = some (2, 0x0110) := by decide

theorem test_mexp : value (issued (regs 97 [(1, 2), (2, 10)]) 0x84C6) 3 = some 54 ∧
    value (issued (regs 97 [(1, 3), (2, 95)]) 0x84C6) 3 = some 65 ∧
    value (issued (regs 4294967291 [(1, 2), (2, 4294967289)]) 0x84C6) 3 = some 2147483646 := by decide

theorem test_mexp_zero : value (issued (regs 97 []) 0x84C6) 3 = some 1 ∧
    value (issued (regs 97 [(2, 5)]) 0x84C6) 3 = some 0 ∧
    error (issued (regs 97 [(1, 2), (2, 97)]) 0x84C6) = some (1, 0x0202) := by decide

theorem test_mmov : value (issued (regs 97 [(1, 0x1234)]) 0x547) 5 = some 4660 ∧
    value (issued (regs 0 [(1, 0x1234)]) 0x547) 5 = some 4660 := by decide

theorem test_mldi : value (issued (regs 97 []) 0x00640048) 1 = some 3 ∧
    value (issued (regs 97 []) 0xFFFF0048) 1 = some 60 ∧ error (issued (regs 0 []) 0x00050048) = some (1, 0x0001) := by
  decide

theorem test_peval : value (issued (writeF (shares 97 [5, 3, 2] []) 1 10) 0xC490) 2 = some 41 ∧
    value (issued (writeF (shares 97 [5, 3, 2] []) 1 0) 0xC490) 2 = some 5 ∧
    value (issued (writeF (shares 97 [5, 97, 2] []) 1 10) 0x4490) 2 = some 5 := by decide

theorem test_peval_errors : error (issued (shares 97 [5, 3, 2] []) 0x490) = some (1, 0x0103) ∧
    error (issued (shares 97 [5, 3, 2] []) 0x104490) = some (1, 0x0403) ∧
    error (issued (shares 97 [5, 97, 2] []) 0xC490) = some (1, 0x0104) := by decide

theorem test_split : slots (issued (shares 97 [5, 3, 2] []) 0x18158) 5 =
      ([0, 1, 2, 3, 4], [10, 19, 32, 49, 70], [5, 0, 0]) ∧
    slots (issued { shares 97 [5, 3, 2] [(7, 8), (7, 8), (7, 8), (7, 8)] with ctrl := ⟨false, false⟩ } 0x180D8) 4 =
      ([0, 1, 2, 7], [10, 19, 32, 8], [5, 3, 2]) := by decide

theorem test_split_errors : error (issued (shares 97 [5, 3, 2] []) 0x18098) = some (1, 0x0303) ∧
    error (issued (shares 97 [5, 3, 2] []) 0x208158) = some (1, 0x0303) ∧
    error (issued (shares 5 [1, 1, 1] []) 0x18158) = some (1, 0x0703) ∧
    error (issued (shares 97 [97, 3, 2] []) 0x18158) = some (1, 0x0004) := by decide

theorem test_combine : value (issued (shares 97 [] [(4, 70), (2, 32), (0, 10)]) 0xC19) 0 = some 5 ∧
    value (issued (shares 97 [] [(0, 10), (0, 10), (1, 19), (2, 32)]) 0x1019) 0 = some 5 ∧
    value (issued (shares 97 [] [(96, 5), (0, 10)]) 0x819) 0 = some 5 ∧
    value (issued (shares 97 [] [(1, 19), (3, 49)]) 0x819) 0 = some 86 ∧
    value (issued (shares 97 [] []) 0x19) 0 = some 0 := by decide

theorem test_combine_errors : error (issued (shares 97 [] [(0, 10), (0, 11), (1, 19)]) 0xC19) = some (2, 0x0011) ∧
    error (issued (shares 97 [] [(0, 10), (97, 11), (1, 19)]) 0xC19) = some (2, 0x0011) ∧
    error (issued (shares 97 [] [(0, 97), (1, 19)]) 0x859) = some (1, 0x0005) ∧
    error (issued (shares 97 [] []) 0x40459) = some (1, 0x0503) := by decide

theorem test_lbasis : value (issued (shares 97 [] [(0, 10), (1, 19), (2, 32)]) 0xC045A) 1 = some 94 ∧
    value (issued (shares 97 [] [(4, 70), (2, 32), (0, 10)]) 0xC005A) 1 = some 61 ∧
    value (issued (shares 97 [] [(0, 10), (0, 10), (1, 19)]) 0xC045A) 1 = some 0 ∧
    value (issued (shares 97 [] [(0, 10), (0, 11), (1, 19)]) 0xC085A) 1 = some 1 := by decide

theorem test_lbasis_errors : error (issued (shares 97 [] [(0, 10), (0, 11), (1, 19)]) 0xC005A) = some (2, 0x0011) ∧
    error (issued (shares 97 [] [(0, 10), (1, 19)]) 0x8085A) = some (1, 0x0603) ∧
    error (issued (shares 97 [] []) 0x5A) = some (1, 0x0203) := by decide

/-- 95_test_vectors.md §2.2: decode comes before the modulus check. -/
theorem test_illegal_command : error (issued (regs 0 []) 0x9) = some (3, 0x0920) ∧
    error (issued (regs 0 []) 0x0800001A) = some (3, 0x1A21) := by decide

/-- 95_test_vectors.md §1.2: the source's fixture, at W = 128. -/
theorem test_fixture_combines :
    value (exec (.combine 0 3) { State.resetWith ⟨128, 3, 3, 0⟩ with
      P := 3802326154978466566103
      SIDX := [3, 0, 1]
      SVAL := [156585161940314957626, 2127494947956767830687, 1853045854103335027193] }) 0 =
    some 2019423206991482479988 := by decide

/-! ### The register window, 95_test_vectors.md §2.5 -/

/-- rdata and STATUS after the accesses, in the order of the list. -/
def seen (s : State) (es : List Event) : Option (Option Nat × Nat) :=
  match Host.Core.run Sys2Proof.core es.length { s with events := es } with
  | .next t => some (t.rdata.map BitVec.toNat, (statusWord t.status).toNat)
  | _ => none

/-- A read, and an access with chosen byte enables. -/
def rd (off : Nat) : Event := hostRead Params.standard off
def wr (off : Nat) (v : Word) : Event := hostWrite Params.standard off v

theorem test_window_id_param : seen State.reset [rd 0x0000] = some (some 0x47465045, 0) ∧
    seen State.reset [rd 0x0004] = some (some 0x11004001, 0) := by decide +kernel

theorem test_window_ctrl : seen State.reset [rd 0x0008] = some (some 2, 0) ∧
    seen State.reset [wr 0x0008 0x7FFFFFFD, rd 0x0008] = some (some 1, 0) ∧
    seen State.reset [wr 0x1000 7, wr 0x0008 0x80000001, rd 0x0008] = some (some 2, 0) := by decide +kernel

theorem test_window_werr : seen State.reset [wr 0x0000 5] = some (none, 8) ∧
    seen State.reset [wr 0x0000 5, wr 0x000C 8] = some (none, 0) ∧
    seen State.reset [wr 0x0014 1] = some (none, 8) ∧ seen State.reset [wr 0x000C 6] = some (none, 0) := by
  decide +kernel

theorem test_window_reserved : seen State.reset [rd 0x0018] = some (some 0, 8) ∧
    seen State.reset [rd 0x1004] = some (some 0, 8) ∧
    seen (State.resetWith ⟨32, 4, 256, 0⟩) [wr 0x4800 9] = some (none, 8) := by decide +kernel

theorem test_window_ill_formed : seen State.reset [wr 0x1002 7, rd 0x1000] = some (some 0, 8) ∧
    seen State.reset [.access ⟨0x1000, .write 7, 0x3⟩, rd 0x1000] = some (some 0, 8) := by decide +kernel

theorem test_window_data : seen State.reset [wr 0x4000 9, rd 0x4000] = some (some 9, 0) ∧
    seen (State.resetWith ⟨64, 1, 256, 0x40000⟩)
      [.access ⟨0x40000 + 0x2FE04, .write 9, 0xF⟩, .access ⟨0x40000 + 0x2FE04, .read, 0xF⟩] = some (some 9, 0) := by
  decide +kernel

theorem test_window_cmd_reads_back :
    seen State.reset [wr 0x1000 97, hostIssue Params.standard (.mmul 3 1 2), .engine, rd 0x0010] =
      some (some 0x84C3, 2) := by decide +kernel

/-- 20_memory.md R47 and R48: a write to P and a second CMD write while BUSY = 1 are ignored and set WERR. -/
theorem test_window_busy : seen State.reset [wr 0x0010 0x3F, wr 0x1000 7, rd 0x000C] = some (some 9, 9) ∧
    seen State.reset [wr 0x0010 0x3F, wr 0x0010 0x84C3, rd 0x0010] = some (some 0x3F, 9) := by decide +kernel

/-- 70_reset_and_hazards.md R127 and R129: a reset drops the command in flight; the host has no move meanwhile. -/
theorem test_reset_drops_command :
    seen State.reset [wr 0x0010 0x3F, .assertReset, .engine, .releaseReset, rd 0x0010] = some (some 0, 0) ∧
    seen State.reset [.assertReset, rd 0x0010] = none := by decide +kernel

/-! ### Witnesses: the hypotheses of each obligation can be met, clause by clause -/

/-- W = 32, NCOEF = 3, NSHARE = 4: P = 97, C = (5, 3, 2) and the shares of f(x) = 5 + 3x + 2x² at x = 1, 2, 3. -/
def tiny : State :=
  { State.resetWith ⟨32, 3, 4, 0⟩ with P := 97, C := [5, 3, 2], SIDX := [0, 1, 2, 3], SVAL := [10, 19, 32, 49] }

/-- The same with another modulus. -/
def tinyP (P : Nat) : State := { tiny with P := P }

/-- The same with a command in flight. -/
def flying (v : Word) : State := issue tiny v

/-- The same with an access, or another move, next. -/
def next (s : State) (e : Event) : State := { s with events := [e] }

theorem test_tiny_wf : tiny.WF :=
  ⟨by decide, ⟨by decide, by decide, by decide, by decide, by decide, by decide, by decide⟩,
    ⟨by decide, by decide, by decide, by decide, by decide, by decide⟩, nofun⟩

theorem test_flying_wf (v : Word) : (flying v).WF :=
  have h := test_tiny_wf.fits
  ⟨test_tiny_wf.legal, ⟨h.P_lt, h.F_lt, h.C_length, h.C_lt, h.SIDX_length, h.SVAL_length, h.SVAL_lt⟩,
    ⟨nofun, fun _ => ⟨rfl, rfl⟩, fun _ => ⟨rfl, rfl⟩, fun _ => ⟨rfl, rfl⟩, nofun, Nat.zero_le 3⟩, nofun⟩

/-- What a host access needs: it is the next move and RST_N is released. -/
theorem access_next (s : State) (a : Access) (h : s.rstAsserted = false) : (next s (.access a)).AccessNext a :=
  ⟨h, [], rfl⟩

theorem test_hyp_DecodeOfEncodeIsTheCommand : (Instr.madd 15 15 15).wf = true ∧ (Instr.mldi 15 0xFFFF).wf = true ∧
    (Instr.peval 15 15 127).wf = true ∧ (Instr.split 511 127).wf = true ∧ (Instr.combine 15 511).wf = true ∧
    (Instr.lbasis 15 255 511).wf = true := by decide

theorem test_hyp_EncodeOfDecodeIsTheWord : decode 0x07FFFFDA = .ok (.lbasis 15 255 511) := by decide

theorem test_hyp_WordSpellsRow : ((0x1A, .lbasis, 0x0000001A, 0xF800003F) : Nat × OpRow × Word × Word) ∈ opcodeMap ∧
    (0x07FFFFDA : Word) &&& 0xF800003F = 0x0000001A ∧ (0x0800001A : Word) &&& 0xF800003F ≠ 0x0000001A := by decide

theorem test_hyp_IllegalWords_opcode :
    (flying 0).status.busy = true ∧ (flying 0).EngineNext ∧ (flying 0).cmd.toNat % 64 ∉ opcodeMap.map (·.1) :=
  ⟨rfl, .inl rfl, by decide⟩

theorem test_hyp_IllegalWords_reserved : (flying 0x7F).status.busy = true ∧ (flying 0x7F).EngineNext ∧
    ((0x3F, .nop, 0x0000003F, 0xFFFFFFFF) : Nat × OpRow × Word × Word) ∈ opcodeMap ∧
    (flying 0x7F).cmd.toNat % 64 = 0x3F ∧ (flying 0x7F).cmd &&& 0xFFFFFFFF ≠ 0x0000003F :=
  ⟨rfl, .inl rfl, by decide, by decide, by decide⟩

theorem test_hyp_IllegalWords_legal : (flying 0x3F).status.busy = true ∧ (flying 0x3F).EngineNext ∧
    ((0x3F, .nop, 0x0000003F, 0xFFFFFFFF) : Nat × OpRow × Word × Word) ∈ opcodeMap ∧
    (flying 0x3F).cmd &&& 0xFFFFFFFF = 0x0000003F ∧ (flying 0x3F).status.errcode ≠ 3 :=
  ⟨rfl, .inl rfl, by decide, by decide, by decide⟩

theorem test_hyp_StepRunsDecodedCommand : (flying 0x84C1).status.busy = true ∧ (flying 0x84C1).EngineNext ∧
    decode (flying 0x84C1).cmd = .ok (.madd 3 1 2) := ⟨rfl, .inl rfl, by decide⟩

theorem test_hyp_StepPerformsTheNextMove :
    (next tiny (.access ⟨0, .read, 0xF⟩)).events = .access ⟨0, .read, 0xF⟩ :: [] ∧
    (next (flying 0x3F) .assertReset).events = .assertReset :: [] ∧
    (next tiny .releaseReset).events = .releaseReset :: [] ∧
    (tiny.status.busy = false ∧ tiny.EngineNext) ∧ (next tiny .engine).EngineNext :=
  ⟨rfl, rfl, rfl, ⟨rfl, .inl rfl⟩, .inr ⟨[], rfl⟩⟩

theorem test_hyp_PlacedCommandRunsNext : decodeTableWord 32 0x07FFFFDA = some (.lbasis 15 255 511) := by decide

/-- MADD, MSUB, MMUL and MEXP: P one below its least value, each source at P, and both sources at P - 1. -/
theorem test_hyp_two_sources : (tinyP 1).P < 2 ∧
    (2 ≤ (writeF (tinyP 2) 1 2).P ∧ (writeF (tinyP 2) 1 2).P ≤ readF (writeF (tinyP 2) 1 2) 1) ∧
    (readF (writeF (tinyP 2) 2 2) 1 < (tinyP 2).P ∧ (tinyP 2).P ≤ readF (writeF (tinyP 2) 2 2) 2) ∧
    TwoSourcesReduced (writeF (writeF (tinyP 2) 1 1) 2 1) 1 2 := by decide

/-- MNEG and MINV: P one below its least value, the source at P, 0 (no unit), and P - 1 (a unit). -/
theorem test_hyp_one_source : (tinyP 1).P < 2 ∧
    (2 ≤ (tinyP 2).P ∧ (tinyP 2).P ≤ readF (writeF (tinyP 2) 1 2) 1) ∧
    (readF (tinyP 2) 1 < (tinyP 2).P ∧ Nat.gcd (readF (tinyP 2) 1) (tinyP 2).P ≠ 1) ∧
    (readF (writeF (tinyP 2) 1 1) 1 < (tinyP 2).P ∧ Nat.gcd (readF (writeF (tinyP 2) 1 1) 1) (tinyP 2).P = 1) := by
  decide

theorem test_hyp_MldiLoadsReducedImmediate : 0xFFFF < 2 ^ 16 ∧ (tinyP 1).P < 2 ∧ 2 ≤ (tinyP 2).P := by decide

/-- T at 127, at 0, one above NCOEF and at NCOEF; a source at P; C[T-1] the first coefficient at P. -/
theorem test_hyp_PevalEvaluatesThePolynomial : 127 < 2 ^ 7 ∧ (tinyP 1).P < 2 ∧ (2 ≤ tiny.P ∧ 0 < 1) ∧
    (1 ≤ 4 ∧ tiny.params.NCOEF < 4) ∧ (3 ≤ tiny.params.NCOEF ∧ tiny.P ≤ readF (writeF tiny 1 97) 1) ∧
    (readF tiny 1 < tiny.P ∧ 2 < 3 ∧ CoefsReduced { tiny with C := [96, 96, 97] } 2 ∧
      tiny.P ≤ readC { tiny with C := [96, 96, 97] } 2) ∧
    (3 ≤ tiny.params.NCOEF ∧ readF tiny 1 < tiny.P ∧ CoefsReduced tiny 3) := by decide

/-- Each count of SPLIT one outside its range; N = P; C[T-1] the first coefficient at P. -/
theorem test_hyp_SplitChecksInOrder : (tinyP 1).P < 2 ∧ (2 ≤ tiny.P ∧ 0 < 1) ∧ (1 ≤ 1 ∧ 0 < 1) ∧ (1 ≤ 2 ∧ 2 < 3) ∧
    (4 ≤ 4 ∧ tiny.params.NCOEF < 4) ∧ (3 ≤ 5 ∧ 3 ≤ tiny.params.NCOEF ∧ tiny.params.NSHARE < 5) ∧
    (2 ≤ (tinyP 4).P ∧ 4 ≤ (tinyP 4).params.NSHARE ∧ (tinyP 4).P ≤ 4) ∧
    (4 < tiny.P ∧ 2 < 3 ∧ CoefsReduced { tiny with C := [96, 96, 97] } 2 ∧
      tiny.P ≤ readC { tiny with C := [96, 96, 97] } 2) := by decide

theorem test_hyp_SplitWritesTheShares : 511 < 2 ^ 9 ∧ 127 < 2 ^ 7 ∧ SplitAccepts tiny 4 3 ∧ SplitAccepts tiny 1 1 ∧
    SplitAccepts { tinyP 5 with C := [4, 4, 4] } 4 3 ∧ tiny.zlatch = false ∧ (flying 0).zlatch = true := by decide

theorem test_hyp_ZeroizeOnlyAfterSuccessfulSplit : (∃ u, exec (.split 4 3) (flying 0) = .next u) ∧
    (SplitAccepts (flying 0) 4 3 ∧ (flying 0).zlatch = true) ∧ tiny.zlatch = false ∧ ¬SplitAccepts tiny 2 3 :=
  ⟨⟨_, rfl⟩, by decide, by decide, by decide⟩

/-- N one above NSHARE; the last of N slots the first at P; a unit den(0), then den(1) = 97 = P no unit. -/
theorem test_hyp_CombineChecksInOrder : (tinyP 1).P < 2 ∧ (2 ≤ tiny.P ∧ tiny.params.NSHARE < 5) ∧
    (4 ≤ tiny.params.NSHARE ∧ 3 < 4 ∧ SharesReduced { tiny with SVAL := [96, 96, 96, 97] } 3 ∧
      tiny.P ≤ readSVAL { tiny with SVAL := [96, 96, 96, 97] } 3) ∧
    (SharesReduced { tiny with SIDX := [0, 1, 98, 3] } 3 ∧
      1 ∈ keptSlots { tiny with SIDX := [0, 1, 98, 3] } 3 ∧ ¬DenUnit { tiny with SIDX := [0, 1, 98, 3] } 3 1 ∧
      ∀ j ∈ keptSlots { tiny with SIDX := [0, 1, 98, 3] } 3, j < 1 → DenUnit { tiny with SIDX := [0, 1, 98, 3] } 3 j) := by
  decide +kernel

theorem test_hyp_CombineInterpolatesAtZero : 511 < 2 ^ 9 ∧ 2 ≤ tiny.P ∧ 4 ≤ tiny.params.NSHARE ∧ SharesReduced tiny 4 ∧
    (∀ k ∈ keptSlots tiny 4, DenUnit tiny 4 k) ∧ 0 ≤ tiny.params.NSHARE ∧ SharesReduced tiny 0 ∧
    ∀ k ∈ keptSlots tiny 0, DenUnit tiny 0 k := by decide +kernel

/-- N at 0 and one above NSHARE; K = N; the last of N slots the first at P; den(K) no unit; K = N - 1 dropped, and kept
with a unit den(K). -/
theorem test_hyp_LbasisChecksInOrder : (tinyP 1).P < 2 ∧ (2 ≤ tiny.P ∧ 0 < 1) ∧ (1 ≤ 5 ∧ tiny.params.NSHARE < 5) ∧
    (1 ≤ 4 ∧ 4 ≤ tiny.params.NSHARE ∧ 4 ≤ 4) ∧
    (0 < 4 ∧ 3 < 4 ∧ SharesReduced { tiny with SVAL := [96, 96, 96, 97] } 3 ∧
      tiny.P ≤ readSVAL { tiny with SVAL := [96, 96, 96, 97] } 3) ∧
    (SharesReduced { tiny with SIDX := [0, 1, 98, 3] } 3 ∧
      2 ∈ keptSlots { tiny with SIDX := [0, 1, 98, 3] } 3 ∧ ¬DenUnit { tiny with SIDX := [0, 1, 98, 3] } 3 2) ∧
    (SharesReduced { tiny with SIDX := [0, 1, 2, 2], SVAL := [10, 19, 32, 32] } 4 ∧
      3 ∉ keptSlots { tiny with SIDX := [0, 1, 2, 2], SVAL := [10, 19, 32, 32] } 4) ∧
    (SharesReduced tiny 4 ∧ 3 ∈ keptSlots tiny 4 ∧ DenUnit tiny 4 3) := by
  decide +kernel

/-- K at N - 1, once a dropped duplicate and once kept with a unit den(K). -/
theorem test_hyp_LbasisGivesOneBasisValue : 255 < 2 ^ 8 ∧ 511 < 2 ^ 9 ∧ 2 ≤ tiny.P ∧ 4 ≤ tiny.params.NSHARE ∧ 3 < 4 ∧
    (SharesReduced { tiny with SIDX := [0, 1, 2, 2], SVAL := [10, 19, 32, 32] } 4 ∧
      3 ∉ keptSlots { tiny with SIDX := [0, 1, 2, 2], SVAL := [10, 19, 32, 32] } 4) ∧
    (SharesReduced tiny 4 ∧ 3 ∈ keptSlots tiny 4 ∧ DenUnit tiny 4 3) := by decide +kernel

theorem test_hyp_OneDestinationFrame : (Instr.mldi 15 7).dest = some 15 ∧ ∃ t, exec (.mldi 15 7) tiny = .next t :=
  ⟨rfl, _, rfl⟩

theorem test_hyp_NopAndSplitFrame : (∃ t, exec .nop tiny = .next t) ∧ (∃ u, exec (.split 3 3) tiny = .next u) ∧
    ∃ u, exec (.split 5 3) tiny = .next u := ⟨⟨_, rfl⟩, ⟨_, rfl⟩, _, rfl⟩

theorem test_hyp_FailingCommandWritesNoData :
    tiny.status.err = false ∧ ∃ t, exec (.minv 2 1) tiny = .next t ∧ t.status.err = true :=
  ⟨rfl, commitError tiny (.invNonunit 1), rfl, rfl⟩

theorem test_hyp_CommandCompletesWithOneOutcome : (flying 0x3F).toBlock.FlagsAgree ∧ (flying 0x3F).status.busy = true :=
  ⟨(test_flying_wf _).flags, rfl⟩

/-- A row of R106 and one of R107, from 95_test_vectors.md §2: both outcomes that are errors are reached. -/
theorem test_errorRows : (⟨1, 0x03, some 3, [.split]⟩ : ErrorRow) ∈ errorRows ∧
    error (exec (.split 2 3) (flying 0)) = some (1, 0x0303) ∧ error (exec (.minv 2 1) (flying 0)) = some (2, 0x0110) := by
  decide

theorem test_hyp_CommittedResultsAreReduced : tiny.toBlock.Fits ∧ tiny.status.done = false ∧
    (∃ t, exec (.mneg 2 1) tiny = .next t ∧ t.status.done = true) ∧
    ∃ t, exec (.split 4 3) tiny = .next t ∧ t.status.done = true :=
  ⟨test_tiny_wf.fits, rfl, ⟨commitOk (writeF tiny 2 0), rfl, rfl⟩, commitOk (writeShares tiny 4 3), rfl, rfl⟩

theorem test_hyp_ExecuteDependsOnDataOnly : tiny.params = (next tiny .engine).params ∧ SameData tiny (next tiny .engine) ∧
    tiny.zlatch = (next tiny .engine).zlatch ∧ tiny.status = (next tiny .engine).status ∧
    tiny.errinfo = (next tiny .engine).errinfo ∧ (∃ t, exec (.split 4 3) tiny = .next t) ∧
    ∃ t, exec (.split 4 3) (next tiny .engine) = .next t :=
  ⟨rfl, ⟨rfl, rfl, rfl, rfl, rfl⟩, rfl, rfl, rfl, ⟨_, rfl⟩, _, rfl⟩

/-- For each well-formed access, at any offset, of a command in flight and of an idle block. -/
theorem test_hyp_access (s : State) (off : Nat) (k : AccessKind) (h : s.rstAsserted = false) :
    (next s (.access (wordAccess s.params off k))).AccessNext (wordAccess s.params off k) := ⟨h, [], rfl⟩

theorem test_hyp_CmdWrite : tiny.rstAsserted = false ∧ tiny.status.busy = false ∧ (flying 0x3F).rstAsserted = false ∧
    (flying 0x3F).status.busy = true := by decide

/-- The first and the last offset of the data region at W = 32, NCOEF = 3, NSHARE = 4. -/
theorem test_hyp_DataAccessWhileBusySetsWerr : (flying 0x3F).status.busy = true ∧ 0x1000 % 4 = 0 ∧
    DataOffset tiny.params 0x1000 ∧ 0x10600 % 4 = 0 ∧ DataOffset tiny.params 0x10600 := by decide

/-- An unaligned access at the end of the window, and one with three byte enables. -/
theorem test_hyp_IllFormedAccessSetsWerr :
    (next tiny (.access ⟨0x3FFFF, .read, 0xF⟩)).AccessNext ⟨0x3FFFF, .read, 0xF⟩ ∧
    tiny.params.BASE ≤ 0x3FFFF ∧ 0x3FFFF < tiny.params.BASE + 0x40000 ∧ (0x3FFFF - tiny.params.BASE) % 4 ≠ 0 ∧
    (next tiny (.access ⟨0x08, .write 1, 0x7⟩)).AccessNext ⟨0x08, .write 1, 0x7⟩ ∧ (0x7 : BitVec 4) ≠ 0xF :=
  ⟨access_next _ _ rfl, by decide, by decide, by decide, access_next _ _ rfl, by decide⟩

/-- The first reserved offset of each range of the map, and the last of the window. -/
theorem test_hyp_ReservedOffsetSetsWerr : ReservedOffset tiny.params 0x18 ∧ ReservedOffset tiny.params 0x1004 ∧
    ReservedOffset tiny.params 0x1200 ∧ ReservedOffset tiny.params 0x2004 ∧ ReservedOffset tiny.params 0x4004 ∧
    ReservedOffset tiny.params 0x4600 ∧ ReservedOffset tiny.params 0xC010 ∧ ReservedOffset tiny.params 0xC400 ∧
    ReservedOffset tiny.params 0x10004 ∧ ReservedOffset tiny.params 0x10800 ∧ ReservedOffset tiny.params 0x30000 ∧
    ReservedOffset tiny.params 0x3FFFC :=
  ⟨by decide, by decide, by decide, by decide, by decide, by decide, by decide, by decide, by decide, by decide,
    by decide, by decide⟩

/-- Accesses to ID, PARAM, CTRL, STATUS and ERRINFO, and a CTRL word with bit 31 = 0. -/
theorem test_hyp_control_registers (k : AccessKind) : (∀ off ∈ [0x00, 0x04, 0x08, 0x0C, 0x14],
      (next tiny (.access (wordAccess tiny.params off k))).AccessNext (wordAccess tiny.params off k)) ∧
    tiny.params.Legal ∧ (0x7FFFFFFF : Word).getLsbD 31 = false :=
  ⟨fun _ _ => access_next _ _ rfl, by decide, by decide⟩

theorem test_hyp_ResetClearsEveryRegister : (∃ rest, (next (flying 0x3F) .assertReset).events = .assertReset :: rest) ∧
    ∃ a, (next (flying 0x3F) (.access (wordAccess tiny.params 0x08 (.write 0x80000001)))).AccessNext a ∧
      SoftReset (next (flying 0x3F) (.access (wordAccess tiny.params 0x08 (.write 0x80000001)))) a :=
  ⟨⟨[], rfl⟩, wordAccess tiny.params 0x08 (.write 0x80000001), access_next _ _ rfl, 0x80000001, rfl, by decide⟩

theorem test_hyp_AssertedResetHoldsTheBlock : (holdReset tiny).WF ∧ (holdReset tiny).rstAsserted = true ∧
    (holdReset tiny).EngineNext ∧
    (next (holdReset tiny) (.access ⟨0x3FFFF, .read, 0xF⟩)).events = .access ⟨0x3FFFF, .read, 0xF⟩ :: [] ∧
    (holdReset tiny).params.BASE ≤ 0x3FFFF ∧ 0x3FFFF < (holdReset tiny).params.BASE + 0x40000 ∧
    (next (holdReset tiny) .releaseReset).events = .releaseReset :: [] :=
  ⟨⟨by decide, ⟨by decide, by decide, by decide, by decide, by decide, by decide, by decide⟩,
    ⟨by decide, by decide, by decide, by decide, by decide, by decide⟩, fun _ => rfl⟩, rfl, .inl rfl, rfl, by decide,
    by decide, rfl⟩

/-- The last address of the window, WERR set before and not cleared; a violation; a clearing write; an engine's turn. -/
theorem test_hyp_WerrIsStickyAndExact :
    (next (setWerr tiny) (.access ⟨0x3FFFF, .read, 0xF⟩)).AccessNext ⟨0x3FFFF, .read, 0xF⟩ ∧
    tiny.params.BASE ≤ 0x3FFFF ∧ 0x3FFFF < tiny.params.BASE + 0x40000 ∧ Violation tiny ⟨0x3FFFF, .read, 0xF⟩ ∧
    ((setWerr tiny).status.werr = true ∧ ¬Violation tiny (wordAccess tiny.params 0x08 .read) ∧
      ¬ClearsWerr tiny (wordAccess tiny.params 0x08 .read)) ∧
    ClearsWerr tiny (wordAccess tiny.params 0x0C (.write 8)) ∧ ∃ t, step (flying 0x3F) = .next t :=
  ⟨access_next _ _ rfl, by decide, by decide, by decide,
    ⟨rfl, by simp [Violation, ReservedOffset, DataOffset, wordAccess, tiny], fun ⟨_, w, h, _⟩ => nomatch (h : AccessKind.read = .write w)⟩,
    ⟨rfl, 8, rfl, .inl ⟨by decide, by decide⟩⟩, commitOk (flying 0x3F), rfl⟩

/-- The last words of each array. -/
theorem test_hyp_HostWriteThenRead : tiny.WF ∧ tiny.rstAsserted = false ∧ tiny.status.busy = false ∧
    DataReg.HasWord tiny.params 0 .modulus ∧ DataReg.HasWord tiny.params 0 (.field 15) ∧
    DataReg.HasWord tiny.params 0 (.coef 2) ∧ DataReg.HasWord tiny.params 0 (.shareIndex 3) ∧
    DataReg.HasWord tiny.params 0 (.shareValue 3) ∧ DataReg.HasWord ⟨4096, 64, 256, 0⟩ 127 (.shareValue 255) ∧
    (⟨4096, 64, 256, 0⟩ : Params).Legal :=
  ⟨test_tiny_wf, rfl, rfl, by decide, by decide, by decide, by decide, by decide, by decide, by decide⟩

theorem test_hyp_HostWriteThenRead_events (w : Word) : ∃ s : State,
    s.events = .access (wordAccess s.params (regOffset (.shareIndex 3) + 4 * 0) (.write w)) ::
      .access (wordAccess s.params (regOffset (.shareIndex 3) + 4 * 0) .read) :: [] :=
  ⟨{ tiny with events := [.access (wordAccess tiny.params (regOffset (.shareIndex 3) + 4 * 0) (.write w)),
      .access (wordAccess tiny.params (regOffset (.shareIndex 3) + 4 * 0) .read)] }, rfl⟩

/-- W = 64 and the words in the order 1, 0. -/
theorem test_hyp_ElementLoadsInAnyOrder : (State.resetWith ⟨64, 1, 1, 0⟩).WF ∧
    (State.resetWith ⟨64, 1, 1, 0⟩).status.busy = false ∧ DataReg.HasWord ⟨64, 1, 1, 0⟩ 0 (.coef 0) ∧
    (∀ k, DataReg.coef 0 ≠ .shareIndex k) ∧ 2 ^ 64 - 1 < 2 ^ (⟨64, 1, 1, 0⟩ : Params).W ∧
    List.Perm [1, 0] (List.range ((⟨64, 1, 1, 0⟩ : Params).W / 32)) :=
  ⟨⟨by decide, ⟨by decide, by decide, by decide, by decide, by decide, by decide, by decide⟩,
    ⟨by decide, by decide, by decide, by decide, by decide, by decide⟩, nofun⟩, rfl, by decide, nofun, by decide,
    by decide⟩

/-- CMD, and the last word of the data region, which is word 0 of the last share value; CMD and ERRINFO with a command in
flight. -/
theorem test_hyp_IdleReadHasNoSideEffect : tiny.status.busy = false ∧ 0x10 % 4 = 0 ∧ ¬ReservedOffset tiny.params 0x10 ∧
    0x10600 < 0x40000 ∧ 0x10600 % 4 = 0 ∧ ¬ReservedOffset tiny.params 0x10600 ∧ tiny.params.Legal ∧
    DataReg.HasWord tiny.params 0 (.shareValue 3) ∧
    (∀ off, (next tiny (.access (wordAccess tiny.params off .read))).AccessNext (wordAccess tiny.params off .read)) ∧
    ∀ off, (next (flying 0x3F) (.access (wordAccess tiny.params off .read))).AccessNext
      (wordAccess tiny.params off .read) :=
  ⟨by decide, by decide, by decide, by decide, by decide, by decide, by decide, by decide,
    fun _ => access_next _ _ rfl, fun _ => access_next _ _ rfl⟩

/-- spec/95_test_vectors.md §3, program 5: ERRINFO and CMD after a failing MINV; and word 1 of a 64-bit register. -/
theorem test_window_reads : seen State.reset [wr 0x1000 97, wr 0x0010 0x485, .engine, rd 0x0014] =
      some (some 0x110, 0x204) ∧
    seen State.reset [wr 0x1000 97, wr 0x0010 0x485, .engine, rd 0x0010] = some (some 0x485, 0x204) ∧
    seen { State.resetWith ⟨64, 1, 1, 0⟩ with P := 0x123456789ABCDEF0 } [rd 0x1004] = some (some 0x12345678, 0) := by
  decide +kernel

/-- One below and one above the window. -/
theorem test_hyp_AccessOutsideTheWindow : 0x3FFFF < (⟨32, 3, 4, 0x40000⟩ : Params).BASE ∧
    tiny.params.BASE + 0x40000 ≤ 0x40000 ∧
    (next tiny (.access ⟨0x40000, .read, 0xF⟩)).events = .access ⟨0x40000, .read, 0xF⟩ :: [] :=
  ⟨by decide, by decide, rfl⟩

theorem not_engineNext {s : State} {e : Event} (h : e ≠ .engine) : ¬(next s e).EngineNext := by
  simp [State.EngineNext, next, h]

/-- A write to P with a command in flight, and a release of RST_N. -/
theorem test_hyp_DataHeldWhileBusy : (flying 0x3F).status.busy = true ∧
    (∃ t, step (next (flying 0x3F) (.access (wordAccess tiny.params 0x1000 (.write 7)))) = .next t) ∧
    ¬(next (flying 0x3F) (.access (wordAccess tiny.params 0x1000 (.write 7)))).EngineNext ∧
    (∀ a, (next (flying 0x3F) (.access (wordAccess tiny.params 0x1000 (.write 7)))).AccessNext a →
      ¬SoftReset (flying 0x3F) a) ∧
    (∃ t, step (next (flying 0x3F) .releaseReset) = .next t) ∧ ¬(next (flying 0x3F) .releaseReset).EngineNext :=
  ⟨rfl, ⟨_, rfl⟩, not_engineNext nofun,
    fun a ⟨_, _, h⟩ ⟨w, e, _⟩ => by
      rw [e] at h
      exact absurd (congrArg Access.addr (Event.access.inj (List.cons.inj h).1))
        (by simp [wordAccess, flying, tiny, issue, State.resetWith, Block.reset]),
    ⟨_, rfl⟩, not_engineNext nofun⟩

theorem test_hyp_IrqFollowsCompletion : (flying 0).status.busy = true ∧ (flying 0).EngineNext ∧
    (∃ t, step (flying 0) = .next t) ∧
    (∃ t, step (next tiny (.access (wordAccess tiny.params 0x10 (.write 0x3F)))) = .next t) ∧
    (∃ t, step (next tiny (.access ⟨0x3FFFF, .read, 0xF⟩)) = .next t) ∧ Violation tiny ⟨0x3FFFF, .read, 0xF⟩ :=
  ⟨rfl, .inl rfl, ⟨_, rfl⟩, ⟨_, rfl⟩, ⟨_, rfl⟩, by decide⟩

theorem test_hyp_CmdWriteRacesCommit : (flying 0x3F).status.busy = true ∧ (flying 0x3F).rstAsserted = false ∧
    decode (flying 0x3F).cmd = .ok .nop ∧
    ({ flying 0x3F with events := [hostWrite tiny.params 0x10 0x84C1, .engine] } : State).events =
      hostWrite tiny.params 0x10 0x84C1 :: .engine :: [] ∧
    ({ flying 0x3F with events := [.engine, hostWrite tiny.params 0x10 0x84C1] } : State).events =
      .engine :: hostWrite tiny.params 0x10 0x84C1 :: [] := ⟨rfl, rfl, by decide, rfl, rfl⟩

theorem test_hyp_PolledCommandCompletes : (flying 0).status.busy = true ∧ (flying 0).rstAsserted = false ∧
    (flying 0).events = List.replicate 0 (hostRead (flying 0).params 0x0C) ∧
    (next (flying 0) (hostRead tiny.params 0x0C)).events = List.replicate 1 (hostRead tiny.params 0x0C) :=
  ⟨rfl, rfl, rfl, rfl⟩

theorem test_hyp_ResetIsWellFormed : (⟨4096, 64, 256, 0x40000⟩ : Params).Legal ∧ (⟨32, 1, 1, 0⟩ : Params).Legal := by
  decide

theorem test_hyp_StepKeepsWellFormed : (flying 0x84C1).WF ∧ ∃ t, step (flying 0x84C1) = .next t :=
  ⟨test_flying_wf _, _, rfl⟩

theorem test_hyp_ConflictingShares : 2 ≤ tiny.P ∧ 4 ≤ tiny.params.NSHARE ∧ 0 < 4 ∧ 3 < 4 ∧
    SharesReduced { tiny with SIDX := [7, 1, 2, 7] } 4 ∧
    readSIDX { tiny with SIDX := [7, 1, 2, 7] } 0 = readSIDX { tiny with SIDX := [7, 1, 2, 7] } 3 ∧
    readSVAL tiny 0 ≠ readSVAL tiny 3 := by decide

theorem test_hyp_CombineDecomposes : tiny.status.err = false ∧
    ∃ t, exec (.combine 0 4) tiny = .next t ∧ t.status.err = false :=
  ⟨rfl, commitOk (writeF tiny 0 (combineSum tiny 4)), rfl, rfl⟩

/-- The slots of `tiny` with the first two exchanged. -/
theorem test_hyp_CombineIgnoresTheOrderOfSlots :
    (∀ k, 4 ≤ k → Equiv.swap 0 1 k = k) ∧
    (∀ k, k < 4 →
      readSIDX { tiny with SIDX := [1, 0, 2, 3], SVAL := [19, 10, 32, 49] } k = readSIDX tiny (Equiv.swap 0 1 k) ∧
      readSVAL { tiny with SIDX := [1, 0, 2, 3], SVAL := [19, 10, 32, 49] } k = readSVAL tiny (Equiv.swap 0 1 k)) ∧
    tiny.status.err = false ∧ ∃ t, exec (.combine 0 4) tiny = .next t ∧ t.status.err = false :=
  ⟨fun k hk => Equiv.swap_apply_of_ne_of_ne (by omega) (by omega), by decide, rfl,
    commitOk (writeF tiny 0 (combineSum tiny 4)), rfl, rfl⟩

/-- T = N = 3 at the least prime above 3, and the shares taken in the reverse order. -/
theorem test_hyp_SplitThenCombine : ({ tinyP 5 with C := [4, 3, 2] } : State).WF ∧ (tinyP 5).P.Prime ∧
    (tinyP 5).params = tiny.params ∧ SplitAccepts { tinyP 5 with C := [4, 3, 2] } 3 3 ∧
    (∃ u, exec (.split 3 3) { tinyP 5 with C := [4, 3, 2] } = .next u ∧
      ∀ k, k < 3 → readSIDX { tinyP 5 with SIDX := [2, 1, 0, 0], SVAL := [1, 3, 4, 0] } k = readSIDX u (2 - k) ∧
        readSVAL { tinyP 5 with SIDX := [2, 1, 0, 0], SVAL := [1, 3, 4, 0] } k = readSVAL u (2 - k)) ∧
    (∀ k, k < 3 → 2 - k < 3) ∧ (∀ j k, j < 3 → k < 3 → 2 - j = 2 - k → j = k) ∧ 3 ≤ tiny.params.NSHARE :=
  ⟨⟨by decide, ⟨by decide, by decide, by decide, by decide, by decide, by decide, by decide⟩,
    ⟨by decide, by decide, by decide, by decide, by decide, by decide⟩, nofun⟩, by norm_num [tinyP], rfl, by decide,
    ⟨commitOk (writeShares { tinyP 5 with C := [4, 3, 2] } 3 3), rfl, by decide⟩, by omega, by omega, by decide⟩

theorem test_hyp_FermatPower : (tinyP 2).P.Prime ∧ readF (writeF (tinyP 2) 1 1) 1 ≠ 0 ∧
    readF (writeF (tinyP 2) 1 1) 1 < (tinyP 2).P ∧ readF (writeF (tinyP 2) 1 1) 2 = (tinyP 2).P - 2 :=
  ⟨by norm_num [tinyP], by decide, by decide, by decide⟩

end Sys2Proof.Tests
end

section
/-! SUPPORT. An access to a control register in one step, and the fields of PARAM as numbers. -/

namespace Sys2Proof.Machine

/-- The high part of an appended word counts in units above the low part. -/
theorem toNat_append_add {m n : Nat} (x : BitVec m) (y : BitVec n) : (x ++ y).toNat = x.toNat * 2 ^ n + y.toNat := by
  rw [BitVec.toNat_append, ← Nat.shiftLeft_add_eq_or_of_lt y.isLt, Nat.shiftLeft_eq]

theorem ctlOffset_aligned (r : CtlReg) : ctlOffset r % 4 = 0 := by cases r <;> rfl

theorem ctlOffset_lt (r : CtlReg) : ctlOffset r < 0x40000 := by cases r <;> decide

/-- A pending read of a control register answers its word and changes nothing else, whether or not BUSY is 1. -/
theorem step_read_ctl {s : State} {r : CtlReg} (h : s.AccessNext (wordAccess s.params (ctlOffset r) .read)) :
    step s = .next { s.pop with rdata := some (ctlWord s r) } := by
  rw [step_read h (ctlOffset_aligned r) (ctlOffset_lt r), readAccess, windowMap_ctlOffset]
  cases r <;> rfl

/-- A pending write to a control register does what R44 gives the register. -/
theorem step_write_ctl {s : State} {r : CtlReg} {w : Word}
    (h : s.AccessNext (wordAccess s.params (ctlOffset r) (.write w))) :
    step s = .next (writeCtl { s.pop with rdata := none } r w) := by
  rw [step_write h (ctlOffset_aligned r) (ctlOffset_lt r), writeAccess, windowMap_ctlOffset]

/-- PARAM as a number: its fields at their places, R18. -/
theorem paramWord_toNat {p : Params} (hp : p.Legal) :
    (paramWord p).toNat = 2 ^ 28 + p.NSHARE * 2 ^ 16 + p.NCOEF * 2 ^ 8 + p.W / 32 := by
  obtain ⟨-, -, hW, -, hC, -, hS, -⟩ := hp
  have hn : p.NSHARE % 2 ^ 9 = p.NSHARE := Nat.mod_eq_of_lt (by omega)
  have hc : p.NCOEF % 2 ^ 8 = p.NCOEF := Nat.mod_eq_of_lt (by omega)
  have hw : p.W / 32 % 2 ^ 8 = p.W / 32 := Nat.mod_eq_of_lt (by omega)
  simp only [paramWord, toNat_append_add, BitVec.toNat_ofNat, hn, hc, hw]
  omega

end Sys2Proof.Machine
end

section
/-! The control registers ID and PARAM, 10_state.md R17 and R18. -/

namespace Sys2Proof.Machine

/-- Settles O38: a control register answers its own word, and a write to ID only sets WERR. -/
theorem idReadsItsConstant : Obligations.IdReadsItsConstant := by
  intro s
  constructor
  · intro h
    exact step_read_ctl (r := .id) h
  · intro w h
    exact step_write_ctl (r := .id) h

/-- Settles O39: for legal parameters no field of PARAM is truncated, so each one is a digit of the word's value. -/
theorem paramShowsTheParameters : Obligations.ParamShowsTheParameters := by
  intro s hp
  constructor
  · intro h
    refine ⟨paramWord s.params, step_read_ctl (r := .param) h, ?_⟩
    have hw := paramWord_toNat hp
    obtain ⟨-, -, hW, -, hC, -, hS, -⟩ := hp
    omega
  · intro w h
    exact step_write_ctl (r := .param) h

end Sys2Proof.Machine
end

section
/-! SUPPORT. STATUS.WERR, 10_state.md R22: which target of the map makes an access a violation or a clearing write, what an
access then does to WERR, and that the engine's turn leaves it. -/

namespace Sys2Proof.Machine

theorem inWindow_iff {p : Params} {a : Access} :
    inWindow p a = true ↔ p.BASE ≤ a.addr ∧ a.addr < p.BASE + 0x40000 := by simp [inWindow]

theorem wellFormedAccess_iff {p : Params} {a : Access} :
    wellFormedAccess p a = true ↔ (a.addr - p.BASE) % 4 = 0 ∧ a.byteEnables = 0xF := by
  simp [wellFormedAccess, accessOffset]

theorem windowMap_eq_ctl_iff {p : Params} {off : Nat} {r : CtlReg} : windowMap p off = .ctl r ↔ off = ctlOffset r :=
  ⟨windowMap_ctl, fun h => h ▸ windowMap_ctlOffset p r⟩

/-- The violations of R22 at a well-formed access, by what its offset names. -/
def TargetViolates (busy : Bool) (kind : AccessKind) : Target → Prop
  | .ctl r => (kind ≠ .read ∧ (r = .id ∨ r = .param ∨ r = .errinfo)) ∨ (busy = true ∧ kind ≠ .read ∧ r = .cmd)
  | .data _ _ => busy = true
  | .reserved => True

/-- A write that clears WERR, by the register it names. -/
def TargetClears (kind : AccessKind) (g : Target) : Prop :=
  ∃ w, kind = .write w ∧ (g = .ctl .status ∧ w.getLsbD 3 = true ∨ g = .ctl .ctrl ∧ w.getLsbD 31 = true)

theorem violation_of_illFormed {s : State} {a : Access} (h : wellFormedAccess s.params a = false) : Violation s a := by
  by_cases h4 : (a.addr - s.params.BASE) % 4 = 0
  · exact .inr (.inl fun hb => by simp [wellFormedAccess_iff.2 ⟨h4, hb⟩] at h)
  · exact .inl h4

theorem violation_iff_target {s : State} {a : Access} (hin : inWindow s.params a = true)
    (hwf : wellFormedAccess s.params a = true) :
    Violation s a ↔ TargetViolates s.status.busy a.kind (windowMap s.params (accessOffset s.params a)) := by
  obtain ⟨h4, hb⟩ := wellFormedAccess_iff.1 hwf
  have hlt : a.addr - s.params.BASE < 0x40000 := by have := inWindow_iff.1 hin; omega
  have hmap : Violation s a ↔
      windowMap s.params (accessOffset s.params a) = .reserved ∨
      (a.kind ≠ .read ∧ (windowMap s.params (accessOffset s.params a) = .ctl .id ∨
        windowMap s.params (accessOffset s.params a) = .ctl .param ∨
        windowMap s.params (accessOffset s.params a) = .ctl .errinfo)) ∨
      (s.status.busy = true ∧ ∃ r i, windowMap s.params (accessOffset s.params a) = .data r i) ∨
      (s.status.busy = true ∧ a.kind ≠ .read ∧ windowMap s.params (accessOffset s.params a) = .ctl .cmd) := by
    simp only [Violation, h4, hb, ne_eq, not_true_eq_false, false_or, accessOffset, windowMap_eq_ctl_iff, ctlOffset,
      windowMap_reserved_iff h4 hlt, windowMap_data_iff h4 hlt]
  rw [hmap]
  cases windowMap s.params (accessOffset s.params a) with
  | ctl r => simp [TargetViolates]
  | data r i => simp [TargetViolates]
  | reserved => simp [TargetViolates]

theorem clearsWerr_iff_target {s : State} {a : Access} (hwf : wellFormedAccess s.params a = true) :
    ClearsWerr s a ↔ TargetClears a.kind (windowMap s.params (accessOffset s.params a)) := by
  simp only [TargetClears, windowMap_eq_ctl_iff, ClearsWerr, (wellFormedAccess_iff.1 hwf).2, true_and]
  rfl

theorem targetClears_status_iff {w : Word} : TargetClears (.write w) (.ctl .status) ↔ w.getLsbD 3 = true := by
  simp [TargetClears]

theorem targetClears_ctrl_iff {w : Word} : TargetClears (.write w) (.ctl .ctrl) ↔ w.getLsbD 31 = true := by
  simp [TargetClears]

/-- R22 for a change of the state from `s` to `u` that is a violation when `v` holds and clears WERR when `c` does. -/
def WerrRule (v c : Prop) (s u : State) : Prop :=
  (u.status.werr = true ↔ v ∨ (s.status.werr = true ∧ ¬c)) ∧
    (v → u = { setWerr s with rdata := u.rdata, draws := u.draws })

theorem werrRule_violation {v c : Prop} {s u : State} (hv : v)
    (h : u = { setWerr s with rdata := u.rdata, draws := u.draws }) : WerrRule v c s u :=
  ⟨iff_of_true (by rw [h]; rfl) (.inl hv), fun _ => h⟩

theorem werrRule_keeps {v c : Prop} {s u : State} (hv : ¬v) (hc : ¬c) (h : u.status.werr = s.status.werr) :
    WerrRule v c s u :=
  ⟨by simp [hv, hc, h], fun h => (hv h).elim⟩

theorem werrRule_clears {v c : Prop} {s u : State} (hv : ¬v) (hc : c) (h : u.status.werr = false) :
    WerrRule v c s u :=
  ⟨by simp [hv, hc, h], fun h => (hv h).elim⟩

theorem readAccess_werrRule (s : State) (off : Nat) :
    WerrRule (TargetViolates s.status.busy .read (windowMap s.params off))
      (TargetClears .read (windowMap s.params off)) s (readAccess s off) := by
  have hc (g : Target) : ¬TargetClears .read g := nofun
  unfold readAccess
  cases windowMap s.params off with
  | ctl r => exact werrRule_keeps (by simp [TargetViolates]) (hc _) rfl
  | data r i =>
    cases hb : s.status.busy with
    | true => exact werrRule_violation rfl rfl
    | false => exact werrRule_keeps nofun (hc _) rfl
  | reserved => exact werrRule_violation trivial rfl

theorem writeCtl_werrRule (s : State) (r : CtlReg) (w : Word) :
    WerrRule (TargetViolates s.status.busy (.write w) (.ctl r)) (TargetClears (.write w) (.ctl r)) s
      (writeCtl s r w) := by
  cases r with
  | id => exact werrRule_violation (by simp [TargetViolates]) rfl
  | param => exact werrRule_violation (by simp [TargetViolates]) rfl
  | errinfo => exact werrRule_violation (by simp [TargetViolates]) rfl
  | cmd =>
    rw [writeCtl, writeCmd]
    cases hb : s.status.busy with
    | true => exact werrRule_violation (by simp [TargetViolates]) rfl
    | false => exact werrRule_keeps (by simp [TargetViolates]) (by simp [TargetClears]) rfl
  | ctrl =>
    rw [writeCtl, writeCtrl]
    have hv : ¬TargetViolates s.status.busy (.write w) (.ctl .ctrl) := by simp [TargetViolates]
    cases h31 : w.getLsbD 31 with
    | true => exact werrRule_clears hv (targetClears_ctrl_iff.2 h31) rfl
    | false => exact werrRule_keeps hv (mt targetClears_ctrl_iff.1 (Bool.eq_false_iff.1 h31)) rfl
  | status =>
    have hv : ¬TargetViolates s.status.busy (.write w) (.ctl .status) := by simp [TargetViolates]
    have hu : (writeCtl s .status w).status.werr = (s.status.werr && !w.getLsbD 3) := rfl
    cases h3 : w.getLsbD 3 with
    | true => exact werrRule_clears hv (targetClears_status_iff.2 h3) (by rw [hu, h3, Bool.not_true, Bool.and_false])
    | false =>
      exact werrRule_keeps hv (mt targetClears_status_iff.1 (Bool.eq_false_iff.1 h3))
        (by rw [hu, h3, Bool.not_false, Bool.and_true])

theorem writeAccess_werrRule (s : State) (off : Nat) (w : Word) :
    WerrRule (TargetViolates s.status.busy (.write w) (windowMap s.params off))
      (TargetClears (.write w) (windowMap s.params off)) s (writeAccess s off w) := by
  unfold writeAccess
  cases windowMap s.params off with
  | ctl r => exact writeCtl_werrRule s r w
  | data r i =>
    cases hb : s.status.busy with
    | true => exact werrRule_violation rfl rfl
    | false => exact werrRule_keeps nofun (by simp [TargetClears]) (by simp)
  | reserved => exact werrRule_violation trivial rfl

/-- What the host last read plays no part in R22. -/
theorem werrRule_of_rdata {v c : Prop} {s u : State} {r : Option Word} (h : WerrRule v c { s with rdata := r } u) :
    WerrRule v c s u := h

theorem performAccess_werrRule {s : State} {a : Access} (hin : inWindow s.params a = true) :
    WerrRule (Violation s a) (ClearsWerr s a) s (performAccess s a) := by
  unfold performAccess
  cases hwf : wellFormedAccess s.params a with
  | false => cases hk : a.kind <;> exact werrRule_violation (violation_of_illFormed hwf) rfl
  | true =>
    rw [violation_iff_target hin hwf, clearsWerr_iff_target hwf]
    cases a.kind with
    | read => exact readAccess_werrRule s _
    | write w => exact werrRule_of_rdata (writeAccess_werrRule { s with rdata := none } _ w)

theorem writesOf_status (i : Instr) (s : State) : (writesOf i s).status = s.status := by rw [writesOf_eq]

theorem exec_werr {i : Instr} {s t : State} (h : exec i s = .next t) : t.status.werr = s.status.werr := by
  rcases exec_inversion h with ⟨e, -, rfl⟩ | ⟨-, rfl⟩
  · rfl
  · simp [writesOf_status]

theorem engineTurn_werr {s t : State} (h : engineTurn s = .next t) : t.status.werr = s.status.werr := by
  rcases engineTurn_inversion h with ⟨-, rfl⟩ | ⟨-, i, -, hx⟩ | ⟨-, e, -, rfl⟩
  · rfl
  · exact exec_werr hx
  · rfl

/-- A step that is neither a host access nor a hardware reset leaves WERR. -/
theorem step_werr_of_no_access {s t : State} (hacc : ∀ a rest, s.events ≠ .access a :: rest)
    (hrst : ∀ rest, s.events ≠ .assertReset :: rest) (h : step s = .next t) : t.status.werr = s.status.werr := by
  rcases step_inversion h with ⟨-, he⟩ | ⟨rest, -, he⟩ | ⟨a, rest, he, -⟩ | ⟨a, rest, he, -⟩ | ⟨rest, he, -⟩ |
    ⟨rest, -, rfl⟩
  · exact engineTurn_werr he
  · exact engineTurn_werr (s := { s with events := rest }) he
  · exact (hacc a rest he).elim
  · exact (hacc a rest he).elim
  · exact (hrst rest he).elim
  · rfl

end Sys2Proof.Machine
end

section
/-! The sticky flag STATUS.WERR, 10_state.md R22. -/

namespace Sys2Proof.Machine

/-- Settles O44: an access into the window obeys R22 whatever its offset names, and no move of the engine touches WERR. -/
theorem werrIsStickyAndExact : Obligations.WerrIsStickyAndExact := by
  constructor
  · intro s a hnext hlo hhi
    have hin : inWindow s.params a = true := inWindow_iff.2 ⟨hlo, hhi⟩
    exact ⟨performAccess s.pop a, step_access hnext hin, performAccess_werrRule (s := s.pop) hin⟩
  · intro s t hacc hrst h
    exact step_werr_of_no_access hacc hrst h

end Sys2Proof.Machine
end

section
/-! SUPPORT. The window rules of 20_memory.md by target: ill-formed and reserved accesses (R42, R43), the CMD register (R48,
R49), and what an access leaves while a command is in flight (R51). -/

namespace Sys2Proof.Machine

/-- Unaligned or without a byte enable is the negation of well-formed, R41. -/
theorem wellFormedAccess_eq_false_iff {p : Params} {a : Access} :
    wellFormedAccess p a = false ↔ (a.addr - p.BASE) % 4 ≠ 0 ∨ a.byteEnables ≠ 0xF := by
  rw [← Bool.not_eq_true, wellFormedAccess_iff, not_and_or]

theorem performAccess_read_illFormed {s : State} {a : Access} (hk : a.kind = .read)
    (hwf : wellFormedAccess s.params a = false) : performAccess s a = setWerr (answer s 0) := by
  simp [performAccess, hk, hwf]

theorem performAccess_write_illFormed {s : State} {a : Access} {w : Word} (hk : a.kind = .write w)
    (hwf : wellFormedAccess s.params a = false) : performAccess s a = setWerr { s with rdata := none } := by
  simp [performAccess, hk, hwf]

/-- A well-formed access is determined by its offset and its kind. -/
theorem eq_wordAccess {p : Params} {a : Access} {off : Nat} {k : AccessKind} (hin : inWindow p a = true)
    (hwf : wellFormedAccess p a = true) (hoff : accessOffset p a = off) (hk : a.kind = k) :
    a = wordAccess p off k := by
  obtain ⟨hlo, -⟩ := inWindow_iff.1 hin
  obtain ⟨-, hbe⟩ := wellFormedAccess_iff.1 hwf
  obtain ⟨addr, kind, be⟩ := a
  simp only [accessOffset] at hlo hbe hoff hk
  have haddr : addr = p.BASE + off := by omega
  rw [haddr, hk, hbe, wordAccess]

theorem reservedOffset_lt {p : Params} {off : Nat} (h : ReservedOffset p off) : off < 0x40000 := by
  unfold ReservedOffset at h
  omega

theorem readAccess_reserved {s : State} {off : Nat} (h : windowMap s.params off = .reserved) :
    readAccess s off = setWerr (answer s 0) := by
  rw [readAccess, h]

theorem writeAccess_reserved {s : State} {off : Nat} {w : Word} (h : windowMap s.params off = .reserved) :
    writeAccess s off w = setWerr s := by
  rw [writeAccess, h]

/-- A pending CMD write while BUSY = 0 issues the word, R49. -/
theorem step_write_cmd_idle {s : State} {v : Word} (h : s.AccessNext (wordAccess s.params 0x10 (.write v)))
    (hb : s.status.busy = false) : step s = .next (issue { s.pop with rdata := none } v) := by
  have hcmd : writeCtl { s.pop with rdata := none } .cmd v = issue { s.pop with rdata := none } v :=
    if_neg (Bool.eq_false_iff.1 hb)
  rw [step_write_ctl (r := .cmd) h, hcmd]

/-- A pending CMD write while BUSY = 1 is ignored, R48. -/
theorem step_write_cmd_busy {s : State} {v : Word} (h : s.AccessNext (wordAccess s.params 0x10 (.write v)))
    (hb : s.status.busy = true) : step s = .next (setWerr { s.pop with rdata := none }) := by
  have hcmd : writeCtl { s.pop with rdata := none } .cmd v = setWerr { s.pop with rdata := none } := if_pos hb
  rw [step_write_ctl (r := .cmd) h, hcmd]

/-- What belongs to a command in flight is the same: the data registers, ZLATCH, CMD and BUSY. -/
def SameFlight (s t : State) : Prop :=
  SameData s t ∧ t.zlatch = s.zlatch ∧ t.cmd = s.cmd ∧ t.status.busy = s.status.busy

/-- With a command in flight only a soft reset reaches it: the two accesses that write more, an issue and a data write,
need BUSY = 0. -/
theorem performAccess_sameFlight {s : State} {a : Access} (hin : inWindow s.params a = true)
    (hb : s.status.busy = true) (hn : ¬SoftReset s a) : SameFlight s (performAccess s a) := by
  obtain ⟨ans, dr, h | h | ⟨w, hk, hwf, hoff, h31, -⟩ | ⟨c, h⟩ | ⟨w, h⟩ | ⟨hidle, -⟩ | ⟨hidle, -⟩⟩ :=
    performAccess_inversion s a
  · rw [h]; exact ⟨⟨rfl, rfl, rfl, rfl, rfl⟩, rfl, rfl, rfl⟩
  · rw [h]; exact ⟨⟨rfl, rfl, rfl, rfl, rfl⟩, rfl, rfl, rfl⟩
  · exact absurd ⟨w, eq_wordAccess hin hwf hoff hk, h31⟩ hn
  · rw [h]; exact ⟨⟨rfl, rfl, rfl, rfl, rfl⟩, rfl, rfl, rfl⟩
  · rw [h]; exact ⟨⟨rfl, rfl, rfl, rfl, rfl⟩, rfl, rfl, rfl⟩
  · simp [hb] at hidle
  · simp [hb] at hidle

/-- A step that is neither the engine's turn nor a reset leaves the command in flight. -/
theorem step_sameFlight {s t : State} (hb : s.status.busy = true) (hstep : step s = .next t) (heng : ¬s.EngineNext)
    (hrst : ∀ rest, s.events ≠ .assertReset :: rest) (hsoft : ∀ a, s.AccessNext a → ¬SoftReset s a) :
    SameFlight s t := by
  rcases step_inversion hstep with ⟨he, -⟩ | ⟨rest, he, -⟩ | ⟨a, rest, -, -, rfl⟩ | ⟨a, rest, he, hin, hr, rfl⟩ |
    ⟨rest, he, -⟩ | ⟨rest, -, rfl⟩
  · exact absurd (.inl he) heng
  · exact absurd (.inr ⟨rest, he⟩) heng
  · exact ⟨⟨rfl, rfl, rfl, rfl, rfl⟩, rfl, rfl, rfl⟩
  · exact performAccess_sameFlight (s := { s with events := rest }) hin hb (hsoft a ⟨hr, rest, he⟩)
  · exact absurd he (hrst rest)
  · exact ⟨⟨rfl, rfl, rfl, rfl, rfl⟩, rfl, rfl, rfl⟩

end Sys2Proof.Machine
end

section
/-! The register window, 20_memory.md R42, R43, R48, R49 and R51. -/

namespace Sys2Proof.Machine

/-- Settles O36: the map sends exactly the reserved offsets to no register. -/
theorem reservedOffsetSetsWerr : Obligations.ReservedOffsetSetsWerr := by
  intro s off h4 hres
  have hlt : off < 0x40000 := reservedOffset_lt hres
  have hmap : windowMap s.params off = .reserved := (windowMap_reserved_iff h4 hlt).2 hres
  constructor
  · intro h
    rw [step_read h h4 hlt, readAccess_reserved (s := s.pop) hmap]
    rfl
  · intro w h
    rw [step_write h h4 hlt, writeAccess_reserved (s := { s.pop with rdata := none }) hmap]
    rfl

/-- Settles O50: a move of the host or of RST_N that is no reset leaves the command in flight, and an issue starts one on
the data registers as they are. -/
theorem dataHeldWhileBusy : Obligations.DataHeldWhileBusy := by
  constructor
  · intro s t hb hstep heng hrst hsoft
    obtain ⟨hdata, hz, hcmd, hbusy⟩ := step_sameFlight hb hstep heng hrst hsoft
    exact ⟨hdata, hz, hcmd, hbusy.trans hb⟩
  · intro s v h hb
    exact ⟨_, step_write_cmd_idle h hb, ⟨rfl, rfl, rfl, rfl, rfl⟩, rfl, rfl, rfl⟩

/-- Settles O32: the CMD write is an issue, whose fields are those of R49. -/
theorem cmdWriteIssuesTheWord : Obligations.CmdWriteIssuesTheWord := by
  intro s v h hb
  exact step_write_cmd_idle h hb

/-- Settles O33: BUSY turns the write away, while a CMD read does not look at it. -/
theorem cmdWriteWhileBusyIsIgnored : Obligations.CmdWriteWhileBusyIsIgnored := by
  intro s hb
  constructor
  · intro v h
    exact step_write_cmd_busy h hb
  · intro h
    exact step_read_ctl (r := .cmd) h

/-- Settles O35: an ill-formed access is turned away before its offset is looked up. -/
theorem illFormedAccessSetsWerr : Obligations.IllFormedAccessSetsWerr := by
  intro s a hnext hlo hhi hill
  have hwf : wellFormedAccess s.params a = false := wellFormedAccess_eq_false_iff.2 hill
  rw [step_access hnext (inWindow_iff.2 ⟨hlo, hhi⟩)]
  constructor
  · intro hk
    rw [performAccess_read_illFormed (s := s.pop) hk hwf]
    rfl
  · intro w hk
    rw [performAccess_write_illFormed (s := s.pop) hk hwf]
    rfl

end Sys2Proof.Machine
end

section
/-! SUPPORT. The mask test of 30_encoding.md R70 and what the decoder answers, by the row of the opcode map: R70 to
R72; a step of the engine by what the word in flight decodes to; and the class of the errors of the checks. -/

namespace Sys2Proof

theorem opField_toNat (v : Word) : (opField v).toNat = v.toNat % 64 := by
  simp [opField, field]

theorem opField_and (v w : Word) : opField (v &&& w) = opField v &&& opField w := BitVec.extractLsb_and

/-- Every mask tests the whole OP field. -/
theorem opField_mask (row : OpRow) : opField row.mask = BitVec.allOnes 6 := by cases row <;> rfl

theorem ofOp_opField_pattern (row : OpRow) : OpRow.ofOp (opField row.pattern) = some row := by cases row <;> rfl

theorem extract_row (row : OpRow) (v : Word) : (row.extract v).row = row := by cases row <;> rfl

/-- A word that meets a row's mask test has the row's OP. -/
theorem ofOp_of_mask_match {v : Word} {row : OpRow} (h : v &&& row.mask = row.pattern) :
    OpRow.ofOp (opField v) = some row := by
  have hop : opField v = opField row.pattern := by
    rw [← h, opField_and, opField_mask, BitVec.and_allOnes]
  rw [hop, ofOp_opField_pattern]

theorem decode_of_mask_match {v : Word} {row : OpRow} (h : v &&& row.mask = row.pattern) :
    decode v = .ok (row.extract v) := by
  simp [decode, ofOp_of_mask_match h, h]

theorem decode_of_mask_mismatch {v : Word} {row : OpRow} (hop : OpRow.ofOp (opField v) = some row)
    (h : v &&& row.mask ≠ row.pattern) : decode v = .error (.reservedBits (opField v)) := by
  simp [decode, hop, h]

theorem decode_of_reserved_op {v : Word} (hop : OpRow.ofOp (opField v) = none) :
    decode v = .error (.badOpcode (opField v)) := by
  simp [decode, hop]

/-- A word that decodes meets the mask test of the row of its command. -/
theorem mask_match_of_decode {v : Word} {i : Instr} (h : decode v = .ok i) : v &&& i.row.mask = i.row.pattern := by
  cases hop : OpRow.ofOp (opField v) with
  | none => rw [decode_of_reserved_op hop] at h; cases h
  | some row =>
    by_cases hm : v &&& row.mask = row.pattern
    · rw [decode_of_mask_match hm] at h
      cases h
      rwa [extract_row]
    · rw [decode_of_mask_mismatch hop hm] at h
      cases h

/-- The printed opcode map and the model's rows say the same. -/
theorem opcodeMap_row {op : Nat} {row : OpRow} {pat msk : Word} (h : (op, row, pat, msk) ∈ opcodeMap) :
    OpRow.ofOp (BitVec.ofNat 6 op) = some row ∧ row.pattern = pat ∧ row.mask = msk := by
  have hall : ∀ e ∈ opcodeMap, OpRow.ofOp (BitVec.ofNat 6 e.1) = some e.2.1 ∧ e.2.1.pattern = e.2.2.1 ∧
      e.2.1.mask = e.2.2.2 := by decide
  exact hall _ h

theorem ofOp_eq_none_iff (op : BitVec 6) : OpRow.ofOp op = none ↔ op.toNat ∉ opcodeMap.map (·.1) := by
  revert op
  decide

theorem decode_of_op_not_in_map {v : Word} (h : v.toNat % 64 ∉ opcodeMap.map (·.1)) :
    decode v = .error (.badOpcode (opField v)) := by
  rw [← opField_toNat, ← ofOp_eq_none_iff] at h
  exact decode_of_reserved_op h

/-- An OP of the map selects its row, so a failed mask test is a reserved bit. -/
theorem decode_of_map_mismatch {v : Word} {op : Nat} {row : OpRow} {pat msk : Word}
    (h : (op, row, pat, msk) ∈ opcodeMap) (hop : v.toNat % 64 = op) (hm : v &&& msk ≠ pat) :
    decode v = .error (.reservedBits (opField v)) := by
  obtain ⟨hrow, rfl, rfl⟩ := opcodeMap_row h
  have hv : opField v = BitVec.ofNat 6 op := by
    rw [← hop, ← opField_toNat, BitVec.ofNat_toNat, BitVec.setWidth_eq]
  exact decode_of_mask_mismatch (hv ▸ hrow) hm

end Sys2Proof

namespace Sys2Proof.Machine

theorem pop_of_no_events {s : State} (h : s.events = []) : s.pop = s := by
  have htail : s.events.tail = s.events := by simp [h]
  rw [State.pop, htail]

/-- The engine's turn as a step: the move is taken off the list, if one stands there. -/
theorem step_of_engineNext {s : State} (h : s.EngineNext) : step s = engineTurn s.pop := by
  rcases h with he | ⟨rest, he⟩
  · simp [step, he, pop_of_no_events he]
  · simp [step, State.pop, he]

theorem step_of_decode_ok {s : State} {i : Instr} (hb : s.status.busy = true) (h : s.EngineNext)
    (hd : decode s.cmd = .ok i) : step s = exec i s.pop := by
  simp [step_of_engineNext h, engineTurn, State.pop, hb, hd]

theorem step_of_decode_error {s : State} {e : DecodeError} (hb : s.status.busy = true) (h : s.EngineNext)
    (hd : decode s.cmd = .error e) : step s = .next (commitError s.pop (illegalCommand e)) := by
  simp [step_of_engineNext h, engineTurn, State.pop, hb, hd]

/-- The error a check raises, if it raises one, is not of class ILLEGAL_COMMAND (R105). -/
def NotIllegal (c : Option CmdError) : Prop := ∀ e, c = some e → errCode e ≠ 3

section
variable (s : State)

@[simp] theorem notIllegal_none : NotIllegal none := nofun

@[simp] theorem notIllegal_checkModulus : NotIllegal (checkModulus s) := by
  intro e h
  obtain rfl := checkModulus_eq_some h
  decide

@[simp] theorem notIllegal_checkReduced (r : FReg) : NotIllegal (checkReduced s r) := by
  intro e h
  obtain rfl := checkReduced_eq_some h
  simp [errCode]

@[simp] theorem notIllegal_checkCount (b : Bool) (c : CountRange) : NotIllegal (checkCount b c) := by
  intro e h
  obtain rfl := checkCount_eq_some h
  simp [errCode]

@[simp] theorem notIllegal_checkUnit (r : FReg) : NotIllegal (checkUnit s r) := by
  intro e h
  obtain rfl := checkUnit_eq_some h
  simp [errCode]

@[simp] theorem notIllegal_checkCoefs (t : Nat) : NotIllegal (checkCoefs s t) := by
  intro e h
  obtain ⟨j, -, rfl⟩ := checkCoefs_eq_some h
  simp [errCode]

@[simp] theorem notIllegal_checkShares (n : Nat) : NotIllegal (checkShares s n) := by
  intro e h
  obtain ⟨k, -, rfl⟩ := checkShares_eq_some h
  simp [errCode]

@[simp] theorem notIllegal_checkDen (n k : Nat) : NotIllegal (checkDen s n k) := by
  intro e h
  obtain rfl := checkDen_eq_some h
  simp [errCode]

@[simp] theorem notIllegal_checkDens (n : Nat) : NotIllegal (checkDens s n) := by
  intro e h
  obtain ⟨k, -, rfl⟩ := checkDens_eq_some h
  simp [errCode]

end

/-- No check of a command is about its encoding (R72). -/
theorem notIllegal_checksOf (i : Instr) (s : State) : ∀ c ∈ checksOf i s, NotIllegal c := by
  cases i with
  | lbasis rd k n => cases hd : isDuplicate s k <;> simp [checksOf, hd]
  | _ => simp [checksOf, checksTwoSources]

/-- A command that decoded does not put class 3 in ERRCODE. -/
theorem exec_errcode_ne_illegal {i : Instr} {s t : State} (h : exec i s = .next t) (hs : s.status.errcode ≠ 3) :
    t.status.errcode ≠ 3 := by
  rcases exec_inversion h with ⟨e, he, rfl⟩ | ⟨-, rfl⟩
  · exact notIllegal_checksOf i s _ he e rfl
  · simpa [writesOf_status] using hs

end Sys2Proof.Machine
end

section
/-! The opcode map and the illegal words, 30_encoding.md R70 to R72. -/

namespace Sys2Proof.Machine

/-- Settles O4: every mask tests the OP field, so only the row that OP selects can match. -/
theorem wordSpellsRowExactlyWhenMaskMatches : Obligations.WordSpellsRowExactlyWhenMaskMatches := by
  constructor
  · intro v op row pat msk h
    obtain ⟨-, rfl, rfl⟩ := opcodeMap_row h
    constructor
    · intro hm
      exact ⟨_, decode_of_mask_match hm, extract_row row v⟩
    · rintro ⟨i, hd, rfl⟩
      exact mask_match_of_decode hd
  · intro v hop i hd
    rw [decode_of_op_not_in_map hop] at hd
    cases hd

/-- Settles O5: the decoder's error is committed as it stands, and a word that decodes runs a command whose checks raise
no error of class 3. -/
theorem illegalWordsCompleteWithIllegalCommand : Obligations.IllegalWordsCompleteWithIllegalCommand := by
  intro s hb hnext
  refine ⟨?badOpcode, ?reservedBits, ?legal⟩
  case badOpcode =>
    intro hop
    rw [step_of_decode_error hb hnext (decode_of_op_not_in_map hop), ← opField_toNat]
    rfl
  case reservedBits =>
    intro op row pat msk h hop hm
    rw [step_of_decode_error hb hnext (decode_of_map_mismatch h hop hm), ← hop, ← opField_toNat]
    rfl
  case legal =>
    intro op row pat msk h hm hcode
    obtain ⟨-, rfl, rfl⟩ := opcodeMap_row h
    obtain ⟨t, ht⟩ := exec_next (row.extract s.cmd) s.pop
    exact ⟨t, (step_of_decode_ok hb hnext (decode_of_mask_match hm)).trans ht, exec_errcode_ne_illegal ht hcode⟩

end Sys2Proof.Machine
end

section
/-! SUPPORT. The words of the formats R, R2 and I (30_encoding.md R62 to R64): the number each is printed as, and the
operands read back from its fields; so a word of one of these formats decodes to its command. -/

namespace Sys2Proof

/-! ### The fields of a word as numbers -/

theorem rdField_val (v : Word) : (rdField v).val = v.toNat / 2 ^ 6 % 2 ^ 4 := by
  rw [← Nat.shiftRight_eq_div_pow]
  exact BitVec.extractLsb_toNat 9 6 v

theorem raField_val (v : Word) : (raField v).val = v.toNat / 2 ^ 10 % 2 ^ 4 := by
  rw [← Nat.shiftRight_eq_div_pow]
  exact BitVec.extractLsb_toNat 13 10 v

theorem rbField_val (v : Word) : (rbField v).val = v.toNat / 2 ^ 14 % 2 ^ 4 := by
  rw [← Nat.shiftRight_eq_div_pow]
  exact BitVec.extractLsb_toNat 17 14 v

theorem immField_toNat (v : Word) : (field v 31 16).toNat = v.toNat / 2 ^ 16 % 2 ^ 16 := by
  rw [← Nat.shiftRight_eq_div_pow]
  exact BitVec.extractLsb_toNat 31 16 v

/-! ### The words of the formats as numbers -/

theorem place_eq_ofNat (x lo : Nat) : place x lo = BitVec.ofNat 32 (x <<< lo) := by
  apply BitVec.eq_of_toNat_eq
  simp [place, Nat.shiftLeft_eq]

theorem encodeR_eq_ofNat (op : Nat) (rd ra rb : FReg) :
    encodeR op rd ra rb = BitVec.ofNat 32 (rb.val <<< 14 ||| ra.val <<< 10 ||| rd.val <<< 6 ||| op) := by
  simp only [encodeR, place_eq_ofNat, BitVec.ofNat_or, Nat.shiftLeft_zero]

theorem encodeR2_eq_ofNat (op : Nat) (rd ra : FReg) :
    encodeR2 op rd ra = BitVec.ofNat 32 (ra.val <<< 10 ||| rd.val <<< 6 ||| op) := by
  simp only [encodeR2, place_eq_ofNat, BitVec.ofNat_or, Nat.shiftLeft_zero]

theorem encodeI_eq_ofNat (op : Nat) (rd : FReg) (imm : Nat) :
    encodeI op rd imm = BitVec.ofNat 32 (imm <<< 16 ||| rd.val <<< 6 ||| op) := by
  simp only [encodeI, place_eq_ofNat, BitVec.ofNat_or, Nat.shiftLeft_zero]

/-- Format R2 is format R with RB = 0. -/
theorem encodeR2_eq_encodeR (op : Nat) (rd ra : FReg) : encodeR2 op rd ra = encodeR op rd ra 0 := by
  simp [encodeR, encodeR2, place]

/-- A part with no bit at i or above only adds to a part shifted left by i. -/
theorem shiftLeft_or_eq_add {b i : Nat} (hb : b < 2 ^ i) (a : Nat) : a <<< i ||| b = a * 2 ^ i + b := by
  rw [← Nat.shiftLeft_add_eq_or_of_lt hb, Nat.shiftLeft_eq]

/-- The fields of format R do not overlap: the word is their sum, each at its weight. -/
theorem encodeR_toNat {op : Nat} (hop : op < 2 ^ 6) (rd ra rb : FReg) :
    (encodeR op rd ra rb).toNat = rb.val * 2 ^ 14 + (ra.val * 2 ^ 10 + (rd.val * 2 ^ 6 + op)) := by
  have hd : rd.val * 2 ^ 6 + op < 2 ^ 10 := by omega
  have ha : ra.val * 2 ^ 10 + (rd.val * 2 ^ 6 + op) < 2 ^ 14 := by omega
  rw [encodeR_eq_ofNat, BitVec.toNat_ofNat, Nat.or_assoc, Nat.or_assoc, shiftLeft_or_eq_add hop,
    shiftLeft_or_eq_add hd, shiftLeft_or_eq_add ha]
  omega

/-- The fields of format I do not overlap. -/
theorem encodeI_toNat {op imm : Nat} (hop : op < 2 ^ 6) (himm : imm < 2 ^ 16) (rd : FReg) :
    (encodeI op rd imm).toNat = imm * 2 ^ 16 + (rd.val * 2 ^ 6 + op) := by
  have hd : rd.val * 2 ^ 6 + op < 2 ^ 16 := by omega
  rw [encodeI_eq_ofNat, BitVec.toNat_ofNat, Nat.or_assoc, shiftLeft_or_eq_add hop, shiftLeft_or_eq_add hd]
  omega

/-! ### Decoding a word of a format -/

theorem fields_encodeR {op : Nat} (hop : op < 2 ^ 6) (rd ra rb : FReg) :
    rdField (encodeR op rd ra rb) = rd ∧ raField (encodeR op rd ra rb) = ra ∧ rbField (encodeR op rd ra rb) = rb := by
  refine ⟨Fin.ext ?_, Fin.ext ?_, Fin.ext ?_⟩
  · rw [rdField_val, encodeR_toNat hop]
    omega
  · rw [raField_val, encodeR_toNat hop]
    omega
  · rw [rbField_val, encodeR_toNat hop]
    omega

theorem fields_encodeR2 {op : Nat} (hop : op < 2 ^ 6) (rd ra : FReg) :
    rdField (encodeR2 op rd ra) = rd ∧ raField (encodeR2 op rd ra) = ra := by
  obtain ⟨hd, ha, -⟩ := fields_encodeR hop rd ra 0
  exact encodeR2_eq_encodeR op rd ra ▸ ⟨hd, ha⟩

theorem fields_encodeI {op imm : Nat} (hop : op < 2 ^ 6) (himm : imm < 2 ^ 16) (rd : FReg) :
    rdField (encodeI op rd imm) = rd ∧ (field (encodeI op rd imm) 31 16).toNat = imm := by
  refine ⟨Fin.ext ?_, ?_⟩
  · rw [rdField_val, encodeI_toNat hop himm]
    omega
  · rw [immField_toNat, encodeI_toNat hop himm]
    omega

/-- A word of format R that meets the mask test of its row decodes to the command the row builds of its registers. -/
theorem decode_encodeR {op : Nat} {row : OpRow} {c : FReg → FReg → FReg → Instr} (hop : op < 2 ^ 6) (rd ra rb : FReg)
    (hx : ∀ v, row.extract v = c (rdField v) (raField v) (rbField v))
    (hm : encodeR op rd ra rb &&& row.mask = row.pattern) :
    decode (BitVec.ofNat 32 (rb.val <<< 14 ||| ra.val <<< 10 ||| rd.val <<< 6 ||| op)) = .ok (c rd ra rb) := by
  obtain ⟨hd, ha, hb⟩ := fields_encodeR hop rd ra rb
  rw [← encodeR_eq_ofNat, decode_of_mask_match hm, hx, hd, ha, hb]

/-- The same for format R2. -/
theorem decode_encodeR2 {op : Nat} {row : OpRow} {c : FReg → FReg → Instr} (hop : op < 2 ^ 6) (rd ra : FReg)
    (hx : ∀ v, row.extract v = c (rdField v) (raField v)) (hm : encodeR2 op rd ra &&& row.mask = row.pattern) :
    decode (BitVec.ofNat 32 (ra.val <<< 10 ||| rd.val <<< 6 ||| op)) = .ok (c rd ra) := by
  obtain ⟨hd, ha⟩ := fields_encodeR2 hop rd ra
  rw [← encodeR2_eq_ofNat, decode_of_mask_match hm, hx, hd, ha]

/-- The same for format I and an immediate that fits its field. -/
theorem decode_encodeI {op imm : Nat} {row : OpRow} {c : FReg → Nat → Instr} (hop : op < 2 ^ 6) (himm : imm < 2 ^ 16)
    (rd : FReg) (hx : ∀ v, row.extract v = c (rdField v) (field v 31 16).toNat)
    (hm : encodeI op rd imm &&& row.mask = row.pattern) :
    decode (BitVec.ofNat 32 (imm <<< 16 ||| rd.val <<< 6 ||| op)) = .ok (c rd imm) := by
  obtain ⟨hd, hi⟩ := fields_encodeI hop himm rd
  rw [← encodeI_eq_ofNat, decode_of_mask_match hm, hx, hd, hi]

end Sys2Proof
end

section
/-! SUPPORT. How a command ends whose first checks are CheckModulus and CheckReduced (40_field_arith.md R79), and what it
commits when all its checks pass: the expected states of the claims, for any command with such checks and writes. -/

namespace Sys2Proof.Machine

/-! ### The errors, in the order of the checks -/

section
variable {i : Instr} {s : State} {ra rb : FReg} {cs : List (Option CmdError)}

/-- The first check that fails is the outcome of the command (R113). -/
theorem exec_of_firstError {e : CmdError} (h : firstError (checksOf i s) = some e) :
    exec i s = .next (commitError s e) := by
  rw [exec_eq_complete, complete_of_error h]

theorem exec_modulusTooSmall (hc : checksOf i s = checkModulus s :: cs) (hP : s.P < 2) :
    exec i s = .next (s.afterError 1 0x01 0) := by
  have hm : checkModulus s = some .modulusTooSmall := if_pos hP
  exact exec_of_firstError (by rw [hc, hm, firstError_some])

theorem exec_firstSource_range (hc : checksOf i s = checkModulus s :: checkReduced s ra :: cs) (hP : 2 ≤ s.P)
    (ha : s.P ≤ readF s ra) : exec i s = .next (s.afterError 1 0x02 ra.val) := by
  have hr : checkReduced s ra = some (.operandRange ra) := if_pos ha
  exact exec_of_firstError (by rw [hc, checkModulus_eq_none.2 hP, hr, firstError_none, firstError_some])

theorem exec_secondSource_range
    (hc : checksOf i s = checkModulus s :: checkReduced s ra :: checkReduced s rb :: cs) (hP : 2 ≤ s.P)
    (ha : readF s ra < s.P) (hb : s.P ≤ readF s rb) : exec i s = .next (s.afterError 1 0x02 rb.val) := by
  have hr : checkReduced s rb = some (.operandRange rb) := if_pos hb
  exact exec_of_firstError (by
    rw [hc, checkModulus_eq_none.2 hP, checkReduced_eq_none.2 ha, hr, firstError_none, firstError_none,
      firstError_some])

end

theorem checksOneSource_of_checksOf {i : Instr} {ra : FReg}
    (h : ∀ s, ∃ cs, checksOf i s = checkModulus s :: checkReduced s ra :: cs) : ChecksOneSource i ra := by
  intro s
  obtain ⟨cs, hc⟩ := h s
  exact ⟨exec_modulusTooSmall hc, exec_firstSource_range hc⟩

theorem checksTwoSources_of_checksOf {i : Instr} {ra rb : FReg} (h : ∀ s, checksOf i s = checksTwoSources s ra rb) :
    ChecksTwoSources i ra rb :=
  fun s => ⟨exec_modulusTooSmall (h s), exec_firstSource_range (h s), exec_secondSource_range (h s)⟩

/-! ### The result, when every check passes -/

theorem checksTwoSources_pass {s : State} {ra rb : FReg} (h : TwoSourcesReduced s ra rb) :
    ∀ c ∈ checksTwoSources s ra rb, c = none := by
  obtain ⟨hP, ha, hb⟩ := h
  simp [checksTwoSources, checkModulus_eq_none.2 hP, checkReduced_eq_none.2 ha, checkReduced_eq_none.2 hb]

/-- A command that passes its checks commits its one write to a field register (R52). -/
theorem exec_of_writesOf {i : Instr} {s : State} {rd : FReg} {v : Nat} (hpass : ∀ c ∈ checksOf i s, c = none)
    (hw : writesOf i s = writeF s rd v) : exec i s = .next (s.afterWriteF rd v) := by
  rw [exec_eq_complete, complete_of_pass hpass, hw]
  rfl

/-- The residue of -a, for a reduced a (R84). -/
theorem modInt_neg {a m : Nat} (ha : a < m) : modInt (0 - (a : Int)) m = if a = 0 then 0 else m - a := by
  have hcast := cast_modInt (0 - (a : Int)) (by omega : 0 < m)
  split
  · next h0 =>
    subst h0
    simpa using hcast
  · next h0 =>
    have hshift : (0 - (a : Int)) % m = (m : Int) - a := by
      rw [← Int.add_emod_right, Int.emod_eq_of_lt] <;> omega
    omega

/-- The unit check of a reduced source is a gcd with the modulus itself (R14, R85). -/
theorem isUnit_iff_of_lt {a m : Nat} (ha : a < m) : isUnit a m = true ↔ Nat.gcd a m = 1 := by
  rw [isUnit_iff, Nat.mod_eq_of_lt ha]

theorem exec_minv_nonunit {s : State} {rd ra : FReg} (hP : 2 ≤ s.P) (ha : readF s ra < s.P)
    (hu : Nat.gcd (readF s ra) s.P ≠ 1) : exec (.minv rd ra) s = .next (s.afterError 2 0x10 ra.val) := by
  have hunit : checkUnit s ra = some (.invNonunit ra) := if_neg (mt (isUnit_iff_of_lt ha).1 hu)
  exact exec_of_firstError (i := .minv rd ra) (by
    rw [checksOf, checkModulus_eq_none.2 hP, checkReduced_eq_none.2 ha, hunit, firstError_none, firstError_none,
      firstError_some])

theorem exec_minv_unit {s : State} {rd ra : FReg} (hP : 2 ≤ s.P) (ha : readF s ra < s.P)
    (hu : Nat.gcd (readF s ra) s.P = 1) :
    exec (.minv rd ra) s = .next (s.afterWriteF rd (modInv (readF s ra) s.P)) := by
  have hunit : checkUnit s ra = none := checkUnit_eq_none.2 ((isUnit_iff_of_lt ha).2 hu)
  refine exec_of_writesOf ?_ rfl
  simp [checksOf, checkModulus_eq_none.2 hP, checkReduced_eq_none.2 ha, hunit]

end Sys2Proof.Machine
end

section
/-! The commands of the modular arithmetic engine, 40_field_arith.md R80 to R85, R87 and R88. -/

namespace Sys2Proof.Machine

/-- Settles O14: the unit check decides between the error and modInv, which is the one inverse below P. -/
theorem minvInvertsUnits : Obligations.MinvInvertsUnits := by
  intro rd ra
  refine ⟨decode_encodeR2 (by decide) rd ra (fun _ => rfl) (Laws.EncodedByRow.minv rd ra rfl),
    checksOneSource_of_checksOf fun s => ⟨[checkUnit s ra], rfl⟩, fun s => exec_minv_nonunit, ?unit⟩
  case unit =>
    intro s hP ha hu
    have hu' : Nat.gcd (readF s ra % s.P) s.P = 1 := by rwa [Nat.mod_eq_of_lt ha]
    exact ⟨modInv (readF s ra) s.P, ⟨modInv_lt _ (by omega), mul_modInv hP hu'⟩, fun z => modInv_unique hP,
      exec_minv_unit hP ha hu⟩

/-- Settles O9: no check can fail, and the commit sets DONE. -/
theorem nopOnlyCompletes : Obligations.NopOnlyCompletes := by
  refine ⟨by decide, fun s => ⟨?_, by simp [irq, State.afterDone]⟩⟩
  rw [exec_eq_complete, complete_of_pass (by simp [checksOf])]
  rfl

/-- Settles O10: once both sources are reduced, the one write is the reduced sum. -/
theorem maddAddsModP : Obligations.MaddAddsModP := fun rd ra rb =>
  ⟨decode_encodeR (by decide) rd ra rb (fun _ => rfl) (Laws.EncodedByRow.madd rd ra rb rfl),
    checksTwoSources_of_checksOf fun _ => rfl, fun _ h => exec_of_writesOf (checksTwoSources_pass h) rfl⟩

/-- Settles O11: the value written is the residue of the integer difference. -/
theorem msubSubtractsModP : Obligations.MsubSubtractsModP := fun rd ra rb =>
  ⟨decode_encodeR (by decide) rd ra rb (fun _ => rfl) (Laws.EncodedByRow.msub rd ra rb rfl),
    checksTwoSources_of_checksOf fun _ => rfl,
    fun _ h => ⟨_, cast_modInt _ (by omega), exec_of_writesOf (checksTwoSources_pass h) rfl⟩⟩

/-- Settles O12: once both sources are reduced, the one write is the reduced exact product. -/
theorem mmulMultipliesModP : Obligations.MmulMultipliesModP := fun rd ra rb =>
  ⟨decode_encodeR (by decide) rd ra rb (fun _ => rfl) (Laws.EncodedByRow.mmul rd ra rb rfl),
    checksTwoSources_of_checksOf fun _ => rfl, fun _ h => exec_of_writesOf (checksTwoSources_pass h) rfl⟩

/-- Settles O13: the residue of the negated source is 0 for 0 and P less the source otherwise. -/
theorem mnegNegatesModP : Obligations.MnegNegatesModP := by
  intro rd ra
  refine ⟨decode_encodeR2 (by decide) rd ra (fun _ => rfl) (Laws.EncodedByRow.mneg rd ra rfl),
    checksOneSource_of_checksOf fun s => ⟨[], rfl⟩, ?result⟩
  case result =>
    intro s hP ha
    rw [← modInt_neg ha]
    exact exec_of_writesOf (by simp [checksOf, checkModulus_eq_none.2 hP, checkReduced_eq_none.2 ha]) rfl

/-- Settles O16: no check can fail, whatever P and the source hold. -/
theorem mmovCopiesUnchecked : Obligations.MmovCopiesUnchecked := fun rd ra =>
  ⟨decode_encodeR2 (by decide) rd ra (fun _ => rfl) (Laws.EncodedByRow.mmov rd ra rfl),
    fun _ => exec_of_writesOf (by simp [checksOf]) rfl⟩

/-- Settles O17: an immediate of 16 bits fits its field, and the only check is of P. -/
theorem mldiLoadsReducedImmediate : Obligations.MldiLoadsReducedImmediate := by
  intro rd imm himm
  refine ⟨decode_encodeI (by decide) himm rd (fun _ => rfl) (Laws.EncodedByRow.mldi rd imm (decide_eq_true himm)),
    fun s => ⟨exec_modulusTooSmall rfl, fun hP => ?result⟩⟩
  case result =>
    exact exec_of_writesOf (by simp [checksOf, checkModulus_eq_none.2 hP]) rfl

end Sys2Proof.Machine
end

section
/-! SUPPORT. The words of the formats P and S (30_encoding.md R65, R66): the number each is printed as, and the operands
read back from its fields. -/

namespace Sys2Proof

theorem pevalTField_toNat (v : Word) : (field v 20 14).toNat = v.toNat / 2 ^ 14 % 2 ^ 7 := by
  rw [← Nat.shiftRight_eq_div_pow]
  exact BitVec.extractLsb_toNat 20 14 v

theorem splitNField_toNat (v : Word) : (field v 14 6).toNat = v.toNat / 2 ^ 6 % 2 ^ 9 := by
  rw [← Nat.shiftRight_eq_div_pow]
  exact BitVec.extractLsb_toNat 14 6 v

theorem splitTField_toNat (v : Word) : (field v 21 15).toNat = v.toNat / 2 ^ 15 % 2 ^ 7 := by
  rw [← Nat.shiftRight_eq_div_pow]
  exact BitVec.extractLsb_toNat 21 15 v

theorem encodeP_eq_ofNat (op : Nat) (rd ra : FReg) (t : Nat) :
    encodeP op rd ra t = BitVec.ofNat 32 (t <<< 14 ||| ra.val <<< 10 ||| rd.val <<< 6 ||| op) := by
  simp only [encodeP, place_eq_ofNat, BitVec.ofNat_or, Nat.shiftLeft_zero]

theorem encodeS_eq_ofNat (op n t : Nat) : encodeS op n t = BitVec.ofNat 32 (t <<< 15 ||| n <<< 6 ||| op) := by
  simp only [encodeS, place_eq_ofNat, BitVec.ofNat_or, Nat.shiftLeft_zero]

/-- The fields of format P do not overlap. -/
theorem encodeP_toNat {op t : Nat} (hop : op < 2 ^ 6) (ht : t < 2 ^ 7) (rd ra : FReg) :
    (encodeP op rd ra t).toNat = t * 2 ^ 14 + (ra.val * 2 ^ 10 + (rd.val * 2 ^ 6 + op)) := by
  have hd : rd.val * 2 ^ 6 + op < 2 ^ 10 := by omega
  have ha : ra.val * 2 ^ 10 + (rd.val * 2 ^ 6 + op) < 2 ^ 14 := by omega
  rw [encodeP_eq_ofNat, BitVec.toNat_ofNat, Nat.or_assoc, Nat.or_assoc, shiftLeft_or_eq_add hop,
    shiftLeft_or_eq_add hd, shiftLeft_or_eq_add ha]
  omega

/-- The fields of format S do not overlap. -/
theorem encodeS_toNat {op n t : Nat} (hop : op < 2 ^ 6) (hn : n < 2 ^ 9) (ht : t < 2 ^ 7) :
    (encodeS op n t).toNat = t * 2 ^ 15 + (n * 2 ^ 6 + op) := by
  have hno : n * 2 ^ 6 + op < 2 ^ 15 := by omega
  rw [encodeS_eq_ofNat, BitVec.toNat_ofNat, Nat.or_assoc, shiftLeft_or_eq_add hop, shiftLeft_or_eq_add hno]
  omega

theorem fields_encodeP {op t : Nat} (hop : op < 2 ^ 6) (ht : t < 2 ^ 7) (rd ra : FReg) :
    rdField (encodeP op rd ra t) = rd ∧ raField (encodeP op rd ra t) = ra ∧
      (field (encodeP op rd ra t) 20 14).toNat = t := by
  refine ⟨Fin.ext ?_, Fin.ext ?_, ?_⟩
  · rw [rdField_val, encodeP_toNat hop ht]
    omega
  · rw [raField_val, encodeP_toNat hop ht]
    omega
  · rw [pevalTField_toNat, encodeP_toNat hop ht]
    omega

theorem fields_encodeS {op n t : Nat} (hop : op < 2 ^ 6) (hn : n < 2 ^ 9) (ht : t < 2 ^ 7) :
    (field (encodeS op n t) 14 6).toNat = n ∧ (field (encodeS op n t) 21 15).toNat = t := by
  constructor
  · rw [splitNField_toNat, encodeS_toNat hop hn ht]
    omega
  · rw [splitTField_toNat, encodeS_toNat hop hn ht]
    omega

/-- PEVAL is the one command of format P. -/
theorem decode_pevalWord {t : Nat} (ht : t < 2 ^ 7) (rd ra : FReg) :
    decode (BitVec.ofNat 32 (t <<< 14 ||| ra.val <<< 10 ||| rd.val <<< 6 ||| 0x10)) = .ok (.peval rd ra t) := by
  have hmask : encodeP 0x10 rd ra t &&& OpRow.peval.mask = OpRow.peval.pattern :=
    Laws.EncodedByRow.peval rd ra t (decide_eq_true ht)
  obtain ⟨hd, ha, hT⟩ := fields_encodeP (op := 0x10) (by decide) ht rd ra
  rw [← encodeP_eq_ofNat, decode_of_mask_match hmask, OpRow.extract, hd, ha, hT]

/-- SPLIT is the one command of format S. -/
theorem decode_splitWord {n t : Nat} (hn : n < 2 ^ 9) (ht : t < 2 ^ 7) :
    decode (BitVec.ofNat 32 (t <<< 15 ||| n <<< 6 ||| 0x18)) = .ok (.split n t) := by
  have hmask : encodeS 0x18 n t &&& OpRow.split.mask = OpRow.split.pattern :=
    Laws.EncodedByRow.split n t (Bool.and_eq_true_iff.2 ⟨decide_eq_true hn, decide_eq_true ht⟩)
  obtain ⟨hN, hT⟩ := fields_encodeS (op := 0x18) (by decide) hn ht
  rw [← encodeS_eq_ofNat, decode_of_mask_match hmask, OpRow.extract, hN, hT]

end Sys2Proof
end

section
/-! SUPPORT. The polynomial evaluator, 41_poly_eval.md R91 to R95: how PEVAL ends at each of its checks, when SPLIT
passes all of its own, and what SPLIT's writes leave in each slot of the arrays. -/

namespace Sys2Proof.Machine

/-! ### Count checks -/

theorem checkCount_fail {p : Prop} [Decidable p] (h : p) (c : CountRange) :
    checkCount (decide p) c = some (.countRange c) := by
  simp [checkCount, h]

theorem checkCount_pass {p : Prop} [Decidable p] (h : ¬p) (c : CountRange) : checkCount (decide p) c = none := by
  simp [checkCount, h]

/-! ### PEVAL, one lemma per outcome (R92) -/

section
variable {s : State} {rd ra : FReg} {t : Nat}

theorem exec_peval_tBelowOne (hP : 2 ≤ s.P) (ht : t < 1) :
    exec (.peval rd ra t) s = .next (s.afterError 1 0x03 1) :=
  exec_of_firstError (e := .countRange .tBelowOne) (by
    rw [checksOf, checkModulus_eq_none.2 hP, checkCount_fail ht, firstError_none, firstError_some])

theorem exec_peval_tAboveNcoef (hP : 2 ≤ s.P) (ht : 1 ≤ t) (hN : s.params.NCOEF < t) :
    exec (.peval rd ra t) s = .next (s.afterError 1 0x03 4) :=
  exec_of_firstError (e := .countRange .tAboveNcoef) (by
    rw [checksOf, checkModulus_eq_none.2 hP, checkCount_pass (Nat.not_lt.2 ht), checkCount_fail hN, firstError_none,
      firstError_none, firstError_some])

theorem exec_peval_source_range (hP : 2 ≤ s.P) (ht : 1 ≤ t) (hN : t ≤ s.params.NCOEF) (ha : s.P ≤ readF s ra) :
    exec (.peval rd ra t) s = .next (s.afterError 1 0x02 ra.val) := by
  have hr : checkReduced s ra = some (.operandRange ra) := if_pos ha
  exact exec_of_firstError (e := .operandRange ra) (by
    rw [checksOf, checkModulus_eq_none.2 hP, checkCount_pass (Nat.not_lt.2 ht), checkCount_pass (Nat.not_lt.2 hN), hr,
      firstError_none, firstError_none, firstError_none, firstError_some])

theorem exec_peval_coef_range {j : Nat} (hP : 2 ≤ s.P) (hN : t ≤ s.params.NCOEF) (ha : readF s ra < s.P) (hj : j < t)
    (hlow : CoefsReduced s j) (hc : s.P ≤ readC s j) :
    exec (.peval rd ra t) s = .next (s.afterError 1 0x04 j) :=
  exec_of_firstError (e := .coefRange j) (by
    rw [checksOf, checkModulus_eq_none.2 hP, checkCount_pass (by omega), checkCount_pass (Nat.not_lt.2 hN),
      checkReduced_eq_none.2 ha, checkCoefs_lowest hj hc hlow, firstError_none, firstError_none, firstError_none,
      firstError_none, firstError_some])

theorem pevalChecks_pass_iff : (∀ c ∈ checksOf (.peval rd ra t) s, c = none) ↔
    2 ≤ s.P ∧ 1 ≤ t ∧ t ≤ s.params.NCOEF ∧ readF s ra < s.P ∧ CoefsReduced s t := by
  simp only [checksOf, List.forall_mem_cons, checkModulus_eq_none, checkCount_eq_none, checkReduced_eq_none,
    checkCoefs_eq_none, decide_eq_false_iff_not, Nat.not_lt, List.not_mem_nil, false_imp_iff, implies_true, and_true]

theorem exec_peval_value (hP : 2 ≤ s.P) (ht : 1 ≤ t) (hN : t ≤ s.params.NCOEF) (ha : readF s ra < s.P)
    (hc : CoefsReduced s t) :
    exec (.peval rd ra t) s = .next (s.afterWriteF rd (polyValue s t (readF s ra))) := by
  rw [← polyval_eq_polyValue]
  exact exec_of_writesOf (pevalChecks_pass_iff.2 ⟨hP, ht, hN, ha, hc⟩) rfl

end

/-! ### SPLIT, the two ways it ends (R93) -/

section
variable {s : State} {n t : Nat}

theorem splitChecks_pass_iff : (∀ c ∈ checksOf (.split n t) s, c = none) ↔ SplitAccepts s n t := by
  simp only [checksOf, List.forall_mem_cons, checkModulus_eq_none, checkCount_eq_none, checkCoefs_eq_none,
    decide_eq_false_iff_not, Nat.not_lt, Nat.not_le, List.not_mem_nil, false_imp_iff, implies_true, and_true]

theorem exec_split_of_accepts (h : SplitAccepts s n t) :
    exec (.split n t) s = .next (commitOk (zeroizeCoefs (writeShares s n t) t)) := by
  rw [exec_eq_complete, complete_of_pass (splitChecks_pass_iff.2 h), writesOf]

theorem exec_split_of_not_accepts {u : State} (h : ¬SplitAccepts s n t) (hu : exec (.split n t) s = .next u) :
    ∃ e, u = commitError s e := by
  rcases exec_inversion hu with ⟨e, -, rfl⟩ | ⟨hpass, -⟩
  · exact ⟨e, rfl⟩
  · exact absurd (splitChecks_pass_iff.1 hpass) h

end

/-! ### What SPLIT's writes leave in each slot (R94, R95) -/

/-- Filling with the value a missing slot reads as needs no bound on the slot. -/
theorem fill_const_getD {α : Type} (lo hi i : Nat) (xs : List α) (d : α) :
    (fill lo hi (fun _ => d) xs).getD i d = if lo ≤ i ∧ i < hi then d else xs.getD i d := by
  split
  · next hin =>
    rcases Nat.lt_or_ge i xs.length with hi' | hi'
    · exact fill_getD_inside _ d hin.1 hin.2 hi'
    · exact List.getD_eq_default _ _ (by rwa [fill_length])
  · next hout => exact fill_getD_outside _ xs d hout

section
variable (s : State) (n t : Nat)

@[simp] theorem zeroizeCoefs_SIDX : (zeroizeCoefs s t).SIDX = s.SIDX := by rw [zeroizeCoefs_eq]

@[simp] theorem zeroizeCoefs_SVAL : (zeroizeCoefs s t).SVAL = s.SVAL := by rw [zeroizeCoefs_eq]

theorem length_zeroizeCoefs_C : (zeroizeCoefs s t).C.length = s.C.length := by
  rw [zeroizeCoefs_C]
  split
  · exact fill_length _ _ _ _
  · rfl

theorem readC_zeroizeCoefs (j : Nat) :
    readC (zeroizeCoefs s t) j = if s.zlatch = true ∧ 1 ≤ j ∧ j < t then 0 else readC s j := by
  rw [readC, zeroizeCoefs_C]
  by_cases hz : s.zlatch = true
  · simp only [hz, if_true, true_and]
    exact fill_const_getD 1 t j s.C 0
  · simp [hz, readC]

theorem readSIDX_writeShares_of_lt {k : Nat} (hk : k < n) (hlen : k < s.SIDX.length) :
    readSIDX (writeShares s n t) k = BitVec.ofNat 32 k :=
  fill_getD_inside _ 0 (Nat.zero_le k) hk hlen

theorem readSVAL_writeShares_of_lt {k : Nat} (hk : k < n) (hlen : k < s.SVAL.length) :
    readSVAL (writeShares s n t) k = polyValue s t (k + 1) :=
  (fill_getD_inside _ 0 (Nat.zero_le k) hk hlen).trans (polyval_eq_polyValue s t (k + 1))

theorem readSIDX_writeShares_of_ge {k : Nat} (hk : n ≤ k) : readSIDX (writeShares s n t) k = readSIDX s k :=
  fill_getD_outside _ s.SIDX 0 (by omega)

theorem readSVAL_writeShares_of_ge {k : Nat} (hk : n ≤ k) : readSVAL (writeShares s n t) k = readSVAL s k :=
  fill_getD_outside _ s.SVAL 0 (by omega)

/-- The share slots after a SPLIT that passes its checks are those its share loop wrote. -/
theorem readSIDX_split (k : Nat) :
    readSIDX (commitOk (zeroizeCoefs (writeShares s n t) t)) k = readSIDX (writeShares s n t) k := by
  simp [readSIDX]

theorem readSVAL_split (k : Nat) :
    readSVAL (commitOk (zeroizeCoefs (writeShares s n t) t)) k = readSVAL (writeShares s n t) k := by
  simp [readSVAL]

/-- The share loop leaves the coefficients, so the zeroize alone decides them. -/
theorem readC_split (j : Nat) :
    readC (commitOk (zeroizeCoefs (writeShares s n t) t)) j =
      if s.zlatch = true ∧ 1 ≤ j ∧ j < t then 0 else readC s j :=
  readC_zeroizeCoefs (writeShares s n t) t j

end

end Sys2Proof.Machine
end

section
/-! The commands of the polynomial evaluator, 41_poly_eval.md R92 to R95. -/

namespace Sys2Proof.Machine

/-- Settles O18: each premise leaves one check as the first that fails, or none, and then the value is that of R91. -/
theorem pevalEvaluatesThePolynomial : Obligations.PevalEvaluatesThePolynomial := fun rd ra _ ht =>
  ⟨decode_pevalWord ht rd ra, fun _ =>
    ⟨exec_modulusTooSmall rfl, exec_peval_tBelowOne, exec_peval_tAboveNcoef, exec_peval_source_range,
      fun _ => exec_peval_coef_range, exec_peval_value⟩⟩

/-- Settles O20: well-formedness gives each array of shares NSHARE slots, so every slot below N exists; N has 9 bits,
so a slot's number fits an index word. -/
theorem splitWritesTheShares : Obligations.SplitWritesTheShares := by
  intro n t hn ht
  refine ⟨decode_splitWord hn ht, fun s hwf haccept => ⟨_, exec_split_of_accepts haccept, ?written, ?kept,
    readC_split s n t, by simp, by simp, length_zeroizeCoefs_C _ t, ?frame⟩⟩
  case written =>
    intro k hk
    obtain ⟨-, -, -, -, -, hshare, -, -⟩ := haccept
    have hkshare : k < s.params.NSHARE := by omega
    have hidx : k < s.SIDX.length := hwf.fits.SIDX_length ▸ hkshare
    have hval : k < s.SVAL.length := hwf.fits.SVAL_length ▸ hkshare
    rw [readSIDX_split, readSVAL_split, readSIDX_writeShares_of_lt s n t hk hidx]
    exact ⟨Nat.mod_eq_of_lt (by omega), readSVAL_writeShares_of_lt s n t hk hval⟩
  case kept =>
    intro k hk
    rw [readSIDX_split, readSVAL_split]
    exact ⟨readSIDX_writeShares_of_ge s n t hk, readSVAL_writeShares_of_ge s n t hk⟩
  case frame =>
    rw [zeroizeCoefs_eq]
    rfl

/-- Settles O21: an accepted SPLIT zeroizes by ZLATCH, and a rejected one commits its error to the state as it was. -/
theorem zeroizeOnlyAfterSuccessfulSplit : Obligations.ZeroizeOnlyAfterSuccessfulSplit := by
  intro n t s u hu
  by_cases haccept : SplitAccepts s n t
  case pos =>
    obtain rfl : commitOk (zeroizeCoefs (writeShares s n t) t) = u := by
      simpa [exec_split_of_accepts haccept] using hu
    constructor
    · intro _ hz j
      have hbound : j < t ↔ j ≤ t - 1 := by omega
      rw [readC_split]
      simp [hz, hbound]
    · rintro (hz | hreject)
      · simp [hz]
      · exact absurd haccept hreject
  case neg =>
    obtain ⟨e, rfl⟩ := exec_split_of_not_accepts haccept hu
    exact ⟨fun h => absurd h haccept, fun _ => rfl⟩

end Sys2Proof.Machine
end

section
/-! SUPPORT. The interpolator, 42_interpolation.md R97 to R101: when COMBINE and LBASIS pass their checks, what each
commits then, and the result of COMBINE as a sum over all the slots below n. -/

namespace Sys2Proof.Machine

section
variable {s : State} {rd : FReg} {n k : Nat}

theorem combineChecks_pass_iff : (∀ c ∈ checksOf (.combine rd n) s, c = none) ↔
    2 ≤ s.P ∧ n ≤ s.params.NSHARE ∧ SharesReduced s n ∧ ∀ k ∈ keptSlots s n, DenUnit s n k := by
  simp only [checksOf, List.forall_mem_cons, checkModulus_eq_none, checkCount_eq_none, checkShares_eq_none,
    decide_eq_false_iff_not, Nat.not_lt, List.not_mem_nil, false_imp_iff, implies_true, and_true]
  exact and_congr_right fun hP => and_congr_right fun _ => and_congr_right fun _ => checkDens_eq_none (by omega) n

/-- Every slot below n is in E(n), unless it is a dropped duplicate (R98). -/
theorem isDuplicate_eq_false_iff (hk : k < n) : isDuplicate s k = false ↔ k ∈ keptSlots s n := by
  rw [mem_keptSlots, mem_effective, and_iff_right hk]

/-- The last check of LBASIS: den(K) is tested for a kept slot only (R101). -/
theorem lbasisDen_eq_none (hP : 0 < s.P) (hk : k < n) :
    (if isDuplicate s k then none else checkDen s n k) = none ↔ (k ∈ keptSlots s n → DenUnit s n k) := by
  rw [← isDuplicate_eq_false_iff hk, ← checkDen_eq_none hP]
  cases isDuplicate s k <;> simp

theorem lbasisChecks_pass_iff : (∀ c ∈ checksOf (.lbasis rd k n) s, c = none) ↔
    2 ≤ s.P ∧ 1 ≤ n ∧ n ≤ s.params.NSHARE ∧ k < n ∧ SharesReduced s n ∧ (k ∈ keptSlots s n → DenUnit s n k) := by
  simp only [checksOf, List.forall_mem_cons, checkModulus_eq_none, checkCount_eq_none, checkShares_eq_none,
    decide_eq_false_iff_not, Nat.not_lt, Nat.not_le, List.not_mem_nil, false_imp_iff, implies_true, and_true]
  exact and_congr_right fun hP => and_congr_right fun _ => and_congr_right fun _ => and_congr_right fun hk =>
    and_congr_right fun _ => lbasisDen_eq_none (by omega) hk

theorem exec_combine_value (hP : 2 ≤ s.P) (hn : n ≤ s.params.NSHARE) (hv : SharesReduced s n)
    (hu : ∀ k ∈ keptSlots s n, DenUnit s n k) :
    exec (.combine rd n) s = .next (s.afterWriteF rd (combineSum s n)) :=
  exec_of_writesOf (combineChecks_pass_iff.2 ⟨hP, hn, hv, hu⟩) rfl

theorem exec_lbasis_value (hP : 2 ≤ s.P) (hn : n ≤ s.params.NSHARE) (hk : k < n) (hv : SharesReduced s n)
    (hu : k ∈ keptSlots s n → DenUnit s n k) :
    exec (.lbasis rd k n) s = .next (s.afterWriteF rd (lbasisValue s n k)) :=
  exec_of_writesOf (lbasisChecks_pass_iff.2 ⟨hP, by omega, hn, hk, hv, hu⟩) rfl

/-- A COMBINE that ends with no error passed its checks, and committed its sum. -/
theorem combine_inversion {t : State} (h : exec (.combine rd n) s = .next t) (ht : t.status.err = false) :
    (2 ≤ s.P ∧ n ≤ s.params.NSHARE ∧ SharesReduced s n ∧ ∀ k ∈ keptSlots s n, DenUnit s n k) ∧
      readF t rd = combineSum s n := by
  rcases exec_inversion h with ⟨e, -, rfl⟩ | ⟨hpass, rfl⟩
  · simp at ht
  · exact ⟨combineChecks_pass_iff.1 hpass, readF_writeF_same s rd _⟩

theorem lbasisValue_eq (hk : k < n) : lbasisValue s n k = if k ∈ keptSlots s n then lagrange s n k else 0 := by
  simp only [lbasisValue, ← isDuplicate_eq_false_iff hk]
  cases isDuplicate s k <;> rfl

end

/-- A dropped slot adds 0, so the sum of COMBINE over E(n) is a sum over every slot below n (R102). -/
theorem combineSum_eq_sum_lbasisValue (s : State) (n : Nat) :
    combineSum s n = (∑ k ∈ Finset.range n, readSVAL s k * lbasisValue s n k) % s.P := by
  have hterm : ∀ k ∈ Finset.range n, readSVAL s k * lbasisValue s n k =
      if k ∈ keptSlots s n then readSVAL s k * lagrange s n k else 0 := fun k hk => by
    rw [lbasisValue_eq (Finset.mem_range.1 hk), mul_ite, mul_zero]
  have hkept : (Finset.range n).filter (· ∈ keptSlots s n) = keptSlots s n :=
    Finset.filter_mem_eq_inter.trans (Finset.inter_eq_right.2 (Finset.filter_subset _ _))
  rw [combineSum_eq_sum, Finset.sum_congr rfl hterm, ← Finset.sum_filter, hkept]

end Sys2Proof.Machine
end

section
/-! COMBINE against LBASIS, 42_interpolation.md R102. -/

namespace Sys2Proof.Machine

/-- Settles O57: COMBINE tests den(k) of every kept slot, so its checks imply those of LBASIS for each slot below n; a
dropped slot contributes LBASIS's 0. -/
theorem combineDecomposesIntoBasisValues : Obligations.CombineDecomposesIntoBasisValues := by
  intro rd n s t _ _ hexec ht
  obtain ⟨⟨hP, hn, hv, hu⟩, hsum⟩ := combine_inversion hexec ht
  exact ⟨lbasisValue s n, fun k hk => exec_lbasis_value hP hn hk hv (hu k),
    hsum.trans (combineSum_eq_sum_lbasisValue s n)⟩

end Sys2Proof.Machine
end

section
/-! SUPPORT. The numbers of 42_interpolation.md R99 in the field of residues modulo a prime P: COMBINE evaluates at 0
the Lagrange interpolation polynomial through the points of the kept slots, and the shares of SPLIT (41_poly_eval.md
R91, R93) are points of one polynomial whose value at 0 is C[0]. -/

namespace Sys2Proof.Machine

open Polynomial

/-- The abscissa of a share slot as a residue (R15). -/
def node (s : State) (k : Nat) : ZMod s.P := (readSIDX s k).toNat + 1

/-! ### Residues of the interpolator's numbers -/

theorem zmod_cast_modInt (a : Int) {m : Nat} (hm : 0 < m) : (modInt a m : ZMod m) = a := by
  rw [← Int.cast_natCast, cast_modInt a hm, ZMod.intCast_mod]

theorem zmod_cast_abscissa (s : State) (k : Nat) : (abscissa s k : ZMod s.P) = node s k := by
  simp [abscissa, node]

theorem zmod_cast_lagrangeNum {s : State} (h : 0 < s.P) (n k : Nat) :
    (lagrangeNum s n k : ZMod s.P) = ∏ j ∈ (keptSlots s n).erase k, (0 - node s j) := by
  rw [lagrangeNum, prodOver_others, ZMod.natCast_mod, Nat.cast_prod]
  refine Finset.prod_congr rfl fun j _ => ?_
  rw [zmod_cast_modInt _ h, Int.cast_sub, Int.cast_natCast, zmod_cast_abscissa, Int.cast_zero]

theorem zmod_cast_lagrangeDen {s : State} (h : 0 < s.P) (n k : Nat) :
    (lagrangeDen s n k : ZMod s.P) = ∏ j ∈ (keptSlots s n).erase k, (node s k - node s j) := by
  rw [lagrangeDen, prodOver_others, ZMod.natCast_mod, Nat.cast_prod]
  refine Finset.prod_congr rfl fun j _ => ?_
  rw [zmod_cast_modInt _ h, node, node, Int.cast_sub, Int.cast_natCast, Int.cast_natCast, add_sub_add_right_eq_sub]

theorem denUnit_iff_isUnit {s : State} (h : 0 < s.P) (n k : Nat) :
    DenUnit s n k ↔ IsUnit (lagrangeDen s n k : ZMod s.P) := by
  have hlt : lagrangeDen s n k < s.P := Nat.mod_lt _ h
  rw [denUnit_iff h, isUnit_iff_of_lt hlt, ZMod.isUnit_iff_coprime, Nat.Coprime]

theorem mul_zmod_cast_modInv {a m : Nat} (hm : 2 ≤ m) (hu : isUnit a m = true) :
    (a : ZMod m) * (modInv a m : ZMod m) = 1 := by
  rw [← Nat.cast_mul, ← ZMod.natCast_mod, mul_modInv hm ((isUnit_iff a m).1 hu), Nat.cast_one]

/-! ### Lagrange interpolation over a prime modulus -/

section
variable {s : State} [Fact s.P.Prime] {n k : Nat}

/-- Kept slots with distinct abscissas have unit denominators. -/
theorem denUnit_of_injOn_node (hinj : Set.InjOn (node s) (keptSlots s n)) (hk : k ∈ keptSlots s n) :
    DenUnit s n k := by
  have hP := (Fact.out : s.P.Prime).pos
  rw [denUnit_iff_isUnit hP, zmod_cast_lagrangeDen hP, isUnit_iff_ne_zero, Finset.prod_ne_zero_iff]
  intro j hj
  obtain ⟨hjk, hj⟩ := Finset.mem_erase.1 hj
  exact sub_ne_zero.2 fun e => hjk (hinj hj hk e.symm)

/-- lambda(k) is the value at 0 of the Lagrange basis polynomial of slot k. -/
theorem zmod_cast_lagrange (hu : DenUnit s n k) :
    (lagrange s n k : ZMod s.P) = (Lagrange.basis (keptSlots s n) (node s) k).eval 0 := by
  have hprime : s.P.Prime := Fact.out
  have hinv : (modInv (lagrangeDen s n k) s.P : ZMod s.P) = (lagrangeDen s n k : ZMod s.P)⁻¹ :=
    eq_inv_of_mul_eq_one_right (mul_zmod_cast_modInv hprime.two_le ((denUnit_iff hprime.pos n k).1 hu))
  calc (lagrange s n k : ZMod s.P)
      = (∏ j ∈ (keptSlots s n).erase k, (0 - node s j)) *
          (∏ j ∈ (keptSlots s n).erase k, (node s k - node s j))⁻¹ := by
        rw [lagrange, ZMod.natCast_mod, Nat.cast_mul, hinv, zmod_cast_lagrangeNum hprime.pos,
          zmod_cast_lagrangeDen hprime.pos]
    _ = ∏ j ∈ (keptSlots s n).erase k, (node s k - node s j)⁻¹ * (0 - node s j) := by
        rw [Finset.prod_mul_distrib, Finset.prod_inv_distrib, mul_comm]
    _ = (Lagrange.basis (keptSlots s n) (node s) k).eval 0 := by
        rw [Lagrange.basis, eval_prod]
        simp [Lagrange.basisDivisor]

/-- COMBINE of enough points of a polynomial is the polynomial's value at 0: interpolation is unique. -/
theorem zmod_cast_combineSum_of_points (hinj : Set.InjOn (node s) (keptSlots s n)) {f : (ZMod s.P)[X]}
    (hdeg : f.degree < (keptSlots s n).card)
    (hpoint : ∀ k ∈ keptSlots s n, f.eval (node s k) = readSVAL s k) :
    (combineSum s n : ZMod s.P) = f.eval 0 := by
  rw [Lagrange.eq_interpolate_of_eval_eq _ hinj hdeg hpoint, Lagrange.interpolate_apply, eval_finsetSum,
    combineSum_eq_sum, ZMod.natCast_mod, Nat.cast_sum]
  refine Finset.sum_congr rfl fun k hk => ?_
  rw [eval_mul, eval_C, ← zmod_cast_lagrange (denUnit_of_injOn_node hinj hk), Nat.cast_mul]

end

/-! ### The polynomial of a SPLIT (R91) -/

/-- The polynomial with the first t coefficient registers as its coefficients. -/
noncomputable def sharePolynomial (R : Type) [CommRing R] (s : State) (t : Nat) : R[X] :=
  ∑ j ∈ Finset.range t, C (readC s j : R) * X ^ j

section
variable (R : Type) [CommRing R] (s : State) (t : Nat)

theorem degree_sharePolynomial_lt : (sharePolynomial R s t).degree < t := by
  rw [sharePolynomial, ← Fin.sum_univ_eq_sum_range fun j => C (readC s j : R) * X ^ j]
  exact degree_sum_fin_lt _

theorem eval_sharePolynomial (x : R) :
    (sharePolynomial R s t).eval x = ∑ j ∈ Finset.range t, (readC s j : R) * x ^ j := by
  simp [sharePolynomial, eval_finsetSum]

variable {t}

theorem eval_zero_sharePolynomial (ht : 1 ≤ t) : (sharePolynomial R s t).eval 0 = readC s 0 := by
  obtain ⟨t, rfl⟩ := Nat.exists_eq_add_of_le' ht
  simp [eval_sharePolynomial, Finset.sum_range_succ']

/-- R91's value is the polynomial's, in every ring where P is 0. -/
theorem cast_polyValue [CharP R s.P] (ht : 1 ≤ t) (x : Nat) :
    (polyValue s t x : R) = (sharePolynomial R s t).eval (x : R) := by
  have hIcc : Finset.Icc 1 (t - 1) = Finset.Ico 1 t := by
    ext j
    simp only [Finset.mem_Icc, Finset.mem_Ico]
    omega
  have hsum : readC s 0 + ∑ j ∈ Finset.Icc 1 (t - 1), readC s j * x ^ j =
      ∑ j ∈ Finset.range t, readC s j * x ^ j := by
    rw [hIcc, Finset.range_eq_Ico, Finset.sum_eq_sum_Ico_succ_bot ht, pow_zero, mul_one]
  rw [polyValue, hsum, ← CharP.cast_eq_mod, eval_sharePolynomial]
  push_cast
  rfl

end

end Sys2Proof.Machine
end

section
/-! SUPPORT. Share slots with distinct indices below P - 1, as a SPLIT writes them (41_poly_eval.md R93), and COMBINE of
such slots (42_interpolation.md R100, R104). -/

namespace Sys2Proof.Machine

open Polynomial

/-- The slots below m have distinct indices, each with its abscissa (index + 1) below P, so that R15 does not reduce
it. -/
structure DistinctIndices (s : State) (m : Nat) : Prop where
  abscissa_lt : ∀ k, k < m → (readSIDX s k).toNat + 1 < s.P
  inj : ∀ j k, j < m → k < m → readSIDX s j = readSIDX s k → j = k

section
variable {s : State} {m : Nat}

/-- No slot is dropped where the indices are distinct. -/
theorem keptSlots_of_distinctIndices (h : DistinctIndices s m) : keptSlots s m = Finset.range m :=
  Finset.filter_true_of_mem fun k hk j hj ⟨hidx, _⟩ => by
    have hkm := Finset.mem_range.1 hk
    exact hj.ne (h.inj j k (hj.trans hkm) hkm hidx)

theorem injOn_node_of_distinctIndices (h : DistinctIndices s m) : Set.InjOn (node s) (keptSlots s m) := by
  rw [keptSlots_of_distinctIndices h]
  intro j hj k hk hnode
  have hjm := Finset.mem_range.1 hj
  have hkm := Finset.mem_range.1 hk
  have hcast : (((readSIDX s j).toNat + 1 : Nat) : ZMod s.P) = ((readSIDX s k).toNat + 1 : Nat) := by
    simpa [node] using hnode
  have hsucc := CharP.natCast_injOn_Iio (ZMod s.P) s.P (h.abscissa_lt j hjm) (h.abscissa_lt k hkm) hcast
  exact h.inj j k hjm hkm (BitVec.eq_of_toNat_eq (Nat.succ_injective hsucc))

/-- COMBINE of m points of a polynomial of degree below m, with distinct indices, commits its value at 0. -/
theorem exec_combine_of_points {rd : FReg} {f : (ZMod s.P)[X]} {c : Nat} (hprime : s.P.Prime)
    (hm : m ≤ s.params.NSHARE) (hdistinct : DistinctIndices s m) (hv : SharesReduced s m) (hdeg : f.degree < m)
    (hpoint : ∀ k, k < m → f.eval (node s k) = readSVAL s k) (hc : c < s.P) (hzero : f.eval 0 = c) :
    exec (.combine rd m) s = .next (s.afterWriteF rd c) := by
  have : Fact s.P.Prime := ⟨hprime⟩
  have hinj := injOn_node_of_distinctIndices hdistinct
  have hkept := keptSlots_of_distinctIndices hdistinct
  have hcast : (combineSum s m : ZMod s.P) = c :=
    (zmod_cast_combineSum_of_points hinj (by rwa [hkept, Finset.card_range])
      fun k hk => hpoint k (Finset.mem_range.1 (hkept ▸ hk))).trans hzero
  have hsum : combineSum s m = c :=
    CharP.natCast_injOn_Iio (ZMod s.P) s.P (combineSum_lt hprime.pos m) hc hcast
  rw [exec_combine_value hprime.two_le hm hv fun k hk => denUnit_of_injOn_node hinj hk, hsum]

end

/-- What an accepted SPLIT from a well-formed state leaves in the share slots below N (R93, R95). -/
theorem split_shares {s u : State} {n t : Nat} (hwf : s.WF) (haccept : SplitAccepts s n t)
    (hu : exec (.split n t) s = .next u) :
    ∀ k, k < n → (readSIDX u k).toNat = k ∧ readSVAL u k = polyValue s t (k + 1) := by
  have ⟨_, _, _, _, hcoef, hshare, _, _⟩ := haccept
  obtain ⟨-, -, -, -, hncoef, -, hnshare, -⟩ := hwf.legal
  obtain ⟨-, hsplit⟩ := splitWritesTheShares n t (by omega) (by omega)
  obtain ⟨w, hw, hwritten, -⟩ := hsplit s hwf haccept
  obtain rfl : w = u := by simpa [hw] using hu
  exact hwritten

end Sys2Proof.Machine
end

section
/-! The round trip of SPLIT and COMBINE, 42_interpolation.md R104. -/

namespace Sys2Proof.Machine

/-- Settles O59: the shares are points of the polynomial of the coefficients SPLIT read, of degree below T ≤ m, so
COMBINE commits its value at 0, which is C[0]. -/
theorem splitThenCombineRecoversTheSecret : Obligations.SplitThenCombineRecoversTheSecret := by
  intro rd n t m s u v pick hwf hprime haccept hu htm hm hparams hP hpick hinj hcopy
  have hwritten := split_shares hwf haccept hu
  obtain ⟨-, ht, -, -, -, -, hnP, hcoefs⟩ := haccept
  have hidx : ∀ k, k < m → (readSIDX v k).toNat = pick k := fun k hk => by
    rw [(hcopy k hk).1, (hwritten _ (hpick k hk)).1]
  have hval : ∀ k, k < m → readSVAL v k = polyValue s t (pick k + 1) := fun k hk => by
    rw [(hcopy k hk).2, (hwritten _ (hpick k hk)).2]
  have hdistinct : DistinctIndices v m := {
    abscissa_lt := fun k hk => by
      have := hpick k hk
      rw [hidx k hk, hP]
      omega
    inj := fun j k hj hk e => hinj j k hj hk (by rw [← hidx j hj, ← hidx k hk, e]) }
  have : CharP (ZMod v.P) s.P := hP ▸ ZMod.charP v.P
  refine exec_combine_of_points (f := sharePolynomial (ZMod v.P) s t) (hP ▸ hprime) (hparams ▸ hm) hdistinct
    ?reduced ?degree ?points (hP ▸ hcoefs 0 ht) (eval_zero_sharePolynomial (ZMod v.P) s ht)
  case reduced =>
    intro k hk
    rw [hval k hk, hP]
    exact Nat.mod_lt _ hprime.pos
  case degree => exact (degree_sharePolynomial_lt (ZMod v.P) s t).trans_le (by exact_mod_cast htm)
  case points =>
    intro k hk
    rw [hval k hk, cast_polyValue (ZMod v.P) s ht, node, hidx k hk, Nat.cast_succ]

end Sys2Proof.Machine
end

section
/-! SUPPORT. Reset, 70_reset_and_hazards.md R128: the two moves that reset the block, and what the block then reads as. -/

namespace Sys2Proof.Machine

/-- RST_N going low is one step, which holds the block in reset (R127). -/
theorem step_assertReset {s : State} {rest : List Event} (h : s.events = .assertReset :: rest) :
    step s = .next (holdReset s.pop) := by
  simp [step, h, State.pop]

/-- A pending CTRL write with bit 31 = 1 resets the block in one step; its other bits are discarded, R20. -/
theorem step_softReset {s : State} {a : Access} (hnext : s.AccessNext a) (hsoft : SoftReset s a) :
    step s = .next (resetBlock { s.pop with rdata := none }) := by
  obtain ⟨w, rfl, h31⟩ := hsoft
  have hctrl : writeCtl { s.pop with rdata := none } .ctrl w = resetBlock { s.pop with rdata := none } := if_pos h31
  rw [step_write_ctl (r := .ctrl) hnext, hctrl]

/-- Hardware and soft reset have the same effect on the block (R125), whatever it was doing. -/
theorem step_reset {s : State}
    (h : (∃ rest, s.events = .assertReset :: rest) ∨ ∃ a, s.AccessNext a ∧ SoftReset s a) :
    ∃ t, step s = .next t ∧ t.events = s.events.tail ∧ t.toBlock = Block.reset s.params := by
  rcases h with ⟨rest, he⟩ | ⟨a, hnext, hsoft⟩
  · exact ⟨_, step_assertReset he, rfl, rfl⟩
  · exact ⟨_, step_softReset hnext hsoft, rfl, rfl⟩

theorem readF_of_reset {t : State} {p : Params} (h : t.toBlock = Block.reset p) (r : FReg) : readF t r = 0 := by
  rw [readF, h]
  exact Vector.getElem_replicate r.isLt

theorem irq_of_reset {t : State} {p : Params} (h : t.toBlock = Block.reset p) : irq t = false := by
  rw [irq, h]
  rfl

theorem ctrlWord_reset (p : Params) : ctrlWord (Block.reset p).ctrl = 0x00000002 :=
  (by decide : ctrlWord ⟨false, true⟩ = 0x00000002)

theorem statusWord_reset (p : Params) : statusWord (Block.reset p).status = 0 :=
  (by decide : statusWord ⟨false, false, false, false, 0⟩ = 0)

theorem errinfoWord_reset (p : Params) : errinfoWord (Block.reset p).errinfo = 0 :=
  (by decide : errinfoWord ⟨0, 0⟩ = 0)

end Sys2Proof.Machine
end

section
/-! Reset, 70_reset_and_hazards.md R128 and R129. -/

namespace Sys2Proof.Machine

/-- Settles O41: both moves leave the block in its reset state in one step, BUSY and the command in flight included, and
every register then reads as R35 says. -/
theorem resetClearsEveryRegister : Obligations.ResetClearsEveryRegister := by
  intro s h
  obtain ⟨t, hstep, hevents, hblock⟩ := step_reset h
  refine ⟨t, hstep, hevents, ?params, ?ctrl, ?status, ?cmd, ?errinfo, ?P, readF_of_reset hblock, ?C, ?SIDX, ?SVAL,
    ?zlatch, irq_of_reset hblock⟩ <;> rw [hblock]
  case ctrl => exact ctrlWord_reset s.params
  case status => exact statusWord_reset s.params
  case errinfo => exact errinfoWord_reset s.params
  all_goals rfl

end Sys2Proof.Machine
end

section
/-! SUPPORT. Decoding and encoding are inverse to each other, 30_encoding.md R60 to R75: the words of the formats C and L
(R67, R68), the command read back from the encoding of a command, and a word rebuilt from its fields. -/

namespace Sys2Proof

/-! ### The fields of a word -/

theorem field_toNat (v : Word) (hi lo : Nat) : (field v hi lo).toNat = v.toNat / 2 ^ lo % 2 ^ (hi - lo + 1) := by
  rw [← Nat.shiftRight_eq_div_pow]
  exact BitVec.extractLsb_toNat hi lo v

theorem field_and (v w : Word) (hi lo : Nat) : field (v &&& w) hi lo = field v hi lo &&& field w hi lo :=
  BitVec.extractLsb_and

/-- Where a row's mask tests every bit of a field, a word that meets the mask test has the row's match there. -/
theorem field_of_mask_match {v : Word} {row : OpRow} (h : v &&& row.mask = row.pattern) (hi lo : Nat)
    (hmask : field row.mask hi lo = BitVec.allOnes _) : field v hi lo = field row.pattern hi lo := by
  rw [← h, field_and, hmask, BitVec.and_allOnes]

/-! ### The words of the formats C and L -/

theorem encodeC_eq_ofNat (op : Nat) (rd : FReg) (n : Nat) :
    encodeC op rd n = BitVec.ofNat 32 (n <<< 10 ||| rd.val <<< 6 ||| op) := by
  simp only [encodeC, place_eq_ofNat, BitVec.ofNat_or, Nat.shiftLeft_zero]

theorem encodeL_eq_ofNat (op : Nat) (rd : FReg) (k n : Nat) :
    encodeL op rd k n = BitVec.ofNat 32 (n <<< 18 ||| k <<< 10 ||| rd.val <<< 6 ||| op) := by
  simp only [encodeL, place_eq_ofNat, BitVec.ofNat_or, Nat.shiftLeft_zero]

/-- The fields of format R2 do not overlap. -/
theorem encodeR2_toNat {op : Nat} (hop : op < 2 ^ 6) (rd ra : FReg) :
    (encodeR2 op rd ra).toNat = ra.val * 2 ^ 10 + (rd.val * 2 ^ 6 + op) := by
  rw [encodeR2_eq_encodeR, encodeR_toNat hop]
  simp

/-- The fields of format C do not overlap. -/
theorem encodeC_toNat {op n : Nat} (hop : op < 2 ^ 6) (hn : n < 2 ^ 9) (rd : FReg) :
    (encodeC op rd n).toNat = n * 2 ^ 10 + (rd.val * 2 ^ 6 + op) := by
  have hd : rd.val * 2 ^ 6 + op < 2 ^ 10 := by omega
  rw [encodeC_eq_ofNat, BitVec.toNat_ofNat, Nat.or_assoc, shiftLeft_or_eq_add hop, shiftLeft_or_eq_add hd]
  omega

/-- The fields of format L do not overlap. -/
theorem encodeL_toNat {op k n : Nat} (hop : op < 2 ^ 6) (hk : k < 2 ^ 8) (hn : n < 2 ^ 9) (rd : FReg) :
    (encodeL op rd k n).toNat = n * 2 ^ 18 + (k * 2 ^ 10 + (rd.val * 2 ^ 6 + op)) := by
  have hd : rd.val * 2 ^ 6 + op < 2 ^ 10 := by omega
  have hkd : k * 2 ^ 10 + (rd.val * 2 ^ 6 + op) < 2 ^ 18 := by omega
  rw [encodeL_eq_ofNat, BitVec.toNat_ofNat, Nat.or_assoc, Nat.or_assoc, shiftLeft_or_eq_add hop,
    shiftLeft_or_eq_add hd, shiftLeft_or_eq_add hkd]
  omega

theorem fields_encodeC {op n : Nat} (hop : op < 2 ^ 6) (hn : n < 2 ^ 9) (rd : FReg) :
    rdField (encodeC op rd n) = rd ∧ (field (encodeC op rd n) 18 10).toNat = n := by
  refine ⟨Fin.ext ?_, ?_⟩
  · rw [rdField_val, encodeC_toNat hop hn]
    omega
  · rw [field_toNat, encodeC_toNat hop hn]
    omega

theorem fields_encodeL {op k n : Nat} (hop : op < 2 ^ 6) (hk : k < 2 ^ 8) (hn : n < 2 ^ 9) (rd : FReg) :
    rdField (encodeL op rd k n) = rd ∧ (field (encodeL op rd k n) 17 10).toNat = k ∧
      (field (encodeL op rd k n) 26 18).toNat = n := by
  refine ⟨Fin.ext ?_, ?_, ?_⟩
  · rw [rdField_val, encodeL_toNat hop hk hn]
    omega
  · rw [field_toNat, encodeL_toNat hop hk hn]
    omega
  · rw [field_toNat, encodeL_toNat hop hk hn]
    omega

/-! ### The command of an encoding -/

/-- The encoding of a well-formed command meets the mask test of its row (R70). -/
theorem encode_mask_match : ∀ i : Instr, i.wf = true → encode i &&& i.row.mask = i.row.pattern
  | .nop => Laws.EncodedByRow.nop
  | .madd rd ra rb => Laws.EncodedByRow.madd rd ra rb
  | .msub rd ra rb => Laws.EncodedByRow.msub rd ra rb
  | .mmul rd ra rb => Laws.EncodedByRow.mmul rd ra rb
  | .mneg rd ra => Laws.EncodedByRow.mneg rd ra
  | .minv rd ra => Laws.EncodedByRow.minv rd ra
  | .mexp rd ra rb => Laws.EncodedByRow.mexp rd ra rb
  | .mmov rd ra => Laws.EncodedByRow.mmov rd ra
  | .mldi rd imm => Laws.EncodedByRow.mldi rd imm
  | .peval rd ra t => Laws.EncodedByRow.peval rd ra t
  | .split n t => Laws.EncodedByRow.split n t
  | .combine rd n => Laws.EncodedByRow.combine rd n
  | .lbasis rd k n => Laws.EncodedByRow.lbasis rd k n

section
variable {op : Nat} (hop : op < 2 ^ 6) (rd ra rb : FReg)
include hop

/-- A command of three registers is read back from its word of format R. -/
theorem extract_encodeR {row : OpRow} {c : FReg → FReg → FReg → Instr}
    (hx : ∀ v, row.extract v = c (rdField v) (raField v) (rbField v)) :
    row.extract (encodeR op rd ra rb) = c rd ra rb := by
  obtain ⟨hd, ha, hb⟩ := fields_encodeR hop rd ra rb
  rw [hx, hd, ha, hb]

/-- A command of two registers is read back from its word of format R2. -/
theorem extract_encodeR2 {row : OpRow} {c : FReg → FReg → Instr}
    (hx : ∀ v, row.extract v = c (rdField v) (raField v)) : row.extract (encodeR2 op rd ra) = c rd ra := by
  obtain ⟨hd, ha⟩ := fields_encodeR2 hop rd ra
  rw [hx, hd, ha]

end

/-- The fields of the encoding of a well-formed command are its operands. -/
theorem extract_encode (i : Instr) (h : i.wf = true) : i.row.extract (encode i) = i := by
  cases i with
  | nop => rfl
  | madd rd ra rb => exact extract_encodeR (by decide) rd ra rb fun _ => rfl
  | msub rd ra rb => exact extract_encodeR (by decide) rd ra rb fun _ => rfl
  | mmul rd ra rb => exact extract_encodeR (by decide) rd ra rb fun _ => rfl
  | mexp rd ra rb => exact extract_encodeR (by decide) rd ra rb fun _ => rfl
  | mneg rd ra => exact extract_encodeR2 (by decide) rd ra fun _ => rfl
  | minv rd ra => exact extract_encodeR2 (by decide) rd ra fun _ => rfl
  | mmov rd ra => exact extract_encodeR2 (by decide) rd ra fun _ => rfl
  | mldi rd imm =>
    obtain ⟨hd, hi⟩ := fields_encodeI (op := 0x08) (by decide) (of_decide_eq_true h) rd
    rw [encode, Instr.row, OpRow.extract, hd, hi]
  | peval rd ra t =>
    obtain ⟨hd, ha, ht⟩ := fields_encodeP (op := 0x10) (by decide) (of_decide_eq_true h) rd ra
    rw [encode, Instr.row, OpRow.extract, hd, ha, ht]
  | split n t =>
    obtain ⟨hn, ht⟩ := Bool.and_eq_true_iff.1 h
    obtain ⟨hN, hT⟩ := fields_encodeS (op := 0x18) (by decide) (of_decide_eq_true hn) (of_decide_eq_true ht)
    rw [encode, Instr.row, OpRow.extract, hN, hT]
  | combine rd n =>
    obtain ⟨hd, hn⟩ := fields_encodeC (op := 0x19) (by decide) (of_decide_eq_true h) rd
    rw [encode, Instr.row, OpRow.extract, hd, hn]
  | lbasis rd k n =>
    obtain ⟨hk, hn⟩ := Bool.and_eq_true_iff.1 h
    obtain ⟨hd, hK, hN⟩ := fields_encodeL (op := 0x1A) (by decide) (of_decide_eq_true hk) (of_decide_eq_true hn) rd
    rw [encode, Instr.row, OpRow.extract, hd, hK, hN]

theorem decode_encode {i : Instr} (h : i.wf = true) : decode (encode i) = .ok i := by
  rw [decode_of_mask_match (encode_mask_match i h), extract_encode i h]

/-- COMBINE is the one command of format C. -/
theorem decode_combineWord {n : Nat} (hn : n < 2 ^ 9) (rd : FReg) :
    decode (BitVec.ofNat 32 (n <<< 10 ||| rd.val <<< 6 ||| 0x19)) = .ok (.combine rd n) := by
  rw [← encodeC_eq_ofNat]
  exact decode_encode (i := .combine rd n) (decide_eq_true hn)

/-- LBASIS is the one command of format L. -/
theorem decode_lbasisWord {k n : Nat} (hk : k < 2 ^ 8) (hn : n < 2 ^ 9) (rd : FReg) :
    decode (BitVec.ofNat 32 (n <<< 18 ||| k <<< 10 ||| rd.val <<< 6 ||| 0x1A)) = .ok (.lbasis rd k n) := by
  rw [← encodeL_eq_ofNat]
  exact decode_encode (i := .lbasis rd k n) (Bool.and_eq_true_iff.2 ⟨decide_eq_true hk, decide_eq_true hn⟩)

/-! ### The word of a command that was decoded -/

theorem field_toNat_lt (v : Word) (hi lo : Nat) : (field v hi lo).toNat < 2 ^ (hi - lo + 1) := (field v hi lo).isLt

/-- Operands taken from fields fit them. -/
theorem wf_extract (row : OpRow) (v : Word) : (row.extract v).wf = true := by
  cases row with
  | mldi => exact decide_eq_true (field_toNat_lt v 31 16)
  | peval => exact decide_eq_true (field_toNat_lt v 20 14)
  | split =>
    exact Bool.and_eq_true_iff.2 ⟨decide_eq_true (field_toNat_lt v 14 6), decide_eq_true (field_toNat_lt v 21 15)⟩
  | combine => exact decide_eq_true (field_toNat_lt v 18 10)
  | lbasis =>
    exact Bool.and_eq_true_iff.2 ⟨decide_eq_true (field_toNat_lt v 17 10), decide_eq_true (field_toNat_lt v 26 18)⟩
  | _ => rfl

section
variable {op : Nat} (hop : op < 2 ^ 6) {v : Word} (hv : v.toNat % 2 ^ 6 = op)
include hop hv

/-! With the reserved bits of its format 0, a word is the encoding of its own fields. -/

theorem encodeR_fields (hz : v.toNat / 2 ^ 18 % 2 ^ 14 = 0) :
    encodeR op (rdField v) (raField v) (rbField v) = v := by
  apply BitVec.eq_of_toNat_eq
  rw [encodeR_toNat hop, rdField_val, raField_val, rbField_val]
  omega

theorem encodeR2_fields (hz : v.toNat / 2 ^ 14 % 2 ^ 18 = 0) : encodeR2 op (rdField v) (raField v) = v := by
  apply BitVec.eq_of_toNat_eq
  rw [encodeR2_toNat hop, rdField_val, raField_val]
  omega

theorem encodeI_fields (hz : v.toNat / 2 ^ 10 % 2 ^ 6 = 0) :
    encodeI op (rdField v) (field v 31 16).toNat = v := by
  apply BitVec.eq_of_toNat_eq
  rw [encodeI_toNat hop (field_toNat_lt v 31 16), rdField_val, field_toNat]
  omega

theorem encodeP_fields (hz : v.toNat / 2 ^ 21 % 2 ^ 11 = 0) :
    encodeP op (rdField v) (raField v) (field v 20 14).toNat = v := by
  apply BitVec.eq_of_toNat_eq
  rw [encodeP_toNat hop (field_toNat_lt v 20 14), rdField_val, raField_val, field_toNat]
  omega

theorem encodeS_fields (hz : v.toNat / 2 ^ 22 % 2 ^ 10 = 0) :
    encodeS op (field v 14 6).toNat (field v 21 15).toNat = v := by
  apply BitVec.eq_of_toNat_eq
  rw [encodeS_toNat hop (field_toNat_lt v 14 6) (field_toNat_lt v 21 15), field_toNat, field_toNat]
  omega

theorem encodeC_fields (hz : v.toNat / 2 ^ 19 % 2 ^ 13 = 0) : encodeC op (rdField v) (field v 18 10).toNat = v := by
  apply BitVec.eq_of_toNat_eq
  rw [encodeC_toNat hop (field_toNat_lt v 18 10), rdField_val, field_toNat]
  omega

theorem encodeL_fields (hz : v.toNat / 2 ^ 27 % 2 ^ 5 = 0) :
    encodeL op (rdField v) (field v 17 10).toNat (field v 26 18).toNat = v := by
  apply BitVec.eq_of_toNat_eq
  rw [encodeL_toNat hop (field_toNat_lt v 17 10) (field_toNat_lt v 26 18), rdField_val, field_toNat, field_toNat]
  omega

end

/-- A word that meets a row's mask test is the encoding of the row's command with the word's fields. -/
theorem encode_extract {v : Word} {row : OpRow} (h : v &&& row.mask = row.pattern) : encode (row.extract v) = v := by
  have slice (hi lo : Nat) (hmask : field row.mask hi lo = BitVec.allOnes _) :
      v.toNat / 2 ^ lo % 2 ^ (hi - lo + 1) = (field row.pattern hi lo).toNat := by
    rw [← field_toNat, field_of_mask_match h hi lo hmask]
  have hop : v.toNat % 2 ^ 6 = (field row.pattern 5 0).toNat := by
    simpa using slice 5 0 (opField_mask row)
  cases row with
  | nop => exact h.symm.trans BitVec.and_allOnes
  | madd => exact encodeR_fields (by decide) hop (slice 31 18 (by decide))
  | msub => exact encodeR_fields (by decide) hop (slice 31 18 (by decide))
  | mmul => exact encodeR_fields (by decide) hop (slice 31 18 (by decide))
  | mexp => exact encodeR_fields (by decide) hop (slice 31 18 (by decide))
  | mneg => exact encodeR2_fields (by decide) hop (slice 31 14 (by decide))
  | minv => exact encodeR2_fields (by decide) hop (slice 31 14 (by decide))
  | mmov => exact encodeR2_fields (by decide) hop (slice 31 14 (by decide))
  | mldi => exact encodeI_fields (by decide) hop (slice 15 10 (by decide))
  | peval => exact encodeP_fields (by decide) hop (slice 31 21 (by decide))
  | split => exact encodeS_fields (by decide) hop (slice 31 22 (by decide))
  | combine => exact encodeC_fields (by decide) hop (slice 31 19 (by decide))
  | lbasis => exact encodeL_fields (by decide) hop (slice 31 27 (by decide))

/-- A word that decodes to a command decodes to its row's command with the word's fields. -/
theorem extract_of_decode {v : Word} {i : Instr} (h : decode v = .ok i) : i.row.extract v = i := by
  simpa [decode_of_mask_match (mask_match_of_decode h)] using h

end Sys2Proof
end

section
/-! The encoding of the commands, 30_encoding.md R60 to R75. -/

namespace Sys2Proof.Machine

/-- Settles O2: the encoding of a well-formed command meets its row's mask test, and its fields hold the operands. -/
theorem decodeOfEncodeIsTheCommand : Obligations.DecodeOfEncodeIsTheCommand := fun _ => decode_encode

/-- Settles O3: the mask test fixes OP and the reserved bits, and the operands are read from all the other bits. -/
theorem encodeOfDecodeIsTheWord : Obligations.EncodeOfDecodeIsTheWord := by
  intro v i h
  have hi := extract_of_decode h
  constructor
  · rw [← hi]
    exact wf_extract _ v
  · rw [← encode_extract (mask_match_of_decode h), hi]

/-- Settles O1: the words are literals of the spec, so the decoder's answers are computed. -/
theorem decodeReadsSpecWords : Obligations.DecodeReadsSpecWords := by
  unfold Obligations.DecodeReadsSpecWords
  decide

end Sys2Proof.Machine
end

section
/-! SUPPORT. How SPLIT, COMBINE and LBASIS end at each of their checks (41_poly_eval.md R93; 42_interpolation.md R97 to
R101), and MEXP against MINV (00_scope.md R14, 40_field_arith.md R86). -/

namespace Sys2Proof.Machine

/-! ### SPLIT, one lemma per check (R93) -/

section
variable {s : State} {n t : Nat} (hP : 2 ≤ s.P)
include hP

theorem exec_split_tBelowOne (ht : t < 1) : exec (.split n t) s = .next (s.afterError 1 0x03 1) :=
  exec_of_firstError (e := .countRange .tBelowOne) (by
    rw [checksOf, checkModulus_eq_none.2 hP, checkCount_fail ht, firstError_none, firstError_some])

variable (ht : 1 ≤ t)
include ht

theorem exec_split_nBelowOne (hn : n < 1) : exec (.split n t) s = .next (s.afterError 1 0x03 2) :=
  exec_of_firstError (e := .countRange .nBelowOne) (by
    rw [checksOf, checkModulus_eq_none.2 hP, checkCount_pass (Nat.not_lt.2 ht), checkCount_fail hn]
    simp only [firstError_none, firstError_some])

theorem exec_split_tAboveN (hn : 1 ≤ n) (htn : n < t) : exec (.split n t) s = .next (s.afterError 1 0x03 3) :=
  exec_of_firstError (e := .countRange .tAboveN) (by
    rw [checksOf, checkModulus_eq_none.2 hP, checkCount_pass (Nat.not_lt.2 ht), checkCount_pass (Nat.not_lt.2 hn),
      checkCount_fail htn]
    simp only [firstError_none, firstError_some])

variable (htn : t ≤ n)
include htn

theorem exec_split_tAboveNcoef (hC : s.params.NCOEF < t) : exec (.split n t) s = .next (s.afterError 1 0x03 4) :=
  exec_of_firstError (e := .countRange .tAboveNcoef) (by
    rw [checksOf, checkModulus_eq_none.2 hP, checkCount_pass (Nat.not_lt.2 ht),
      checkCount_pass (Nat.not_lt.2 (ht.trans htn)), checkCount_pass (Nat.not_lt.2 htn), checkCount_fail hC]
    simp only [firstError_none, firstError_some])

variable (hC : t ≤ s.params.NCOEF)
include hC

theorem exec_split_nAboveNshare (hS : s.params.NSHARE < n) : exec (.split n t) s = .next (s.afterError 1 0x03 5) :=
  exec_of_firstError (e := .countRange .nAboveNshare) (by
    rw [checksOf, checkModulus_eq_none.2 hP, checkCount_pass (Nat.not_lt.2 ht),
      checkCount_pass (Nat.not_lt.2 (ht.trans htn)), checkCount_pass (Nat.not_lt.2 htn),
      checkCount_pass (Nat.not_lt.2 hC), checkCount_fail hS]
    simp only [firstError_none, firstError_some])

variable (hS : n ≤ s.params.NSHARE)
include hS

theorem exec_split_nNotBelowP (hnP : s.P ≤ n) : exec (.split n t) s = .next (s.afterError 1 0x03 7) :=
  exec_of_firstError (e := .countRange .nNotBelowP) (by
    rw [checksOf, checkModulus_eq_none.2 hP, checkCount_pass (Nat.not_lt.2 ht),
      checkCount_pass (Nat.not_lt.2 (ht.trans htn)), checkCount_pass (Nat.not_lt.2 htn),
      checkCount_pass (Nat.not_lt.2 hC), checkCount_pass (Nat.not_lt.2 hS), checkCount_fail hnP]
    simp only [firstError_none, firstError_some])

theorem exec_split_coef_range {j : Nat} (hnP : n < s.P) (hj : j < t) (hlow : CoefsReduced s j) (hc : s.P ≤ readC s j) :
    exec (.split n t) s = .next (s.afterError 1 0x04 j) :=
  exec_of_firstError (e := .coefRange j) (by
    rw [checksOf, checkModulus_eq_none.2 hP, checkCount_pass (Nat.not_lt.2 ht),
      checkCount_pass (Nat.not_lt.2 (ht.trans htn)), checkCount_pass (Nat.not_lt.2 htn),
      checkCount_pass (Nat.not_lt.2 hC), checkCount_pass (Nat.not_lt.2 hS), checkCount_pass (Nat.not_le.2 hnP),
      checkCoefs_lowest hj hc hlow]
    simp only [firstError_none, firstError_some])

end

/-! ### The unit checks of COMBINE (R100) -/

/-- A search over an ascending list answers at the lowest element that has an answer. -/
theorem findSome?_ascending_lowest {α : Type} {xs : List Nat} {k : Nat} {g : Nat → Option α} {a : α}
    (hxs : xs.Pairwise (· < ·)) (hk : k ∈ xs) (ha : g k = some a) (hlow : ∀ j ∈ xs, j < k → g j = none) :
    xs.findSome? g = some a := by
  obtain ⟨before, after, rfl⟩ := List.append_of_mem hk
  have hbefore : before.findSome? g = none := List.findSome?_eq_none_iff.2 fun j hj =>
    hlow j (List.mem_append_left _ hj) ((List.pairwise_append.1 hxs).2.2 j hj k List.mem_cons_self)
  rw [List.findSome?_append, hbefore, Option.none_or, List.findSome?_cons, ha]

theorem checkDen_of_not_denUnit {s : State} (hP : 0 < s.P) {n k : Nat} (hu : ¬DenUnit s n k) :
    checkDen s n k = some (.denNonunit k) :=
  if_neg (mt (denUnit_iff hP n k).2 hu)

theorem checkDens_lowest {s : State} (hP : 0 < s.P) {n k : Nat} (hk : k ∈ keptSlots s n) (hu : ¬DenUnit s n k)
    (hlow : ∀ j ∈ keptSlots s n, j < k → DenUnit s n j) : checkDens s n = some (.denNonunit k) :=
  findSome?_ascending_lowest (effective_sorted s n) (mem_keptSlots.1 hk) (checkDen_of_not_denUnit hP hu)
    fun j hj hjk => (checkDen_eq_none hP n j).2 (hlow j (mem_keptSlots.2 hj) hjk)

/-! ### COMBINE, one lemma per check (R100) -/

section
variable {s : State} {rd : FReg} {n k : Nat} (hP : 2 ≤ s.P)
include hP

theorem exec_combine_nAboveNshare (hS : s.params.NSHARE < n) :
    exec (.combine rd n) s = .next (s.afterError 1 0x03 5) :=
  exec_of_firstError (e := .countRange .nAboveNshare) (by
    rw [checksOf, checkModulus_eq_none.2 hP, checkCount_fail hS, firstError_none, firstError_some])

variable (hS : n ≤ s.params.NSHARE)
include hS

theorem exec_combine_share_range (hk : k < n) (hlow : SharesReduced s k) (hv : s.P ≤ readSVAL s k) :
    exec (.combine rd n) s = .next (s.afterError 1 0x05 k) :=
  exec_of_firstError (e := .shareRange k) (by
    rw [checksOf, checkModulus_eq_none.2 hP, checkCount_pass (Nat.not_lt.2 hS), checkShares_lowest hk hv hlow]
    simp only [firstError_none, firstError_some])

theorem exec_combine_denNonunit (hv : SharesReduced s n) (hd : checkDens s n = some (.denNonunit k)) :
    exec (.combine rd n) s = .next (s.afterError 2 0x11 k) :=
  exec_of_firstError (e := .denNonunit k) (by
    rw [checksOf, checkModulus_eq_none.2 hP, checkCount_pass (Nat.not_lt.2 hS), checkShares_eq_none.2 hv, hd]
    simp only [firstError_none, firstError_some])

end

/-! ### LBASIS, one lemma per check (R101) -/

section
variable {s : State} {rd : FReg} {n k : Nat} (hP : 2 ≤ s.P)
include hP

theorem exec_lbasis_nBelowOne (hn : n < 1) : exec (.lbasis rd k n) s = .next (s.afterError 1 0x03 2) :=
  exec_of_firstError (e := .countRange .nBelowOne) (by
    rw [checksOf, checkModulus_eq_none.2 hP, checkCount_fail hn, firstError_none, firstError_some])

theorem exec_lbasis_nAboveNshare (hn : 1 ≤ n) (hS : s.params.NSHARE < n) :
    exec (.lbasis rd k n) s = .next (s.afterError 1 0x03 5) :=
  exec_of_firstError (e := .countRange .nAboveNshare) (by
    rw [checksOf, checkModulus_eq_none.2 hP, checkCount_pass (Nat.not_lt.2 hn), checkCount_fail hS]
    simp only [firstError_none, firstError_some])

variable (hS : n ≤ s.params.NSHARE)
include hS

theorem exec_lbasis_kNotBelowN (hn : 1 ≤ n) (hk : n ≤ k) :
    exec (.lbasis rd k n) s = .next (s.afterError 1 0x03 6) :=
  exec_of_firstError (e := .countRange .kNotBelowN) (by
    rw [checksOf, checkModulus_eq_none.2 hP, checkCount_pass (Nat.not_lt.2 hn), checkCount_pass (Nat.not_lt.2 hS),
      checkCount_fail hk]
    simp only [firstError_none, firstError_some])

variable (hk : k < n)
include hk

theorem exec_lbasis_share_range {j : Nat} (hj : j < n) (hlow : SharesReduced s j) (hv : s.P ≤ readSVAL s j) :
    exec (.lbasis rd k n) s = .next (s.afterError 1 0x05 j) :=
  exec_of_firstError (e := .shareRange j) (by
    rw [checksOf, checkModulus_eq_none.2 hP, checkCount_pass (by omega), checkCount_pass (Nat.not_lt.2 hS),
      checkCount_pass (Nat.not_le.2 hk), checkShares_lowest hj hv hlow]
    simp only [firstError_none, firstError_some])

theorem exec_lbasis_denNonunit (hv : SharesReduced s n) (hkept : k ∈ keptSlots s n) (hu : ¬DenUnit s n k) :
    exec (.lbasis rd k n) s = .next (s.afterError 2 0x11 k) :=
  exec_of_firstError (e := .denNonunit k) (by
    rw [checksOf, checkModulus_eq_none.2 hP, checkCount_pass (by omega), checkCount_pass (Nat.not_lt.2 hS),
      checkCount_pass (Nat.not_le.2 hk), checkShares_eq_none.2 hv, (isDuplicate_eq_false_iff hk).2 hkept,
      if_neg Bool.false_ne_true, checkDen_of_not_denUnit (by omega) hu]
    simp only [firstError_none, firstError_some])

end

theorem lt_of_mem_keptSlots {s : State} {n k : Nat} (h : k ∈ keptSlots s n) : k < n :=
  (mem_effective.1 (mem_keptSlots.1 h)).1

/-! ### MEXP (R86) -/

theorem exec_mexp_value {s : State} {rd ra rb : FReg} (h : TwoSourcesReduced s ra rb) :
    exec (.mexp rd ra rb) s = .next (s.afterWriteF rd (readF s ra ^ readF s rb % s.P)) :=
  exec_of_writesOf (checksTwoSources_pass h) (by rw [writesOf, modPow_eq])

/-- Fermat: for a prime modulus the inverse of R14 is the power with exponent p - 2. -/
theorem pow_sub_two_mod_eq_modInv {a p : Nat} (hp : p.Prime) (hcop : Nat.Coprime a p) :
    a ^ (p - 2) % p = modInv a p := by
  have hmul : a * (a ^ (p - 2) % p) ≡ 1 [MOD p] := by
    calc a * (a ^ (p - 2) % p) ≡ a * a ^ (p - 2) [MOD p] := (Nat.mod_modEq _ _).mul_left a
      _ = a ^ Nat.totient p := by
        rw [← pow_succ', Nat.totient_prime hp, show p - 2 + 1 = p - 1 by have := hp.two_le; omega]
      _ ≡ 1 [MOD p] := Nat.ModEq.pow_totient hcop
  exact modInv_unique hp.two_le (Nat.mod_lt _ hp.pos) (Eq.trans hmul (Nat.mod_eq_of_lt hp.one_lt))

end Sys2Proof.Machine
end

section
/-! SUPPORT. What COMBINE computes depends on the set of points (index, value) of the slots only, 42_interpolation.md R98
to R100: E(n) holds each point once, and the numbers of R99 are products over the other points. -/

namespace Sys2Proof.Machine

/-- The point of a share slot: its raw index and its value (R98). -/
def sharePoint (s : State) (k : Nat) : Word × Nat := (readSIDX s k, readSVAL s k)

/-- The points of the first n slots. -/
def sharePoints (s : State) (n : Nat) : Finset (Word × Nat) := (Finset.range n).image (sharePoint s)

/-- num of R99, of a point of a set of points. -/
def pointNum (P : Nat) (S : Finset (Word × Nat)) (p : Word × Nat) : Nat :=
  (∏ q ∈ S.erase p, modInt (0 - ((q.1.toNat + 1) % P : Nat)) P) % P

/-- den of R99, of a point of a set of points. -/
def pointDen (P : Nat) (S : Finset (Word × Nat)) (p : Word × Nat) : Nat :=
  (∏ q ∈ S.erase p, modInt ((p.1.toNat : Int) - (q.1.toNat : Int)) P) % P

/-- lambda of R99, of a point of a set of points. -/
def pointLambda (P : Nat) (S : Finset (Word × Nat)) (p : Word × Nat) : Nat :=
  pointNum P S p * modInv (pointDen P S p) P % P

section
variable {s : State} {n k : Nat}

theorem mem_keptSlots_iff : k ∈ keptSlots s n ↔ k < n ∧ Kept s k := by simp [keptSlots]

/-- No point stands twice in E(n). -/
theorem sharePoint_injOn : Set.InjOn (sharePoint s) (keptSlots s n) := by
  have later {i j : Nat} (hj : j ∈ keptSlots s n) (e : sharePoint s i = sharePoint s j) : ¬i < j := fun hij =>
    (mem_keptSlots_iff.1 hj).2 i hij (Prod.ext_iff.1 e)
  intro i hi j hj e
  exact Nat.le_antisymm (Nat.not_lt.1 (later hi e.symm)) (Nat.not_lt.1 (later hj e))

/-- Every point stands in E(n). -/
theorem image_keptSlots : (keptSlots s n).image (sharePoint s) = sharePoints s n := by
  refine Finset.Subset.antisymm (Finset.image_subset_image (Finset.filter_subset _ _)) fun p hp => ?_
  obtain ⟨k, hk, rfl⟩ := Finset.mem_image.1 hp
  obtain ⟨m, hm, -, hidx, hval⟩ := exists_kept (s := s) (Finset.mem_range.1 hk)
  exact Finset.mem_image.2 ⟨m, hm, Prod.ext hidx hval⟩

/-- A product over the other slots of E(n) is one over the other points. -/
theorem prod_erase_keptSlots (f : Word × Nat → Nat) (hk : k ∈ keptSlots s n) :
    ∏ j ∈ (keptSlots s n).erase k, f (sharePoint s j) = ∏ q ∈ (sharePoints s n).erase (sharePoint s k), f q := by
  have himage : ((keptSlots s n).erase k).image (sharePoint s) = (sharePoints s n).erase (sharePoint s k) := by
    rw [← image_keptSlots, ← Finset.sdiff_singleton_eq_erase, ← Finset.sdiff_singleton_eq_erase,
      Finset.image_sdiff_of_injOn sharePoint_injOn (Finset.singleton_subset_iff.2 hk), Finset.image_singleton]
  rw [← himage, Finset.prod_image (sharePoint_injOn.mono (Finset.coe_subset.2 (Finset.erase_subset _ _)))]

theorem sum_keptSlots (f : Word × Nat → Nat) :
    ∑ k ∈ keptSlots s n, f (sharePoint s k) = ∑ p ∈ sharePoints s n, f p := by
  rw [← image_keptSlots, Finset.sum_image sharePoint_injOn]

theorem lagrangeNum_eq_pointNum (hk : k ∈ keptSlots s n) :
    lagrangeNum s n k = pointNum s.P (sharePoints s n) (sharePoint s k) := by
  rw [lagrangeNum, prodOver_others, pointNum, ← prod_erase_keptSlots _ hk]
  rfl

theorem lagrangeDen_eq_pointDen (hk : k ∈ keptSlots s n) :
    lagrangeDen s n k = pointDen s.P (sharePoints s n) (sharePoint s k) := by
  rw [lagrangeDen, prodOver_others, pointDen, ← prod_erase_keptSlots _ hk]
  rfl

theorem lagrange_eq_pointLambda (hk : k ∈ keptSlots s n) :
    lagrange s n k = pointLambda s.P (sharePoints s n) (sharePoint s k) := by
  rw [lagrange, lagrangeNum_eq_pointNum hk, lagrangeDen_eq_pointDen hk, pointLambda]

/-- COMBINE sums over the points. -/
theorem combineSum_eq_sum_points (s : State) (n : Nat) :
    combineSum s n = (∑ p ∈ sharePoints s n, p.2 * pointLambda s.P (sharePoints s n) p) % s.P := by
  rw [combineSum_eq_sum, ← sum_keptSlots fun p => p.2 * pointLambda s.P (sharePoints s n) p]
  exact congrArg (· % s.P) (Finset.sum_congr rfl fun k hk => by rw [lagrange_eq_pointLambda hk, sharePoint])

theorem sharesReduced_iff_points : SharesReduced s n ↔ ∀ p ∈ sharePoints s n, p.2 < s.P := by
  simp [SharesReduced, sharePoints, sharePoint]

/-- The unit tests of COMBINE are tests of the points. -/
theorem denUnits_iff_points (hP : 0 < s.P) :
    (∀ k ∈ keptSlots s n, DenUnit s n k) ↔
      ∀ p ∈ sharePoints s n, isUnit (pointDen s.P (sharePoints s n) p) s.P = true := by
  rw [← image_keptSlots, Finset.forall_mem_image, image_keptSlots]
  exact forall₂_congr fun k hk => by rw [denUnit_iff hP, lagrangeDen_eq_pointDen hk]

/-- COMBINE of the same points over the same modulus has the same outcome. -/
theorem exec_combine_of_samePoints {u : State} {rd : FReg} (hparams : u.params = s.params) (hP : u.P = s.P)
    (hpoints : sharePoints u n = sharePoints s n)
    (hpass : 2 ≤ s.P ∧ n ≤ s.params.NSHARE ∧ SharesReduced s n ∧ ∀ k ∈ keptSlots s n, DenUnit s n k) :
    exec (.combine rd n) u = .next (u.afterWriteF rd (combineSum s n)) := by
  obtain ⟨h2, hn, hv, hu⟩ := hpass
  have hv' : SharesReduced u n := by
    rw [sharesReduced_iff_points, hpoints, hP]
    exact sharesReduced_iff_points.1 hv
  have hu' : ∀ k ∈ keptSlots u n, DenUnit u n k := by
    rw [denUnits_iff_points (by omega), hpoints, hP]
    exact (denUnits_iff_points (by omega)).1 hu
  have hsum : combineSum u n = combineSum s n := by
    rw [combineSum_eq_sum_points, hpoints, hP, ← combineSum_eq_sum_points]
  rw [exec_combine_value (hP ▸ h2) (hparams ▸ hn) hv' hu', hsum]

/-- A permutation of the first n slots keeps the set of their points. -/
theorem sharePoints_of_perm {u : State} {σ : Equiv.Perm Nat} (hσ : ∀ k, n ≤ k → σ k = k)
    (hslots : ∀ k, k < n → readSIDX u k = readSIDX s (σ k) ∧ readSVAL u k = readSVAL s (σ k)) :
    sharePoints u n = sharePoints s n := by
  have hrange : (Finset.range n).image σ = Finset.range n := by
    have hmoved : {a | σ a ≠ a} ⊆ (Finset.range n : Set Nat) := fun a ha =>
      Finset.mem_coe.2 (Finset.mem_range.2 (Nat.not_le.1 fun hle => ha (hσ a hle)))
    exact (Finset.map_eq_image σ.toEmbedding _).symm.trans (Finset.map_perm hmoved)
  have hpoint : Set.EqOn (sharePoint u) (sharePoint s ∘ σ) (Finset.range n) := fun k hk =>
    Prod.ext_iff.2 (hslots k (Finset.mem_range.1 hk))
  rw [sharePoints, Finset.image_congr hpoint, ← Finset.image_image, hrange, sharePoints]

/-- Two kept slots with the same index: each makes the other's den(k) zero, which is no unit. -/
theorem not_denUnit_of_same_index {j : Nat} (hP : 2 ≤ s.P) (hj : j ∈ keptSlots s n) (hjk : j ≠ k)
    (hidx : readSIDX s j = readSIDX s k) : ¬DenUnit s n k := by
  have hden : denValue s n k = 0 := by
    rw [denValue, Finset.prod_eq_zero (Finset.mem_erase.2 ⟨hjk, hj⟩) (by rw [hidx, sub_self, Int.zero_emod]),
      Int.zero_emod]
  rw [DenUnit, hden, Int.gcd_zero_left, Int.natAbs_natCast]
  omega

/-- Two slots with the same index and different values leave a kept slot whose den(k) is no unit. -/
theorem checkDens_of_conflict {j : Nat} (hP : 2 ≤ s.P) (hj : j < n) (hk : k < n)
    (hidx : readSIDX s j = readSIDX s k) (hval : readSVAL s j ≠ readSVAL s k) :
    ∃ m, m < n ∧ checkDens s n = some (.denNonunit m) := by
  obtain ⟨a, ha, -, haidx, haval⟩ := exists_kept (s := s) hj
  obtain ⟨b, hb, -, hbidx, hbval⟩ := exists_kept (s := s) hk
  have hab : a ≠ b := by
    rintro rfl
    exact hval (haval.symm.trans hbval)
  have hfail : checkDens s n ≠ none := fun h =>
    not_denUnit_of_same_index hP ha hab (haidx.trans (hidx.trans hbidx.symm))
      ((checkDens_eq_none (by omega) n).1 h b hb)
  obtain ⟨e, he⟩ := Option.ne_none_iff_exists'.1 hfail
  obtain ⟨m, hm, rfl⟩ := checkDens_eq_some he
  exact ⟨m, hm, he⟩

end

end Sys2Proof.Machine
end

section
/-! MEXP, 40_field_arith.md R86; the checks of SPLIT, 41_poly_eval.md R93; the interpolator, 42_interpolation.md R97 to
R101. -/

namespace Sys2Proof.Machine

/-- Settles O15: square and multiply computes the power, and the checks are those of two sources. -/
theorem mexpIsThePowerModP : Obligations.MexpIsThePowerModP := fun rd ra rb =>
  ⟨decode_encodeR (by decide) rd ra rb (fun _ => rfl) (Laws.EncodedByRow.mexp rd ra rb rfl),
    checksTwoSources_of_checksOf fun _ => rfl, fun _ => exec_mexp_value⟩

/-- Settles O60: both commands pass their checks, and Fermat's power is the one inverse below P. -/
theorem fermatPowerIsTheInverse : Obligations.FermatPowerIsTheInverse := by
  intro rd ra rb s hprime hne ha hb
  have hP := hprime.two_le
  have hcop : Nat.Coprime (readF s ra) s.P :=
    (Nat.coprime_of_lt_prime hne ha hprime).symm
  refine ⟨modInv (readF s ra) s.P, ?_, exec_minv_unit hP ha hcop⟩
  rw [exec_mexp_value ⟨hP, ha, by omega⟩, hb, pow_sub_two_mod_eq_modInv hprime hcop]

/-- Settles O19: each premise leaves one check as the first that fails. -/
theorem splitChecksInOrder : Obligations.SplitChecksInOrder := fun _ _ _ =>
  ⟨exec_modulusTooSmall rfl, exec_split_tBelowOne, exec_split_nBelowOne, exec_split_tAboveN, exec_split_tAboveNcoef,
    exec_split_nAboveNshare, exec_split_nNotBelowP,
    fun _ hP htn hC hS hnP hj => exec_split_coef_range hP (by omega) htn hC hS hnP hj⟩

/-- Settles O22: each premise leaves one check as the first that fails, and E(n) is searched in ascending order. -/
theorem combineChecksInOrder : Obligations.CombineChecksInOrder := fun _ _ _ =>
  ⟨exec_modulusTooSmall rfl, exec_combine_nAboveNshare, fun _ => exec_combine_share_range,
    fun _ hP hS hv hk hu hlow => exec_combine_denNonunit hP hS hv (checkDens_lowest (by omega) hk hu hlow)⟩

/-- Settles O23: the accumulation is the reduced sum over E(n), and each term holds the lambda(k) of R99. -/
theorem combineInterpolatesAtZero : Obligations.CombineInterpolatesAtZero := by
  intro rd n hn
  refine ⟨decode_combineWord hn rd, fun s hP hS hv hu => ?value⟩
  case value =>
    refine ⟨lagrange s n, fun k hk => lagrange_isLambda hP (hu k hk), ?_⟩
    rw [← combineSum_eq_sum]
    exact exec_combine_value hP hS hv hu

/-- Settles O24: each premise leaves one check as the first that fails, or none. -/
theorem lbasisChecksInOrder : Obligations.LbasisChecksInOrder := fun _ _ _ _ =>
  ⟨exec_modulusTooSmall rfl, exec_lbasis_nBelowOne, exec_lbasis_nAboveNshare,
    fun hP hn hS => exec_lbasis_kNotBelowN hP hS hn, fun _ hP hS hk hj => exec_lbasis_share_range hP hS hk hj,
    fun hP hS hv hk => exec_lbasis_denNonunit hP hS (lt_of_mem_keptSlots hk) hv hk,
    fun hP hS hk hv hu => ⟨_, exec_lbasis_value hP hS hk hv hu.neg_resolve_left⟩⟩

/-- Settles O25: LBASIS's value is 0 for a dropped slot and lambda(K) for a kept one. -/
theorem lbasisGivesOneBasisValue : Obligations.LbasisGivesOneBasisValue := by
  intro rd k n hk hn
  refine ⟨decode_lbasisWord hk hn rd, fun s hP hS hkn hv => ⟨?dropped, ?kept⟩⟩
  case dropped =>
    intro hdrop
    rw [exec_lbasis_value hP hS hkn hv fun h => absurd h hdrop, lbasisValue_eq hkn, if_neg hdrop]
  case kept =>
    intro hkept hu
    refine ⟨lagrange s n k, lagrange_isLambda hP hu, ?_⟩
    rw [exec_lbasis_value hP hS hkn hv fun _ => hu, lbasisValue_eq hkn, if_pos hkept]

/-- Settles O56: the unit check of COMBINE fails at a kept slot with a conflicting index. -/
theorem conflictingSharesAreNotInvertible : Obligations.ConflictingSharesAreNotInvertible := by
  intro rd n j k s hP hS hv hj hk hidx hval
  obtain ⟨m, hm, hd⟩ := checkDens_of_conflict hP hj hk hidx hval
  exact ⟨m, hm, exec_combine_denNonunit hP hS hv hd⟩

/-- Settles O58: a permutation of the slots keeps the set of points, on which the outcome depends. -/
theorem combineIgnoresTheOrderOfSlots : Obligations.CombineIgnoresTheOrderOfSlots := by
  intro rd n s u t σ hσ hparams hP hslots _ hexec ht
  obtain ⟨hpass, hsum⟩ := combine_inversion hexec ht
  rw [hsum]
  exact exec_combine_of_samePoints hparams hP (sharePoints_of_perm hσ hslots) hpass

end Sys2Proof.Machine
end

section
/-! SUPPORT. What holds of every command's outcome, 20_memory.md section 4 and 60_exceptions.md: what no command touches
(R52), the one write of a command with a destination register and its range (R12, R89), the data Execute reads (R50), and
the rows of the tables of R106 and R107 that a command's checks can raise. -/

namespace Sys2Proof.Machine

/-! ### Frames (R52) -/

theorem exec_sameControl {i : Instr} {s t : State} (h : exec i s = .next t) : SameControl s t := by
  rcases exec_inversion h with ⟨e, -, rfl⟩ | ⟨-, rfl⟩
  · exact ⟨rfl, rfl, rfl, rfl, rfl, rfl, rfl, rfl, rfl⟩
  · rw [writesOf_eq]
    exact ⟨rfl, rfl, rfl, rfl, rfl, rfl, rfl, rfl, rfl⟩

theorem exec_busy {i : Instr} {s t : State} (h : exec i s = .next t) : t.status.busy = false := by
  rcases exec_inversion h with ⟨e, -, rfl⟩ | ⟨-, rfl⟩ <;> rfl

/-- A commit sets DONE or ERR (R52). -/
theorem exec_done_or_err {i : Instr} {s t : State} (h : exec i s = .next t) :
    t.status.done = true ∨ t.status.err = true := by
  rcases exec_inversion h with ⟨e, -, rfl⟩ | ⟨-, rfl⟩
  · exact .inr rfl
  · exact .inl rfl

/-- An error is committed to the data registers as they were (R52, R111). -/
theorem commitError_sameData (s : State) (e : CmdError) : SameData s (commitError s e) := ⟨rfl, rfl, rfl, rfl, rfl⟩

theorem exec_nop (s : State) : exec .nop s = .next (commitOk s) := by
  rw [exec_eq_complete, complete_of_pass (by simp [checksOf]), writesOf]

/-- A command with a destination register writes that register only, and unless it is MMOV a residue modulo P. -/
theorem writesOf_of_dest {i : Instr} {rd : FReg} (h : i.dest = some rd) (s : State) :
    ∃ v, writesOf i s = writeF s rd v ∧ (0 < s.P → (∀ ra, i ≠ .mmov rd ra) → v < s.P) := by
  cases i <;> cases h
  case madd ra rb => exact ⟨_, rfl, fun hP _ => Nat.mod_lt _ hP⟩
  case msub ra rb => exact ⟨_, rfl, fun hP _ => modInt_lt _ hP⟩
  case mmul ra rb => exact ⟨_, rfl, fun hP _ => Nat.mod_lt _ hP⟩
  case mneg ra => exact ⟨_, rfl, fun hP _ => modInt_lt _ hP⟩
  case minv ra => exact ⟨_, rfl, fun hP _ => modInv_lt _ hP⟩
  case mexp ra rb => exact ⟨_, rfl, fun hP _ => modPow_eq _ _ _ ▸ Nat.mod_lt _ hP⟩
  case mmov ra => exact ⟨_, rfl, fun _ hne => absurd rfl (hne ra)⟩
  case mldi imm => exact ⟨_, rfl, fun hP _ => Nat.mod_lt _ hP⟩
  case peval ra t => exact ⟨_, rfl, fun hP _ => polyval_lt hP _ _⟩
  case combine n => exact ⟨_, rfl, fun hP _ => combineSum_lt hP n⟩
  case lbasis k n =>
    refine ⟨_, rfl, fun hP _ => ?_⟩
    unfold lbasisValue
    split
    · exact hP
    · exact lagrange_lt hP n k

@[simp] theorem zeroizeCoefs_P (s : State) (t : Nat) : (zeroizeCoefs s t).P = s.P := by rw [zeroizeCoefs_eq]

@[simp] theorem zeroizeCoefs_F (s : State) (t : Nat) : (zeroizeCoefs s t).F = s.F := by rw [zeroizeCoefs_eq]

/-- Every command but NOP and MMOV checks the modulus (R79). -/
theorem checkModulus_mem_checksOf {i : Instr} (h : i.ChecksArguments) (s : State) :
    checkModulus s ∈ checksOf i s := by
  cases i with
  | nop => exact h.elim
  | mmov rd ra => exact h.elim
  | _ => exact List.mem_cons_self

theorem checksArguments_of_dest {i : Instr} {rd : FReg} (h : i.dest = some rd) (hne : ∀ ra, i ≠ .mmov rd ra) :
    i.ChecksArguments := by
  cases i with
  | nop => cases h
  | mmov rd' ra => cases h; exact absurd rfl (hne ra)
  | _ => trivial

theorem modulus_of_pass {i : Instr} {s : State} (hi : i.ChecksArguments) (hpass : ∀ c ∈ checksOf i s, c = none) :
    2 ≤ s.P :=
  checkModulus_eq_none.1 (hpass _ (checkModulus_mem_checksOf hi s))

/-- A share that SPLIT wrote is a residue, and a slot beyond the array reads 0. -/
theorem readSVAL_writeShares_lt {s : State} (hP : 0 < s.P) {n k : Nat} (t : Nat) (hk : k < n) :
    readSVAL (writeShares s n t) k < s.P := by
  rcases Nat.lt_or_ge k s.SVAL.length with hlen | hlen
  · rw [readSVAL_writeShares_of_lt s n t hk hlen]
    exact Nat.mod_lt _ hP
  · have hread : readSVAL (writeShares s n t) k = 0 := List.getD_eq_default _ _ (by rwa [writeShares_SVAL, fill_length])
    rwa [hread]

/-! ### Execute reads the data registers, ZLATCH and the parameters only (R50) -/

/-- `u` with the data registers, ZLATCH and the parameters of `s`. -/
def State.withDataOf (u s : State) : State :=
  { u with params := s.params, P := s.P, F := s.F, C := s.C, SIDX := s.SIDX, SVAL := s.SVAL, zlatch := s.zlatch }

theorem eq_withDataOf {s u : State} (hp : s.params = u.params) (hd : SameData s u) (hz : s.zlatch = u.zlatch) :
    u = u.withDataOf s := by
  obtain ⟨hP, hF, hC, hI, hV⟩ := hd
  rw [State.withDataOf, hp, hz, ← hP, ← hF, ← hC, ← hI, ← hV]

theorem checksOf_withDataOf (i : Instr) (u s : State) : checksOf i (u.withDataOf s) = checksOf i s := by
  cases i <;> rfl

theorem writesOf_withDataOf (i : Instr) (u s : State) : SameData (writesOf i s) (writesOf i (u.withDataOf s)) := by
  cases i with
  | split n t =>
    simp only [SameData, writesOf, zeroizeCoefs_P, zeroizeCoefs_F, zeroizeCoefs_C, zeroizeCoefs_SIDX,
      zeroizeCoefs_SVAL]
    exact ⟨rfl, rfl, rfl, rfl, rfl⟩
  | _ => exact ⟨rfl, rfl, rfl, rfl, rfl⟩

/-- Whatever else differs, a command writes the same data registers and the same completion flags. -/
theorem exec_withDataOf {i : Instr} {s u t v : State} (herr : s.status.err = u.status.err)
    (hdone : s.status.done = u.status.done) (hcode : s.status.errcode = u.status.errcode)
    (hinfo : s.errinfo = u.errinfo) (ht : exec i s = .next t) (hv : exec i (u.withDataOf s) = .next v) :
    SameData t v ∧ t.status.err = v.status.err ∧ t.status.done = v.status.done ∧
      t.status.errcode = v.status.errcode ∧ t.errinfo = v.errinfo := by
  rw [exec_eq_complete, complete] at ht hv
  rw [checksOf_withDataOf] at hv
  cases he : firstError (checksOf i s) with
  | some e =>
    rw [he] at ht hv
    cases ht
    cases hv
    exact ⟨⟨rfl, rfl, rfl, rfl, rfl⟩, rfl, hdone, rfl, rfl⟩
  | none =>
    rw [he] at ht hv
    cases ht
    cases hv
    have hdata := writesOf_withDataOf i u s
    rw [writesOf_eq i s, writesOf_eq i (u.withDataOf s)] at hdata ⊢
    exact ⟨hdata, herr, rfl, hcode, hinfo⟩

/-! ### The tables of R106 and R107 -/

/-- A row of R106 or R107 describes the error and names the commands of opcode row `r` under 'raised by'. -/
abbrev Raises (r : OpRow) (e : CmdError) : Prop :=
  ∃ x ∈ errorRows, errCode e = x.code ∧ errReason e = x.reason ∧ (x.which = none ∨ x.which = some (errWhich e)) ∧
    r ∈ x.raisedBy

/-- The error a check raises, if it raises one, is documented for the commands of opcode row `r`. -/
def Documented (r : OpRow) (c : Option CmdError) : Prop := ∀ e, c = some e → Raises r e

section
variable {r : OpRow} {s : State}

theorem documented_checkModulus (h : Raises r .modulusTooSmall) : Documented r (checkModulus s) :=
  fun _ he => checkModulus_eq_some he ▸ h

theorem documented_checkReduced {f : FReg} (h : r ∈ errorRows[1].raisedBy) : Documented r (checkReduced s f) :=
  fun _ he => checkReduced_eq_some he ▸ ⟨errorRows[1], List.getElem_mem _, rfl, rfl, .inl rfl, h⟩

theorem documented_checkCount {b : Bool} {c : CountRange} (h : Raises r (.countRange c)) :
    Documented r (checkCount b c) :=
  fun _ he => checkCount_eq_some he ▸ h

theorem documented_checkCoefs {t : Nat} (h : r ∈ errorRows[9].raisedBy) : Documented r (checkCoefs s t) := by
  intro e he
  obtain ⟨j, -, rfl⟩ := checkCoefs_eq_some he
  exact ⟨errorRows[9], List.getElem_mem _, rfl, rfl, .inl rfl, h⟩

theorem documented_checkShares {n : Nat} (h : r ∈ errorRows[10].raisedBy) : Documented r (checkShares s n) := by
  intro e he
  obtain ⟨k, -, rfl⟩ := checkShares_eq_some he
  exact ⟨errorRows[10], List.getElem_mem _, rfl, rfl, .inl rfl, h⟩

theorem documented_checkUnit {f : FReg} (h : r ∈ errorRows[11].raisedBy) : Documented r (checkUnit s f) :=
  fun _ he => checkUnit_eq_some he ▸ ⟨errorRows[11], List.getElem_mem _, rfl, rfl, .inl rfl, h⟩

theorem raises_denNonunit {k : Nat} (h : r ∈ errorRows[12].raisedBy) : Raises r (.denNonunit k) :=
  ⟨errorRows[12], List.getElem_mem _, rfl, rfl, .inl rfl, h⟩

theorem documented_checkDens {n : Nat} (h : r ∈ errorRows[12].raisedBy) : Documented r (checkDens s n) := by
  intro e he
  obtain ⟨k, -, rfl⟩ := checkDens_eq_some he
  exact raises_denNonunit h

/-- The last check of LBASIS. -/
theorem documented_lbasisDen {n k : Nat} (h : r ∈ errorRows[12].raisedBy) :
    Documented r (if isDuplicate s k then none else checkDen s n k) := by
  split
  · exact nofun
  · exact fun _ he => checkDen_eq_some he ▸ raises_denNonunit h

end

/-- Every check of a command raises an error whose row names the command. -/
theorem documented_checksOf (i : Instr) (s : State) : ∀ c ∈ checksOf i s, Documented i.row c := by
  cases i <;>
    simp only [checksOf, checksTwoSources, Instr.row, List.forall_mem_cons, List.not_mem_nil, false_imp_iff,
      implies_true, and_true]
  case madd | msub | mmul | mexp =>
    exact ⟨documented_checkModulus (by decide), documented_checkReduced (by decide),
      documented_checkReduced (by decide)⟩
  case mneg => exact ⟨documented_checkModulus (by decide), documented_checkReduced (by decide)⟩
  case minv =>
    exact ⟨documented_checkModulus (by decide), documented_checkReduced (by decide), documented_checkUnit (by decide)⟩
  case mldi => exact documented_checkModulus (by decide)
  case peval =>
    exact ⟨documented_checkModulus (by decide), documented_checkCount (by decide), documented_checkCount (by decide),
      documented_checkReduced (by decide), documented_checkCoefs (by decide)⟩
  case split =>
    exact ⟨documented_checkModulus (by decide), documented_checkCount (by decide), documented_checkCount (by decide),
      documented_checkCount (by decide), documented_checkCount (by decide), documented_checkCount (by decide),
      documented_checkCount (by decide), documented_checkCoefs (by decide)⟩
  case combine =>
    exact ⟨documented_checkModulus (by decide), documented_checkCount (by decide), documented_checkShares (by decide),
      documented_checkDens (by decide)⟩
  case lbasis =>
    exact ⟨documented_checkModulus (by decide), documented_checkCount (by decide), documented_checkCount (by decide),
      documented_checkCount (by decide), documented_checkShares (by decide), documented_lbasisDen (by decide)⟩

/-- The two classes of the tables, by the commands the rows name (R105). -/
theorem errorRow_class {x : ErrorRow} (hx : x ∈ errorRows) {i : Instr} (hi : i.row ∈ x.raisedBy) :
    (x.code = 1 ∧ i.ChecksArguments) ∨ (x.code = 2 ∧ i.Inverts) := by
  revert x
  cases i <;> simp [errorRows, Instr.row, Instr.ChecksArguments, Instr.Inverts]

end Sys2Proof.Machine
end

section
/-! What every command keeps and how it ends, 20_memory.md R50 and R52, 40_field_arith.md R89, 60_exceptions.md R105 to
R111. -/

namespace Sys2Proof.Machine

/-- Settles O26: an error changes no data register, and otherwise the one write is to RD. -/
theorem oneDestinationFrame : Obligations.OneDestinationFrame := by
  intro i rd s t hdest h
  have hcontrol := exec_sameControl h
  rcases exec_inversion h with ⟨e, -, rfl⟩ | ⟨-, rfl⟩
  · exact ⟨fun _ _ => rfl, rfl, rfl, rfl, rfl, hcontrol⟩
  · obtain ⟨v, hw, -⟩ := writesOf_of_dest hdest s
    rw [hw] at hcontrol ⊢
    exact ⟨fun r hr => readF_writeF_other s hr v, rfl, rfl, rfl, rfl, hcontrol⟩

/-- Settles O27: a SPLIT that is not accepted commits its error to the state as it was, and an accepted one fills the
first N share slots and, at most, C[1..T-1]. -/
theorem nopAndSplitFrame : Obligations.NopAndSplitFrame := by
  constructor
  case left =>
    intro s t h
    obtain rfl : commitOk s = t := by simpa [exec_nop] using h
    exact ⟨⟨rfl, rfl, rfl, rfl, rfl⟩, exec_sameControl h⟩
  case right =>
    intro n t s u h
    have hcontrol := exec_sameControl h
    by_cases haccept : SplitAccepts s n t
    · obtain rfl : commitOk (zeroizeCoefs (writeShares s n t) t) = u := by
        simpa [exec_split_of_accepts haccept] using h
      refine ⟨zeroizeCoefs_P _ t, zeroizeCoefs_F _ t, hcontrol, fun j hj => ?_, fun k hk => ?_⟩
      · rw [readC_split, if_neg (by omega)]
      · rw [readSIDX_split, readSVAL_split]
        exact ⟨readSIDX_writeShares_of_ge s n t hk, readSVAL_writeShares_of_ge s n t hk⟩
    · obtain ⟨e, rfl⟩ := exec_split_of_not_accepts haccept h
      exact ⟨rfl, rfl, hcontrol, fun _ _ => rfl, fun _ _ => ⟨rfl, rfl⟩⟩

/-- Settles O28: only the commit of an error sets ERR. -/
theorem failingCommandWritesNoData : Obligations.FailingCommandWritesNoData := by
  intro i s t hs h ht
  rcases exec_inversion h with ⟨e, -, rfl⟩ | ⟨-, rfl⟩
  · exact commitError_sameData s e
  · simp [writesOf_status, hs] at ht

/-- Settles O29: while BUSY = 1 no earlier error is recorded, so the flags are those of this commit, and the error is one
that a check of the command raises. -/
theorem commandCompletesWithOneOutcome : Obligations.CommandCompletesWithOneOutcome := by
  intro i s hflags hbusy
  obtain ⟨hdone, herr⟩ := hflags.busy_clear hbusy
  obtain ⟨hcode, hinfo⟩ := hflags.busy_no_error hbusy
  obtain ⟨t, h⟩ := exec_next i s
  refine ⟨t, h, exec_busy h, ?_⟩
  rcases exec_inversion h with ⟨e, he, rfl⟩ | ⟨-, rfl⟩
  · obtain ⟨x, hx, hxcode, hreason, hwhich, hrow⟩ := documented_checksOf i s _ he e rfl
    have hclass : (errCode e = 1 ∧ i.ChecksArguments) ∨ (errCode e = 2 ∧ i.Inverts) :=
      hxcode ▸ errorRow_class hx hrow
    have hwhich' : ∀ w, x.which = some w → errWhich e = w := fun w hw => by simpa [hw, eq_comm] using hwhich
    exact .inr ⟨hdone, rfl, hclass, x, hx, hxcode, hreason, hwhich', hrow⟩
  · rw [writesOf_eq]
    exact .inl ⟨rfl, herr, hcode, hinfo⟩

/-- Settles O30: a command other than MMOV that passed its checks has P ≥ 2, and writes residues modulo P. -/
theorem committedResultsAreReduced : Obligations.CommittedResultsAreReduced := by
  intro i s t _ hs h ht
  rcases exec_inversion h with ⟨e, -, rfl⟩ | ⟨hpass, rfl⟩
  · simp [hs] at ht
  constructor
  · intro rd hdest hne
    have hP := modulus_of_pass (checksArguments_of_dest hdest hne) hpass
    obtain ⟨v, hw, hv⟩ := writesOf_of_dest hdest s
    rw [hw, readF_commitOk, readF_writeF_same]
    exact hv (by omega) hne
  · rintro n m rfl k hk
    have hP := modulus_of_pass (i := .split n m) trivial hpass
    rw [writesOf, readSVAL_split]
    exact readSVAL_writeShares_lt (by omega) m hk

/-- Settles O31: the second state is itself with the first one's data, which is all that checks and writes read. -/
theorem executeDependsOnDataOnly : Obligations.ExecuteDependsOnDataOnly := by
  intro i s₁ s₂ t₁ t₂ hparams hdata hz herr hdone hcode hinfo h₁ h₂
  rw [eq_withDataOf hparams hdata hz] at h₂
  exact exec_withDataOf herr hdone hcode hinfo h₁ h₂

end Sys2Proof.Machine
end

section
/-! SUPPORT. The invariant of Safety.lean under every move: which updates of STATUS and ERRINFO keep the flags in agreement
(10_state.md R21, R23, R25), and that commands, accesses and resets keep the rest (R16, R26 to R29; R127). -/

namespace Sys2Proof.Machine

/-! ### The flags -/

/-- The agreement does not depend on WERR. -/
theorem flagsAgree_of_sameFlags {b c : Block} (h : b.FlagsAgree) (hbusy : c.status.busy = b.status.busy)
    (hdone : c.status.done = b.status.done) (herr : c.status.err = b.status.err)
    (hcode : c.status.errcode = b.status.errcode) (hinfo : c.errinfo = b.errinfo) : c.FlagsAgree := by
  obtain ⟨h1, h2, h3, h4, h5, h6⟩ := h
  constructor <;> simp only [hbusy, hdone, herr, hcode, hinfo] <;> assumption

theorem flagsAgree_reset (p : Params) : (Block.reset p).FlagsAgree :=
  ⟨nofun, nofun, nofun, nofun, nofun, Nat.zero_le 3⟩

/-- An issue clears the flags and the record of the last error (R49). -/
theorem flagsAgree_issue (s : State) (v : Word) : (issue s v).toBlock.FlagsAgree :=
  ⟨nofun, fun _ => ⟨rfl, rfl⟩, fun _ => ⟨rfl, rfl⟩, nofun, nofun, Nat.zero_le 3⟩

/-- An acknowledgement only clears DONE and ERR, R21. -/
theorem flagsAgree_ackStatus {s : State} (h : s.toBlock.FlagsAgree) (w : Word) :
    (ackStatus s w).toBlock.FlagsAgree := by
  have hdone (ht : (ackStatus s w).status.done = true) : s.status.done = true := (Bool.and_eq_true_iff.1 ht).1
  have herr (ht : (ackStatus s w).status.err = true) : s.status.err = true := (Bool.and_eq_true_iff.1 ht).1
  refine ⟨fun ht => h.not_both ⟨hdone ht.1, herr ht.2⟩, fun hb => ?busy, h.busy_no_error,
    fun ht => h.done_no_error (hdone ht), fun ht => h.err_class (herr ht), h.errcode_le⟩
  case busy =>
    obtain ⟨hd, he⟩ := h.busy_clear hb
    exact ⟨Bool.eq_false_iff.2 fun ht => Bool.eq_false_iff.1 hd (hdone ht),
      Bool.eq_false_iff.2 fun ht => Bool.eq_false_iff.1 he (herr ht)⟩

/-- A commit with no error leaves the record of errors as the issue cleared it (R52). -/
theorem flagsAgree_commitOk {s : State} (h : s.toBlock.FlagsAgree) (hb : s.status.busy = true) :
    (commitOk s).toBlock.FlagsAgree := by
  obtain ⟨-, herr⟩ := h.busy_clear hb
  exact ⟨fun ht => Bool.eq_false_iff.1 herr ht.2, nofun, nofun, fun _ => h.busy_no_error hb,
    fun ht => absurd ht (Bool.eq_false_iff.1 herr), h.errcode_le⟩

/-- code(E) is 1, 2 or 3 (R105). -/
theorem errCode_range (e : CmdError) : errCode e ≠ 0 ∧ (errCode e).toNat ≤ 3 := by
  cases e <;> exact ⟨by simp [errCode], by simp [errCode]⟩

theorem flagsAgree_commitError {s : State} (h : s.toBlock.FlagsAgree) (hb : s.status.busy = true) (e : CmdError) :
    (commitError s e).toBlock.FlagsAgree := by
  obtain ⟨hdone, -⟩ := h.busy_clear hb
  obtain ⟨hne, hle⟩ := errCode_range e
  exact ⟨fun ht => Bool.eq_false_iff.1 hdone ht.1, nofun, nofun, fun ht => absurd ht (Bool.eq_false_iff.1 hdone),
    fun _ => hne, hle⟩

/-! ### The invariant -/

/-- The invariant is about the block and RST_N, not about the pending moves or what the host read. -/
theorem wf_of_sameBlock {s t : State} (h : s.WF) (hblock : t.toBlock = s.toBlock)
    (hrst : t.rstAsserted = s.rstAsserted) : t.WF := by
  obtain ⟨hlegal, hfits, hflags, hheld⟩ := h
  refine ⟨hblock ▸ hlegal, hblock ▸ hfits, hblock ▸ hflags, fun ht => ?_⟩
  rw [hblock]
  exact hheld (hrst ▸ ht)

/-- Where RST_N is released, what the block holds in reset plays no part. -/
theorem wf_of_released {s t : State} (h : s.WF) (hparams : t.params = s.params) (hfits : t.toBlock.Fits)
    (hflags : t.toBlock.FlagsAgree) (hrst : t.rstAsserted = false) : t.WF :=
  ⟨hparams ▸ h.legal, hfits, hflags, fun ht => absurd ht (Bool.eq_false_iff.1 hrst)⟩

theorem wf_of_reset {s t : State} (h : s.WF) (hblock : t.toBlock = Block.reset s.params) : t.WF := by
  refine ⟨?_, hblock ▸ fits_reset _, hblock ▸ flagsAgree_reset _, fun _ => ?_⟩
  · rw [hblock]
    exact h.legal
  · rw [hblock]
    rfl

theorem resetWith_wf {p : Params} (hp : p.Legal) : (State.resetWith p).WF :=
  ⟨hp, fits_reset p, flagsAgree_reset p, nofun⟩

/-- A command in flight and an asserted reset exclude each other (R127). -/
theorem released_of_busy {s : State} (h : s.Held) (hb : s.status.busy = true) : s.rstAsserted = false := by
  refine Bool.eq_false_iff.2 fun hr => ?_
  rw [h hr] at hb
  cases hb

theorem wf_commitError {s : State} (h : s.WF) (hb : s.status.busy = true) (e : CmdError) : (commitError s e).WF :=
  wf_of_released h rfl (fits_of_data h.fits rfl rfl rfl rfl rfl rfl) (flagsAgree_commitError h.flags hb e)
    (released_of_busy (s := s) h.held hb)

theorem writesOf_flags (i : Instr) {s : State} (h : s.toBlock.FlagsAgree) : (writesOf i s).toBlock.FlagsAgree := by
  rw [writesOf_eq]
  exact flagsAgree_of_sameFlags h rfl rfl rfl rfl rfl

theorem wf_exec {i : Instr} {s t : State} (h : s.WF) (hb : s.status.busy = true) (hexec : exec i s = .next t) :
    t.WF := by
  obtain ⟨hparams, -, -, -, -, hrst, -⟩ := exec_sameControl hexec
  rcases exec_inversion hexec with ⟨e, -, rfl⟩ | ⟨hpass, rfl⟩
  · exact wf_commitError h hb e
  · have hb' : (writesOf i s).status.busy = true := by rwa [writesOf_status]
    exact wf_of_released h hparams (fits_of_data (fits_writesOf i s h.fits hpass) rfl rfl rfl rfl rfl rfl)
      (flagsAgree_commitOk (writesOf_flags i h.flags) hb') (hrst.trans (released_of_busy h.held hb))

theorem wf_engineTurn {s t : State} (h : s.WF) (hturn : engineTurn s = .next t) : t.WF := by
  rcases engineTurn_inversion hturn with ⟨-, rfl⟩ | ⟨hb, i, -, hexec⟩ | ⟨hb, e, -, rfl⟩
  · exact h
  · exact wf_exec h hb hexec
  · exact wf_commitError h hb _

theorem wf_performAccess {s : State} (h : s.WF) (hrst : s.rstAsserted = false) (a : Access) :
    (performAccess s a).WF := by
  have same {t : State} (hp : t.params = s.params) (h1 : t.P = s.P) (h2 : t.F = s.F) (h3 : t.C = s.C)
      (h4 : t.SIDX = s.SIDX) (h5 : t.SVAL = s.SVAL) : t.toBlock.Fits := fits_of_data h.fits hp h1 h2 h3 h4 h5
  obtain ⟨ans, dr, e | e | ⟨w, -, -, -, -, e⟩ | ⟨c, e⟩ | ⟨w, e⟩ | ⟨-, v, e⟩ | ⟨-, r, i, w, hmap, e⟩⟩ :=
    performAccess_inversion s a <;> rw [e]
  · exact wf_of_sameBlock h rfl rfl
  · exact wf_of_released h rfl (same rfl rfl rfl rfl rfl rfl)
      (flagsAgree_of_sameFlags h.flags rfl rfl rfl rfl rfl) hrst
  · exact wf_of_reset h rfl
  · exact wf_of_released h rfl (same rfl rfl rfl rfl rfl rfl)
      (flagsAgree_of_sameFlags h.flags rfl rfl rfl rfl rfl) hrst
  · exact wf_of_released h rfl (same rfl rfl rfl rfl rfl rfl) (flagsAgree_ackStatus h.flags w) hrst
  · exact wf_of_released h rfl (same rfl rfl rfl rfl rfl rfl) (flagsAgree_issue s v) hrst
  · exact wf_of_released h (setDataWord_params s r i w) (fits_setDataWord h.fits w hmap)
      (flagsAgree_of_sameFlags h.flags (by simp) (by simp) (by simp) (by simp) (by simp))
      ((setDataWord_rstAsserted s r i w).trans hrst)

theorem wf_step {s t : State} (h : s.WF) (hstep : step s = .next t) : t.WF := by
  have hpop (rest : List Event) : ({ s with events := rest } : State).WF := wf_of_sameBlock h rfl rfl
  rcases step_inversion hstep with ⟨-, he⟩ | ⟨rest, -, he⟩ | ⟨a, rest, -, -, rfl⟩ | ⟨a, rest, -, -, hr, rfl⟩ |
    ⟨rest, -, rfl⟩ | ⟨rest, -, rfl⟩
  · exact wf_engineTurn h he
  · exact wf_engineTurn (hpop rest) he
  · exact wf_of_sameBlock h rfl rfl
  · exact wf_performAccess (hpop rest) hr a
  · exact wf_of_reset h rfl
  · exact wf_of_released h rfl h.fits h.flags rfl

/-! ### The parameters -/

theorem engineTurn_params {s t : State} (h : engineTurn s = .next t) : t.params = s.params := by
  rcases engineTurn_inversion h with ⟨-, rfl⟩ | ⟨-, i, -, hexec⟩ | ⟨-, e, -, rfl⟩
  · rfl
  · exact (exec_sameControl hexec).1
  · rfl

theorem performAccess_params (s : State) (a : Access) : (performAccess s a).params = s.params := by
  obtain ⟨ans, dr, e | e | ⟨w, -, -, -, -, e⟩ | ⟨c, e⟩ | ⟨w, e⟩ | ⟨-, v, e⟩ | ⟨-, r, i, w, -, e⟩⟩ :=
    performAccess_inversion s a <;> simp [e]

theorem step_params {s t : State} (h : step s = .next t) : t.params = s.params := by
  rcases step_inversion h with ⟨-, he⟩ | ⟨rest, -, he⟩ | ⟨a, rest, -, -, rfl⟩ | ⟨a, rest, -, -, -, rfl⟩ |
    ⟨rest, -, rfl⟩ | ⟨rest, -, rfl⟩
  · exact engineTurn_params he
  · exact engineTurn_params (s := { s with events := rest }) he
  · rfl
  · exact performAccess_params { s with events := rest } a
  · rfl
  · rfl

end Sys2Proof.Machine
end

section
/-! The invariant of the machine, 10_state.md sections 2 to 5 and 70_reset_and_hazards.md R127. -/

namespace Sys2Proof.Machine

/-- Settles O55: each move keeps the invariant, and each update of the block keeps its parameters. -/
theorem stepKeepsWellFormed : Obligations.StepKeepsWellFormed := ⟨fun _ _ => wf_step, fun _ _ => step_params⟩

/-- Settles O54: the reset values are 0 or clear flags, in arrays of the parameters' lengths. -/
theorem resetIsWellFormed : Obligations.ResetIsWellFormed := ⟨fun _ => resetWith_wf, resetWith_wf (by decide)⟩

end Sys2Proof.Machine
end

section
/-! SUPPORT. Accesses to the data region, 20_memory.md R39 and R46 to R48: what a read answers and a write leaves, while
BUSY = 0 and while BUSY = 1; and a value loaded word by word, in any order. -/

namespace Sys2Proof.Machine

/-! ### While BUSY = 1 (R47, R48) -/

theorem readAccess_data_busy {s : State} {off i : Nat} {r : DataReg} (h : windowMap s.params off = .data r i)
    (hb : s.status.busy = true) : readAccess s off = setWerr (answerFree s) := by
  rw [readAccess, h]
  exact if_pos hb

theorem writeAccess_data_busy {s : State} {off i : Nat} {r : DataReg} {w : Word}
    (h : windowMap s.params off = .data r i) (hb : s.status.busy = true) : writeAccess s off w = setWerr s := by
  rw [writeAccess, h]
  exact if_pos hb

/-! ### While BUSY = 0 (R46) -/

/-- The words of the data region are a function of the block. -/
theorem dataWord_of_sameBlock {s t : State} (h : t.toBlock = s.toBlock) (r : DataReg) (i : Nat) :
    dataWord t r i = dataWord s r i := by
  cases r <;> simp only [dataWord, readF, readC, readSIDX, readSVAL, h]

section
variable {s : State} {r : DataReg} {i : Nat} (hp : s.params.Legal) (h : r.HasWord s.params i)
  (hb : s.status.busy = false)
include hp h hb

/-- A pending read of a word of a data register, in one step. -/
theorem step_read_data_idle (hnext : s.AccessNext (wordAccess s.params (regOffset r + 4 * i) .read)) :
    step s = .next { s.pop with rdata := some (dataWord s r i) } := by
  obtain ⟨h4, hlt⟩ := regOffset_lt hp h
  have hmap : windowMap s.pop.params (regOffset r + 4 * i) = .data r i := windowMap_regOffset hp h
  rw [step_read hnext h4 hlt, readAccess, hmap, ← dataWord_of_sameBlock (s := s) (t := s.pop) rfl]
  exact congrArg _ (if_neg (Bool.eq_false_iff.1 hb))

/-- A pending write of a word of a data register, in one step. -/
theorem step_write_data_idle {w : Word}
    (hnext : s.AccessNext (wordAccess s.params (regOffset r + 4 * i) (.write w))) :
    step s = .next (setDataWord { s.pop with rdata := none } r i w) := by
  obtain ⟨h4, hlt⟩ := regOffset_lt hp h
  have hmap : windowMap ({ s.pop with rdata := none } : State).params (regOffset r + 4 * i) = .data r i :=
    windowMap_regOffset hp h
  rw [step_write hnext h4 hlt, writeAccess, hmap]
  exact congrArg _ (if_neg (Bool.eq_false_iff.1 hb))

end

theorem setDataWord_sameControl (s : State) (r : DataReg) (i : Nat) (w : Word) :
    SameControl s (setDataWord s r i w) := by
  cases r <;> exact ⟨rfl, rfl, rfl, rfl, rfl, rfl, rfl, rfl, rfl⟩

/-- A word read is 32 bits of the register's value (R39); a share index is one word. -/
theorem dataWord_toNat {s : State} {r : DataReg} {i : Nat} (h : r.HasWord s.params i) :
    (dataWord s r i).toNat = regValue s r / 2 ^ (32 * i) % 2 ^ 32 := by
  have elem (v : Nat) : (elemWord v i).toNat = v / 2 ^ (32 * i) % 2 ^ 32 := by
    rw [elemWord, BitVec.toNat_ofNat, Nat.shiftRight_eq_div_pow]
  cases r with
  | shareIndex k =>
    obtain ⟨-, rfl⟩ := h
    rw [Nat.mul_zero, pow_zero, Nat.div_one]
    exact (Nat.mod_eq_of_lt (readSIDX s k).isLt).symm
  | _ => exact elem _

/-! ### A register and its words (R39) -/

section
variable {s : State} {r : DataReg} (hn : ∀ k, r ≠ .shareIndex k)
include hn

theorem dataWord_eq_elemWord (s : State) (i : Nat) : dataWord s r i = elemWord (regValue s r) i := by
  cases r with
  | shareIndex k => exact absurd rfl (hn k)
  | _ => rfl

theorem hasWord_of_lt {p : Params} (h : r.HasWord p 0) {i : Nat} (hi : i < p.W / 32) : r.HasWord p i := by
  cases r with
  | shareIndex k => exact absurd rfl (hn k)
  | modulus => exact hi
  | field f => exact hi
  | coef j => exact ⟨h.1, hi⟩
  | shareValue k => exact ⟨h.1, hi⟩

theorem regValue_lt (hf : s.toBlock.Fits) : regValue s r < 2 ^ s.params.W := by
  cases r with
  | shareIndex k => exact absurd rfl (hn k)
  | modulus => exact hf.P_lt
  | field f => exact readF_lt hf f
  | coef j => exact readC_lt hf j
  | shareValue k => exact readSVAL_lt hf k

/-- The words of a W-bit register determine its value. -/
theorem regValue_of_words (hp : s.params.Legal) (hf : s.toBlock.Fits) {x : Nat} (hx : x < 2 ^ s.params.W)
    (hwords : ∀ i, i < s.params.W / 32 → dataWord s r i = elemWord x i) : regValue s r = x := by
  have hW : 32 * (s.params.W / 32) = s.params.W := Nat.mul_div_cancel' (Nat.dvd_of_mod_eq_zero hp.1)
  refine elem_ext (n := s.params.W / 32) (by rw [hW]; exact regValue_lt hn hf) (by rwa [hW]) fun i hi => ?_
  rw [← dataWord_eq_elemWord hn, hwords i hi]

end

/-- A register whose words are as they were has the value it had. -/
theorem regValue_of_sameWords {s t : State} {q : DataReg} (hp : s.params.Legal) (hparams : t.params = s.params)
    (hs : s.toBlock.Fits) (ht : t.toBlock.Fits) (hq : q.HasWord s.params 0)
    (hwords : ∀ i, q.HasWord s.params i → dataWord t q i = dataWord s q i) : regValue t q = regValue s q := by
  by_cases hn : ∀ k, q ≠ .shareIndex k
  · refine regValue_of_words hn (hparams ▸ hp) ht (hparams ▸ regValue_lt hn hs) fun i hi => ?_
    rw [hwords i (hasWord_of_lt hn hq (hparams ▸ hi)), dataWord_eq_elemWord hn]
  · obtain ⟨k, rfl⟩ := not_forall_not.1 hn
    exact congrArg BitVec.toNat (hwords 0 hq)

/-! ### Words loaded one by one -/

/-- `t` is `s` with the words of `x` at the places `order` of the register `r`. -/
structure WordsLoaded (r : DataReg) (x : Nat) (order : List Nat) (s t : State) : Prop where
  params : t.params = s.params
  fits : t.toBlock.Fits
  status : t.status = s.status
  errinfo : t.errinfo = s.errinfo
  ctrl : t.ctrl = s.ctrl
  cmd : t.cmd = s.cmd
  loaded : ∀ i ∈ order, dataWord t r i = elemWord x i
  other : ∀ q j, q.HasWord s.params j → (q = r → j ∉ order) → dataWord t q j = dataWord s q j

/-- One word loaded before the others. A later write of the same place would leave the same word. -/
theorem wordsLoaded_cons {r : DataReg} {x i : Nat} {order : List Nat} {s u t : State}
    (hfirst : WordsLoaded r x [i] s u) (hr : r.HasWord s.params i) (hrest : WordsLoaded r x order u t) :
    WordsLoaded r x (i :: order) s t where
  params := hrest.params.trans hfirst.params
  fits := hrest.fits
  status := hrest.status.trans hfirst.status
  errinfo := hrest.errinfo.trans hfirst.errinfo
  ctrl := hrest.ctrl.trans hfirst.ctrl
  cmd := hrest.cmd.trans hfirst.cmd
  loaded j hj := by
    by_cases hmem : j ∈ order
    · exact hrest.loaded j hmem
    · obtain rfl : j = i := (List.mem_cons.1 hj).resolve_right hmem
      rw [hrest.other r j (hfirst.params ▸ hr) fun _ => hmem, hfirst.loaded j List.mem_cons_self]
  other q j hq hj := by
    have hne (e : q = r) : j ≠ i ∧ j ∉ order := by simpa using hj e
    rw [hrest.other q j (hfirst.params ▸ hq) fun e => (hne e).2,
      hfirst.other q j hq fun e => mt List.mem_singleton.1 (hne e).1]

theorem wordsLoaded_setDataWord {r : DataReg} {x i : Nat} {s u : State} (hp : s.params.Legal) (hf : s.toBlock.Fits)
    (hr : r.HasWord s.params i) (hu : u.toBlock = s.toBlock) :
    WordsLoaded r x [i] s (setDataWord u r i (elemWord x i)) := by
  have hf' : u.toBlock.Fits := hu ▸ hf
  have hr' : r.HasWord u.params i := by rw [hu]; exact hr
  have hmap : windowMap u.params (regOffset r + 4 * i) = .data r i := by rw [hu]; exact windowMap_regOffset hp hr
  refine ⟨?_, fits_setDataWord hf' _ hmap, ?_, ?_, ?_, ?_, fun j hj => ?_, fun q j hq hne => ?_⟩
  · rw [setDataWord_params, hu]
  · rw [setDataWord_status, hu]
  · rw [setDataWord_errinfo, hu]
  · rw [setDataWord_ctrl, hu]
  · rw [setDataWord_cmd, hu]
  · obtain rfl : j = i := List.mem_singleton.1 hj
    exact dataWord_setDataWord_same hf' hr' _
  · have hq' : q.HasWord u.params j := by rw [hu]; exact hq
    have hqj : (q, j) ≠ (r, i) := fun e =>
      hne (congrArg Prod.fst e) (List.mem_singleton.2 (congrArg Prod.snd e))
    rw [dataWord_setDataWord_other hq' hr' hqj, dataWord_of_sameBlock hu]

/-- The pending writes of some words of a value load them all, in the order in which they stand. -/
theorem run_wordWrites {r : DataReg} {x : Nat} {p : Params} (hp : p.Legal) (order : List Nat)
    (horder : ∀ i ∈ order, r.HasWord p i) (s : State) (hparams : s.params = p) (hf : s.toBlock.Fits)
    (hrst : s.rstAsserted = false) (hb : s.status.busy = false)
    (he : s.events = order.map fun i => hostWrite p (regOffset r + 4 * i) (elemWord x i)) :
    ∃ t, Host.Core.run Sys2Proof.core order.length s = .next t ∧ WordsLoaded r x order s t := by
  induction order generalizing s with
  | nil => exact ⟨s, run_zero s, ⟨rfl, hf, rfl, rfl, rfl, rfl, by simp, fun _ _ _ _ => rfl⟩⟩
  | cons i order ih =>
    subst hparams
    have hi := horder i List.mem_cons_self
    have hnext : s.AccessNext (wordAccess s.params (regOffset r + 4 * i) (.write (elemWord x i))) := ⟨hrst, _, he⟩
    have hstep := step_write_data_idle hp hi hb hnext
    have hfirst : WordsLoaded r x [i] s (setDataWord { s.pop with rdata := none } r i (elemWord x i)) :=
      wordsLoaded_setDataWord hp hf hi rfl
    obtain ⟨t, hrun, hrest⟩ := ih (fun j hj => horder j (List.mem_cons_of_mem _ hj)) _ hfirst.params hfirst.fits
      ((setDataWord_rstAsserted _ r i _).trans hrst) ((congrArg Status.busy hfirst.status).trans hb)
      (by rw [setDataWord_events]; exact congrArg List.tail he)
    exact ⟨t, (run_succ hstep order.length).trans hrun, wordsLoaded_cons hfirst hi hrest⟩

end Sys2Proof.Machine
end

section
/-! The data region of the register window, 20_memory.md R38, R39, R46, R47 and R57. -/

namespace Sys2Proof.Machine

/-- Settles O34: a data offset maps to a word of a data register, which BUSY closes. -/
theorem dataAccessWhileBusySetsWerr : Obligations.DataAccessWhileBusySetsWerr := by
  intro s off hb h4 hoff
  have ⟨_, hlt, _⟩ := hoff
  obtain ⟨r, i, hmap⟩ := (windowMap_data_iff h4 hlt).2 hoff
  constructor
  · intro w h
    rw [step_write h h4 hlt, writeAccess_data_busy (s := { s.pop with rdata := none }) hmap hb]
    rfl
  · intro h
    rw [step_read h h4 hlt, readAccess_data_busy (s := s.pop) hmap hb]
    exact ⟨_, rfl⟩

/-- Settles O45: the write replaces one word of one register, and the next read finds it. -/
theorem hostWriteThenReadReturnsTheWord : Obligations.HostWriteThenReadReturnsTheWord := by
  intro s r i w rest hwf hrst hb hr he
  have hf : ({ s.pop with rdata := none } : State).toBlock.Fits := hwf.fits
  refine ⟨_, step_write_data_idle hwf.legal hr hb ⟨hrst, rest, he⟩, ?events, setDataWord_sameControl _ r i w,
    setDataWord_status _ r i w, setDataWord_errinfo _ r i w, fun rest' hrest => ?read, fun q j hq hne => ?other⟩
  case events =>
    rw [setDataWord_events]
    exact congrArg List.tail he
  case read =>
    generalize hu : setDataWord { s.pop with rdata := none } r i w = u
    have hparams : u.params = s.params := hu ▸ setDataWord_params _ r i w
    have hnext : u.AccessNext (wordAccess u.params (regOffset r + 4 * i) .read) := by
      refine ⟨hu ▸ (setDataWord_rstAsserted _ r i w).trans hrst, rest', ?_⟩
      rw [hparams, ← hrest, ← hu, setDataWord_events]
      exact congrArg List.tail he
    have hbusy : u.status.busy = false := by
      rw [← hu, setDataWord_status]
      exact hb
    rw [step_read_data_idle (hparams ▸ hwf.legal) (hparams ▸ hr) hbusy hnext, ← hu,
      dataWord_setDataWord_same hf hr]
  case other =>
    rw [dataWord_setDataWord_other (s := { s.pop with rdata := none }) hq hr hne]
    exact dataWord_of_sameBlock rfl q j

/-- Settles O46: the map takes each word's offset back to the word, so no two words share one. -/
theorem windowMapNamesEveryWord : Obligations.WindowMapNamesEveryWord := by
  intro p hp r i h
  have hmap := windowMap_regOffset hp h
  obtain ⟨h4, hlt⟩ := regOffset_lt hp h
  refine ⟨hmap, (windowMap_data_iff h4 hlt).1 ⟨r, i, hmap⟩, fun q j hq e => ?_⟩
  have htarget : Target.data q j = .data r i := (windowMap_regOffset hp hq).symm.trans (e ▸ hmap)
  simpa using htarget

/-- Settles O47: the writes load every word of the value once, whatever their order, and words determine values. -/
theorem elementLoadsInAnyOrder : Obligations.ElementLoadsInAnyOrder := by
  intro s r x order hwf hrst hb hr hn hx hperm he
  have hmem {i : Nat} : i ∈ order ↔ i < s.params.W / 32 := hperm.mem_iff.trans List.mem_range
  have hlen : order.length = s.params.W / 32 := hperm.length_eq.trans List.length_range
  obtain ⟨t, hrun, hload⟩ := run_wordWrites hwf.legal order (fun i hi => hasWord_of_lt hn hr (hmem.1 hi)) s rfl
    hwf.fits hrst hb he
  have hparams := hload.params
  refine ⟨t, hlen ▸ hrun, ?value, fun q hq hqw => ?other, hload.status, hload.errinfo, hload.ctrl, hload.cmd⟩
  case value =>
    exact regValue_of_words hn (hparams ▸ hwf.legal) hload.fits (hparams ▸ hx) fun i hi =>
      hload.loaded i (hmem.2 (hparams ▸ hi))
  case other =>
    exact regValue_of_sameWords hwf.legal hparams hwf.fits hload.fits hqw fun j hj =>
      hload.other q j hj fun e => absurd e hq

/-- Settles O48: an offset that is not reserved names a control register or a word of a data register, and a read of
either answers its word and no more. -/
theorem idleReadHasNoSideEffect : Obligations.IdleReadHasNoSideEffect := by
  refine ⟨?any, ?data, fun s h => step_read_ctl (r := .cmd) h, ?errinfo⟩
  case any =>
    intro s off hb hlt h4 hres h
    rw [step_read h h4 hlt, readAccess]
    cases hmap : windowMap s.pop.params off with
    | ctl r => exact ⟨_, rfl⟩
    | data r i => exact ⟨_, congrArg _ (if_neg (Bool.eq_false_iff.1 hb))⟩
    | reserved => exact absurd ((windowMap_reserved_iff h4 hlt).1 hmap) hres
  case data =>
    intro s r i hp hb hr h
    exact ⟨_, step_read_data_idle hp hr hb h, dataWord_toNat hr⟩
  case errinfo =>
    intro s h
    refine ⟨_, step_read_ctl (r := .errinfo) h, ?_⟩
    simp only [ctlWord, errinfoWord, toNat_append_add, BitVec.toNat_ofNat]
    omega

end Sys2Proof.Machine
end

section
/-! SUPPORT. The engine's turn with a command in flight (20_memory.md R50, R59; R116), and the words of CTRL and STATUS as
numbers (10_state.md R19, R21). -/

namespace Sys2Proof.Machine

/-! ### The engine's turn -/

/-- With a command in flight, legal or not, the engine's turn commits: BUSY ends, DONE or ERR is set, and nothing that no
command touches changes. -/
theorem engineTurn_commits {s t : State} (hb : s.status.busy = true) (h : engineTurn s = .next t) :
    SameControl s t ∧ t.status.busy = false ∧ (t.status.done = true ∨ t.status.err = true) := by
  rcases engineTurn_inversion h with ⟨hidle, -⟩ | ⟨-, i, -, hexec⟩ | ⟨-, e, -, rfl⟩
  · simp [hb] at hidle
  · exact ⟨exec_sameControl hexec, exec_busy hexec, exec_done_or_err hexec⟩
  · exact ⟨⟨rfl, rfl, rfl, rfl, rfl, rfl, rfl, rfl, rfl⟩, rfl, .inr rfl⟩

theorem step_engine_commits {s t : State} (hb : s.status.busy = true) (hnext : s.EngineNext)
    (h : step s = .next t) :
    SameControl s.pop t ∧ t.status.busy = false ∧ (t.status.done = true ∨ t.status.err = true) :=
  engineTurn_commits (s := s.pop) hb ((step_of_engineNext hnext).symm.trans h)

theorem step_engine_idle {s : State} (hb : s.status.busy = false) (hnext : s.EngineNext) :
    step s = .next s.pop :=
  (step_of_engineNext hnext).trans (if_neg (Bool.eq_false_iff.1 hb))

/-- RST_N going high is one step, which leaves the block as it was held (R127). -/
theorem step_releaseReset {s : State} {rest : List Event} (h : s.events = .releaseReset :: rest) :
    step s = .next (releaseReset s.pop) := by
  simp [step, h, State.pop]

theorem irq_eq_ie {t : State} (h : t.status.done = true ∨ t.status.err = true) : irq t = t.ctrl.ie := by
  rcases h with h | h <;> simp [irq, h]

/-- The pending moves are none of Execute's business: the same command commits the same data (R50). -/
theorem exec_sameData_of_sameBlock {i : Instr} {s u t v : State} (ht : exec i s = .next t)
    (hv : exec i u = .next v) (hblock : u.toBlock = s.toBlock) : SameData t v :=
  have hdata : SameData s u := by simp [SameData, hblock]
  (executeDependsOnDataOnly i s u t v (hblock ▸ rfl) hdata (hblock ▸ rfl) (hblock ▸ rfl) (hblock ▸ rfl) (hblock ▸ rfl)
    (hblock ▸ rfl) ht hv).1

/-! ### Runs -/

theorem run_one_of_step_eq_exec {s u : State} {i : Instr} (h : step s = exec i u) :
    Host.Core.run Sys2Proof.core 1 s = exec i u := by
  obtain ⟨t, ht⟩ := exec_next i u
  rw [ht] at h ⊢
  exact run_one h

/-- Polls of STATUS leave the command in flight as it is, until no move is pending (R59). -/
theorem run_polls {p : Params} (polls : Nat) (s : State) (hp : s.params = p) (hrst : s.rstAsserted = false)
    (he : s.events = List.replicate polls (hostRead p 0x0C)) (k : Nat) :
    ∃ r, Host.Core.run Sys2Proof.core (polls + k) s =
      Host.Core.run Sys2Proof.core k { s with events := [], rdata := r } := by
  induction polls generalizing s with
  | zero =>
    have hnil : s.events = [] := he
    exact ⟨s.rdata, by rw [Nat.zero_add, ← hnil]⟩
  | succ polls ih =>
    subst hp
    have hstep := step_read_ctl (r := .status) ⟨hrst, _, he⟩
    obtain ⟨r, hr⟩ := ih { s.pop with rdata := some (ctlWord s .status) } rfl hrst (congrArg List.tail he)
    exact ⟨r, by rw [Nat.add_right_comm, run_succ hstep, hr]; rfl⟩

/-! ### CTRL and STATUS as numbers -/

theorem ctrlWord_toNat (c : Ctrl) : (ctrlWord c).toNat = c.ie.toNat + 2 * c.zeroize.toNat := by
  simp only [ctrlWord, toNat_append_add, BitVec.toNat_ofNat, BitVec.toNat_ofBool]
  omega

theorem statusWord_toNat (st : Status) : (statusWord st).toNat =
    st.busy.toNat + 2 * st.done.toNat + 4 * st.err.toNat + 8 * st.werr.toNat + 256 * st.errcode.toNat := by
  simp only [statusWord, toNat_append_add, BitVec.toNat_ofNat, BitVec.toNat_ofBool]
  omega

/-- A W1C bit as the claims write it, R21. -/
theorem and_not_eq_ite (a b : Bool) : (a && !b) = if b then false else a := by cases a <;> cases b <;> rfl

end Sys2Proof.Machine
end

section
/-! The step, 20_memory.md R50, R53 and R59, and the accesses it performs: 10_state.md R19 and R21, 20_memory.md R37 and
R44, 60_exceptions.md R116, 70_reset_and_hazards.md R127. -/

namespace Sys2Proof.Machine

/-- Settles O51: a commit sets DONE or ERR, an issue clears both, and a violation changes neither. -/
theorem irqFollowsCompletion : Obligations.IrqFollowsCompletion := by
  refine ⟨fun s => by simp [irq], ?commit, ?issue, ?violation⟩
  case commit =>
    intro s t hb hnext h
    obtain ⟨⟨-, hctrl, -⟩, -, hflag⟩ := step_engine_commits hb hnext h
    rw [irq_eq_ie hflag, hctrl]
    rfl
  case issue =>
    intro s t v hnext hb h
    obtain rfl : issue { s.pop with rdata := none } v = t := by simpa [step_write_cmd_idle hnext hb] using h
    simp [irq]
  case violation =>
    intro s t a hnext hlo hhi hviol h
    have hin : inWindow s.params a = true := inWindow_iff.2 ⟨hlo, hhi⟩
    obtain rfl : performAccess s.pop a = t := by simpa [step_access hnext hin] using h
    obtain ⟨-, hstate⟩ := performAccess_werrRule (s := s.pop) hin
    rw [hstate hviol]
    rfl

/-- Settles O52: BUSY decides whether the CMD write is ignored or issues, and its place among the pending moves does not
matter to the command in flight. -/
theorem cmdWriteRacesCommit : Obligations.CmdWriteRacesCommit := by
  intro s i v hb hrst hdec
  constructor
  case left =>
    intro rest he
    have hwrite := step_write_cmd_busy ⟨hrst, _, he⟩ hb
    have hturn : step (setWerr { s.pop with rdata := none }) = exec i (setWerr { s.pop with rdata := none }).pop :=
      step_of_decode_ok hb (.inr ⟨rest, congrArg List.tail he⟩) hdec
    have hpop : (setWerr { s.pop with rdata := none }).pop =
        { s with status := { s.status with werr := true }, events := rest, rdata := none } := by
      simp [State.pop, setWerr, he]
    rw [run_succ hwrite, run_one_of_step_eq_exec hturn, hpop]
  case right =>
    intro rest he
    obtain ⟨t, ht⟩ := exec_next i { s with events := rest }
    obtain ⟨t', ht'⟩ := exec_next i s.pop
    have hturn : step s = .next t' := (step_of_decode_ok hb (.inr ⟨_, he⟩) hdec).trans ht'
    obtain ⟨hparams, -, -, -, hwerr, hrst', hevents, -⟩ := exec_sameControl ht'
    have hevents' : t'.events = hostWrite s.params 0x10 v :: rest := hevents.trans (congrArg List.tail he)
    have hnext : t'.AccessNext (wordAccess t'.params 0x10 (.write v)) := by
      rw [hparams]
      exact ⟨hrst'.trans hrst, rest, hevents'⟩
    have hdata : SameData t t' := exec_sameData_of_sameBlock ht ht' rfl
    have hissue := step_write_cmd_idle hnext (exec_busy ht')
    exact ⟨t, _, ht, (run_succ hturn 1).trans (run_one hissue), rfl, rfl, hdata, hwerr,
      congrArg List.tail hevents'⟩

/-- Settles O53: the polls only change what the host read, and then the engine takes its turn. -/
theorem polledCommandCompletes : Obligations.PolledCommandCompletes := by
  intro s polls hb hrst he
  obtain ⟨r, hrun⟩ := run_polls polls s rfl hrst he 1
  obtain ⟨t, ht⟩ := engineTurn_next { s with events := [], rdata := r }
  have hstep : step { s with events := [], rdata := r } = .next t := ht
  obtain ⟨⟨-, -, hcmd, -, hwerr, -, hevents, -⟩, hbusy, -⟩ :=
    engineTurn_commits (s := { s with events := [], rdata := r }) hb ht
  exact ⟨t, hrun.trans (run_one hstep), hbusy, hevents, hcmd, hwerr⟩

/-- Settles O6: the engine decodes CMD and runs the command it finds. -/
theorem stepRunsDecodedCommand : Obligations.StepRunsDecodedCommand := fun _ _ => step_of_decode_ok

/-- Settles O7: the head of the pending moves decides which move the step is. -/
theorem stepPerformsTheNextMove : Obligations.StepPerformsTheNextMove := by
  refine ⟨fun s a rest he => ?access, fun s rest => step_assertReset, fun s rest => step_releaseReset,
    fun s => step_engine_idle⟩
  case access => simp [step, he, State.pop]

/-- Settles O8: placing a word issues it, so that BUSY = 1 and CMD holds it at the engine's turn. -/
theorem placedCommandRunsNext : Obligations.PlacedCommandRunsNext := by
  intro s w i h
  have hword : BitVec.ofNat 32 (w % 2 ^ 32) = BitVec.ofNat 32 w := by
    apply BitVec.eq_of_toNat_eq
    simp
  have hdec : decode (BitVec.ofNat 32 w) = .ok i := by
    rw [decodeTableWord, hword] at h
    cases hd : decode (BitVec.ofNat 32 w) with
    | ok j => simpa [hd] using h
    | error e => simp [hd] at h
  rw [State.withFetchWord, hword]
  exact step_of_decode_ok (s := placeCommand s (BitVec.ofNat 32 w)) rfl (.inr ⟨s.events, rfl⟩) hdec

/-- Settles O37: no bit of CTRL or STATUS sets WERR, and the other three registers take no write. -/
theorem readOnlyRegistersIgnoreWrites : Obligations.ReadOnlyRegistersIgnoreWrites := by
  intro s w
  constructor
  · rintro off (rfl | rfl | rfl) h
    · exact step_write_ctl (r := .id) h
    · exact step_write_ctl (r := .param) h
    · exact step_write_ctl (r := .errinfo) h
  · have hkeeps (r : CtlReg) (hr : r = .ctrl ∨ r = .status)
        (ht : (writeCtl { s.pop with rdata := none } r w).status.werr = true) : s.status.werr = true := by
      have hv : ¬TargetViolates s.status.busy (.write w) (.ctl r) := by
        rcases hr with rfl | rfl <;> simp [TargetViolates]
      obtain ⟨hwerr, -⟩ := writeCtl_werrRule { s.pop with rdata := none } r w
      exact ((hwerr.1 ht).resolve_left hv).1
    rintro off (rfl | rfl) h
    · exact ⟨_, step_write_ctl (r := .ctrl) h, hkeeps .ctrl (.inl rfl)⟩
    · exact ⟨_, step_write_ctl (r := .status) h, hkeeps .status (.inr rfl)⟩

/-- Settles O40: bit 31 = 0 is no soft reset, so the write stores its two bits. -/
theorem ctrlStoresItsTwoBits : Obligations.CtrlStoresItsTwoBits := by
  intro s
  constructor
  · intro h
    exact ⟨_, step_read_ctl (r := .ctrl) h, ctrlWord_toNat s.ctrl⟩
  · intro w h h31
    rw [step_write_ctl (r := .ctrl) h]
    exact congrArg _ (if_neg (Bool.eq_false_iff.1 h31))

/-- Settles O42: in its reset state the block has no command in flight, and the host has no move. -/
theorem assertedResetHoldsTheBlock : Obligations.AssertedResetHoldsTheBlock := by
  intro s hwf hrst
  have hblock := hwf.held hrst
  refine ⟨hblock, ?engine, fun a rest he hlo hhi => ?access, fun rest => step_releaseReset⟩
  case engine =>
    have hidle : s.status.busy = false := by
      rw [hblock]
      rfl
    exact step_engine_idle hidle
  case access =>
    have hin : inWindow s.params a = true := inWindow_iff.2 ⟨hlo, hhi⟩
    simp [step, he, hostAccess, hin, hrst]

/-- Settles O43: each flag of STATUS has its own bit, and the acknowledgement masks the three W1C ones. -/
theorem statusWriteClearsOnlyItsOnes : Obligations.StatusWriteClearsOnlyItsOnes := by
  intro s
  constructor
  · intro h
    exact ⟨_, step_read_ctl (r := .status) h, statusWord_toNat s.status⟩
  · intro w h
    rw [step_write_ctl (r := .status) h]
    simp only [writeCtl, ackStatus, and_not_eq_ite]
    rfl

/-- Settles O49: the window test comes before everything else an access does. -/
theorem accessOutsideTheWindowDoesNothing : Obligations.AccessOutsideTheWindowDoesNothing := by
  intro s a rest he hout
  have hin : inWindow s.params a = false := by
    rw [← Bool.not_eq_true, inWindow_iff]
    omega
  simp [step, he, hostAccess, hin, State.pop]

end Sys2Proof.Machine
end
